-- ==== Sys2Proof/Word.lean ====
section
/-! DEFINITION. The word types of the block (spec/00_scope.md R5 to R7). -/

namespace Sys2Proof

/-- `u8` of R7: the data width of R5. -/
abbrev Byte := BitVec 8

/-- `u16` of R7: the word width of R5. -/
abbrev Word := BitVec 16

/-- A bus address: "a 16-bit unsigned value" (R5, 20_memory.md R72). -/
abbrev Addr := BitVec 16

/-- One resolved command (30_encoding.md R100): CW in bits 31..0, DST in bits 95..32, SRC in
bits 159..96 (the numbering as one number is DESIGN CHOICE, log 10). -/
abbrev Command := BitVec 160

/-- `bit(b)` of R7. -/
def bit (b : Bool) : Nat := if b then 1 else 0

end Sys2Proof
end

