-- ==== Sys2Proof/Config.lean ====
section
/-! DEFINITION. What is fixed when a machine is built (spec/00_scope.md R5, 70_reset_and_hazards.md R330),
and the free values the spec leaves open. -/

namespace Sys2Proof

/-- Parameter `VARIANT` (R2, R5). -/
inductive Variant where
  | z80
  | gb
  deriving DecidableEq, Repr

/-- Parameter `HC8_CARRY_COMBINE` (R5, 40_flag_library.md R146). -/
inductive HcCombine where
  | or
  | add
  deriving DecidableEq, Repr

/-- Parameter `XY_POLICY` (R5, 10_state.md R33). -/
inductive XyPolicy where
  | draw
  | preserve
  deriving DecidableEq, Repr

/-- A flat memory block (20_memory.md R65): its window, and which byte store of the machine it is. -/
structure FlatBlock where
  store : Nat
  first : Addr
  last : Addr
  deriving DecidableEq, Repr

/-- The device behind a listener: a flat memory block (R65) or any other device (R66), told apart by
a number. -/
inductive Device where
  | flat (block : FlatBlock)
  | peripheral (id : Nat)
  deriving DecidableEq, Repr

/-- A bus listener (20_memory.md R60). Both bounds are inclusive (90_conflicts.md C1). -/
structure Listener where
  first : Addr
  last : Addr
  device : Device
  deriving DecidableEq, Repr

/-- The parameters of R5 that a command's effect depends on. They are fixed at construction (R330):
no step changes them. `RESET_STATE` is an argument of construction (`State.construct`) and `CYCLES`
is the opaque `Config.cycles` below. -/
structure Config where
  variant : Variant
  hc16Threshold : Word
  hc8Combine : HcCombine
  xyPolicy : XyPolicy
  gbFLowMask : Bool
  listeners : List Listener
  deriving DecidableEq, Repr

/-- One flat block over the whole address space, the memory of 95_test_vectors.md's conventions. -/
def FlatBlock.whole : FlatBlock := { store := 0, first := 0x0000, last := 0xFFFF }

/-- R5's defaults. The spec gives `VARIANT` and `LISTENERS` no default: Z80 and one flat block over
the whole address space are DESIGN CHOICE (log 2). -/
def Config.default : Config where
  variant := .z80
  hc16Threshold := 0x0FFF
  hc8Combine := .or
  xyPolicy := .draw
  gbFLowMask := false
  listeners := [{ first := 0x0000, last := 0xFFFF, device := .flat FlatBlock.whole }]

/-- `draw()` of a single bit (00_scope.md R8): the value of the n-th draw is free (log 5). -/
opaque Config.drawBit : Nat → Bool

/-- `draw()` of a byte, a peripheral's answer to a read (20_memory.md R66): free (log 5). -/
opaque Config.drawByte : Nat → Byte

/-- `CYCLES(command, outcome)` (40_flag_library.md R167), a number the spec leaves open. The outcome is
given as the state before and the state after (log 6). -/
opaque Config.cycles {σ : Type} (command : Command) (outcome : σ × σ) : Nat

end Sys2Proof
end

