-- ==== Sys2Proof/Syntax.lean ====
section
/-! DEFINITION. The commands as terms: one constructor of `Instr` per row of spec/opcode_table.json, with
resolved operands (spec/30_encoding.md R103, R106, R109, R110). -/

namespace Sys2Proof

/-- The Register8 file (10_state.md R21). A primed name is an alternate register. -/
inductive Reg8 where
  | b | c | d | e | h | l | f | a
  | b' | c' | d' | e' | h' | l' | f' | a'
  | i | r
  deriving DecidableEq, Repr

/-- The true Register16 cells (10_state.md R23). -/
inductive Reg16 where
  | sp | pc | ix | iy
  deriving DecidableEq, Repr

/-- The register pairs, views over two Register8 cells (10_state.md R24). -/
inductive Pair where
  | bc | de | hl | af
  | bc' | de' | hl' | af'
  deriving DecidableEq, Repr

/-- A Pointer's 16-bit source: a pair or a Register16 (20_memory.md R82, 30_encoding.md R104). -/
inductive Src16 where
  | pair (p : Pair)
  | reg (x : Reg16)
  deriving DecidableEq, Repr

/-- A PseudoPointer's offset source (20_memory.md R86). -/
inductive Offset where
  | reg (x : Reg8)
  | imm (v : Byte)
  deriving DecidableEq, Repr

/-- Operand class W8 (30_encoding.md R110): the writable 8-bit kinds REG8, PTR, PPTR8, MEM8. -/
inductive Loc8 where
  | reg (x : Reg8)
  | ptr (s : Src16)
  | pptr (base : Word) (offset : Offset)
  | mem (m : Addr)
  deriving DecidableEq, Repr

/-- Operand class R8 (R110): W8 and IMM8. -/
inductive Val8 where
  | loc (o : Loc8)
  | imm (v : Byte)
  deriving DecidableEq, Repr

/-- Operand class W16 (R110): REG16, PAIR, PPTR16, MEM16. -/
inductive Loc16 where
  | reg (x : Reg16)
  | pair (p : Pair)
  | pptr (base : Word) (offset : Offset)
  | mem (m : Addr)
  deriving DecidableEq, Repr

/-- Operand class R16 (R110): W16 and IMM16. -/
inductive Val16 where
  | loc (o : Loc16)
  | imm (v : Word)
  deriving DecidableEq, Repr

/-- Condition codes (30_encoding.md R108). -/
inductive Cond where
  | always | nz | z | nc | c | po | pe | p | m
  deriving DecidableEq, Repr

/-- The 49 operations (30_encoding.md R109), each with the operands its slots hold. A NONE slot has no
argument. `b` of BIT, SET and RES is the bit index 0..7 (R107). -/
inductive Instr where
  -- transfer (41_transfer.md)
  | nop
  | ld8 (dst : Loc8) (src : Val8)
  | ld16 (dst : Loc16) (src : Val16)
  | push (src : Val16)
  | pop (dst : Loc16)
  | ex16 (dst : Loc16) (src : Loc16)
  | exx
  -- 8-bit arithmetic and logic (42_alu8.md)
  | add8 (dst : Loc8) (src : Val8)
  | adc8 (dst : Loc8) (src : Val8)
  | sub8 (dst : Loc8) (src : Val8)
  | sbc8 (dst : Loc8) (src : Val8)
  | and8 (dst : Loc8) (src : Val8)
  | xor8 (dst : Loc8) (src : Val8)
  | or8 (dst : Loc8) (src : Val8)
  | cp8 (dst : Val8) (src : Val8)
  | inc8 (dst : Loc8)
  | dec8 (dst : Loc8)
  | neg
  | cpl
  | daa
  | scf
  | ccf
  -- 16-bit arithmetic (43_alu16.md)
  | add16 (dst : Loc16) (src : Val16)
  | adc16 (dst : Loc16) (src : Val16)
  | sbc16 (dst : Loc16) (src : Val16)
  | inc16 (dst : Loc16)
  | dec16 (dst : Loc16)
  | addspe (src : Val8)
  | ldhlspe (src : Val8)
  -- shifts and rotates (44_shift_rotate.md)
  | rlc (dst : Loc8)
  | rrc (dst : Loc8)
  | rl (dst : Loc8)
  | rr (dst : Loc8)
  | sla (dst : Loc8)
  | sra (dst : Loc8)
  | srl (dst : Loc8)
  | swap (dst : Loc8)
  | rlca
  | rrca
  | rla
  | rra
  -- single bits (45_bit.md)
  | bit (b : Fin 8) (src : Val8)
  | set (b : Fin 8) (dst : Loc8)
  | res (b : Fin 8) (dst : Loc8)
  -- control transfer (46_control.md)
  | jp (cond : Cond) (src : Val16)
  | jr (cond : Cond) (src : Val8)
  | call (cond : Cond) (src : Val16)
  | ret (cond : Cond)
  | djnz (src : Val8)
  deriving DecidableEq, Repr

end Sys2Proof
end

