-- ==== Sys2Proof/WellFormed.lean ====
section
/-! DEFINITION. Which terms are commands of a variant: the decode checks of spec/30_encoding.md R111 that the
types of Syntax.lean do not already enforce. -/

namespace Sys2Proof

/-- The named decode checks, in the order in which they are evaluated (R111). -/
inductive Check where
  | cwReserved
  | opDefined
  | opVariant
  | auxLegal
  | dstReserved
  | srcReserved
  | dstKind
  | srcKind
  | dstSel
  | srcSel
  | dstFields
  | srcFields
  deriving DecidableEq, Repr

/-- 10_state.md R21: ids 0..7 exist on both variants, 8..17 on the Z80 only. -/
def Reg8.inVariant (v : Variant) : Reg8 → Bool
  | .b | .c | .d | .e | .h | .l | .f | .a => true
  | .b' | .c' | .d' | .e' | .h' | .l' | .f' | .a' | .i | .r => v == .z80

/-- 10_state.md R23. -/
def Reg16.inVariant (v : Variant) : Reg16 → Bool
  | .sp | .pc => true
  | .ix | .iy => v == .z80

/-- 10_state.md R24. -/
def Pair.inVariant (v : Variant) : Pair → Bool
  | .bc | .de | .hl | .af => true
  | .bc' | .de' | .hl' | .af' => v == .z80

/-- 30_encoding.md R104, row PTR. -/
def Src16.inVariant (v : Variant) : Src16 → Bool
  | .pair p => p.inVariant v
  | .reg x => x.inVariant v

/-- 30_encoding.md R104, rows PPTR8 and PPTR16. -/
def Offset.inVariant (v : Variant) : Offset → Bool
  | .reg x => x.inVariant v
  | .imm _ => true

/-- R104 for the kinds of class W8. -/
def Loc8.inVariant (v : Variant) : Loc8 → Bool
  | .reg x => x.inVariant v
  | .ptr s => s.inVariant v
  | .pptr _ o => o.inVariant v
  | .mem _ => true

/-- R104 for the kinds of class R8. -/
def Val8.inVariant (v : Variant) : Val8 → Bool
  | .loc o => o.inVariant v
  | .imm _ => true

/-- R104 for the kinds of class W16. -/
def Loc16.inVariant (v : Variant) : Loc16 → Bool
  | .reg x => x.inVariant v
  | .pair p => p.inVariant v
  | .pptr _ o => o.inVariant v
  | .mem _ => true

/-- R104 for the kinds of class R16. -/
def Val16.inVariant (v : Variant) : Val16 → Bool
  | .loc o => o.inVariant v
  | .imm _ => true

/-- R108, column "variants": PO, PE, P and M are the Z80's. -/
def Cond.inVariant (v : Variant) : Cond → Bool
  | .always | .nz | .z | .nc | .c => true
  | .po | .pe | .p | .m => v == .z80

/-- R107: JR takes conditions 0..4 only, on both variants. -/
def Cond.short : Cond → Bool
  | .always | .nz | .z | .nc | .c => true
  | .po | .pe | .p | .m => false

/-- The R109 column "variants" as a check on terms (check `op_variant`). -/
def Instr.variantOk (v : Variant) : Instr → Bool
  | .exx | .neg | .adc16 _ _ | .sbc16 _ _ | .djnz _ => v == .z80
  | .addspe _ | .ldhlspe _ | .swap _ => v == .gb
  | .nop | .ld8 _ _ | .ld16 _ _ | .push _ | .pop _ | .ex16 _ _ => true
  | .add8 _ _ | .adc8 _ _ | .sub8 _ _ | .sbc8 _ _ | .and8 _ _ | .xor8 _ _ | .or8 _ _ | .cp8 _ _ => true
  | .inc8 _ | .dec8 _ | .cpl | .daa | .scf | .ccf => true
  | .add16 _ _ | .inc16 _ | .dec16 _ => true
  | .rlc _ | .rrc _ | .rl _ | .rr _ | .sla _ | .sra _ | .srl _ | .rlca | .rrca | .rla | .rra => true
  | .bit _ _ | .set _ _ | .res _ _ => true
  | .jp _ _ | .jr _ _ | .call _ _ | .ret _ => true

/-- R107 as a check on terms (check `aux_legal`). -/
def Instr.auxOk (v : Variant) : Instr → Bool
  | .jp k _ | .call k _ | .ret k => k.inVariant v
  | .jr k _ => k.short
  | .nop | .ld8 _ _ | .ld16 _ _ | .push _ | .pop _ | .ex16 _ _ | .exx => true
  | .add8 _ _ | .adc8 _ _ | .sub8 _ _ | .sbc8 _ _ | .and8 _ _ | .xor8 _ _ | .or8 _ _ | .cp8 _ _ => true
  | .inc8 _ | .dec8 _ | .neg | .cpl | .daa | .scf | .ccf => true
  | .add16 _ _ | .adc16 _ _ | .sbc16 _ _ | .inc16 _ | .dec16 _ | .addspe _ | .ldhlspe _ => true
  | .rlc _ | .rrc _ | .rl _ | .rr _ | .sla _ | .sra _ | .srl _ | .swap _ => true
  | .rlca | .rrca | .rla | .rra => true
  | .bit _ _ | .set _ _ | .res _ _ | .djnz _ => true

/-- Check `dst_sel` (R104) on the destination slot. -/
def Instr.dstOk (v : Variant) : Instr → Bool
  | .ld8 d _ | .add8 d _ | .adc8 d _ | .sub8 d _ | .sbc8 d _ | .and8 d _ | .xor8 d _ | .or8 d _ => d.inVariant v
  | .cp8 d _ => d.inVariant v
  | .inc8 d | .dec8 d | .rlc d | .rrc d | .rl d | .rr d | .sla d | .sra d | .srl d | .swap d => d.inVariant v
  | .set _ d | .res _ d => d.inVariant v
  | .ld16 d _ | .pop d | .ex16 d _ | .add16 d _ | .adc16 d _ | .sbc16 d _ | .inc16 d | .dec16 d => d.inVariant v
  | .nop | .push _ | .exx | .neg | .cpl | .daa | .scf | .ccf | .addspe _ | .ldhlspe _ => true
  | .rlca | .rrca | .rla | .rra | .bit _ _ | .jp _ _ | .jr _ _ | .call _ _ | .ret _ | .djnz _ => true

/-- Check `src_sel` (R104) on the source slot. -/
def Instr.srcOk (v : Variant) : Instr → Bool
  | .ld8 _ s | .add8 _ s | .adc8 _ s | .sub8 _ s | .sbc8 _ s | .and8 _ s | .xor8 _ s | .or8 _ s => s.inVariant v
  | .cp8 _ s | .addspe s | .ldhlspe s | .bit _ s | .jr _ s | .djnz s => s.inVariant v
  | .ld16 _ s | .push s | .add16 _ s | .adc16 _ s | .sbc16 _ s | .jp _ s | .call _ s => s.inVariant v
  | .ex16 _ s => s.inVariant v
  | .nop | .pop _ | .exx | .inc8 _ | .dec8 _ | .neg | .cpl | .daa | .scf | .ccf | .inc16 _ | .dec16 _ => true
  | .rlc _ | .rrc _ | .rl _ | .rr _ | .sla _ | .sra _ | .srl _ | .swap _ | .rlca | .rrca | .rla | .rra => true
  | .set _ _ | .res _ _ | .ret _ => true

/-- The first check of R111 a term fails on a variant, `none` when it is a command of the variant. The
checks not named here hold of every term by its type. -/
def Instr.illFormed (v : Variant) (i : Instr) : Option Check :=
  if !i.variantOk v then some .opVariant
  else if !i.auxOk v then some .auxLegal
  else if !i.dstOk v then some .dstSel
  else if !i.srcOk v then some .srcSel
  else none

/-- "A command is valid for `VARIANT`" (R111), on terms. -/
def Instr.wellFormed (v : Variant) (i : Instr) : Bool :=
  (i.illFormed v).isNone

end Sys2Proof
end

