-- ==== Sys2Proof/Decode.lean ====
section
/-! DEFINITION. The 160-bit command format: decoder, encoder and text form
(spec/30_encoding.md R100 to R115). The tables of codes stand once and serve both directions. -/

namespace Sys2Proof

/-! ## Code tables -/

/-- The operations of R109, without operands. -/
inductive Op where
  | nop | ld8 | ld16 | push | pop | ex16 | exx
  | add8 | adc8 | sub8 | sbc8 | and8 | xor8 | or8 | cp8 | inc8 | dec8 | neg | cpl | daa | scf | ccf
  | add16 | adc16 | sbc16 | inc16 | dec16 | addspe | ldhlspe
  | rlc | rrc | rl | rr | sla | sra | srl | swap | rlca | rrca | rla | rra
  | bit | set | res
  | jp | jr | call | ret | djnz
  deriving DecidableEq, Repr

/-- Every operation, in the order of R109. -/
def Op.all : List Op :=
  [.nop, .ld8, .ld16, .push, .pop, .ex16, .exx,
   .add8, .adc8, .sub8, .sbc8, .and8, .xor8, .or8, .cp8, .inc8, .dec8, .neg, .cpl, .daa, .scf, .ccf,
   .add16, .adc16, .sbc16, .inc16, .dec16, .addspe, .ldhlspe,
   .rlc, .rrc, .rl, .rr, .sla, .sra, .srl, .swap, .rlca, .rrca, .rla, .rra,
   .bit, .set, .res,
   .jp, .jr, .call, .ret, .djnz]

/-- Column OP of R109. -/
def Op.code : Op → Byte
  | .nop => 0x00 | .ld8 => 0x01 | .ld16 => 0x02 | .push => 0x03 | .pop => 0x04 | .ex16 => 0x05 | .exx => 0x06
  | .add8 => 0x10 | .adc8 => 0x11 | .sub8 => 0x12 | .sbc8 => 0x13
  | .and8 => 0x14 | .xor8 => 0x15 | .or8 => 0x16 | .cp8 => 0x17
  | .inc8 => 0x18 | .dec8 => 0x19 | .neg => 0x1A | .cpl => 0x1B | .daa => 0x1C | .scf => 0x1D | .ccf => 0x1E
  | .add16 => 0x20 | .adc16 => 0x21 | .sbc16 => 0x22 | .inc16 => 0x23 | .dec16 => 0x24
  | .addspe => 0x25 | .ldhlspe => 0x26
  | .rlc => 0x30 | .rrc => 0x31 | .rl => 0x32 | .rr => 0x33 | .sla => 0x34 | .sra => 0x35 | .srl => 0x36
  | .swap => 0x37 | .rlca => 0x38 | .rrca => 0x39 | .rla => 0x3A | .rra => 0x3B
  | .bit => 0x40 | .set => 0x41 | .res => 0x42
  | .jp => 0x50 | .jr => 0x51 | .call => 0x52 | .ret => 0x53 | .djnz => 0x54

/-- Check `op_defined` (R111): the row of R109 with this OP. -/
def Op.ofCode (n : Byte) : Option Op := Op.all.find? (fun o => o.code == n)

/-- Column "variants" of R109 (check `op_variant`). -/
def Op.inVariant (v : Variant) : Op → Bool
  | .exx | .neg | .adc16 | .sbc16 | .djnz => v == .z80
  | .addspe | .ldhlspe | .swap => v == .gb
  | .nop | .ld8 | .ld16 | .push | .pop | .ex16 | .add8 | .adc8 | .sub8 | .sbc8 | .and8 | .xor8 | .or8 | .cp8
  | .inc8 | .dec8 | .cpl | .daa | .scf | .ccf | .add16 | .inc16 | .dec16
  | .rlc | .rrc | .rl | .rr | .sla | .sra | .srl | .rlca | .rrca | .rla | .rra
  | .bit | .set | .res | .jp | .jr | .call | .ret => true

/-- What AUX holds, per operation (R107). -/
inductive AuxUse where
  | zero
  | bitIndex
  | cond
  | shortCond
  deriving DecidableEq, Repr

/-- Column AUX of R109. -/
def Op.auxUse : Op → AuxUse
  | .bit | .set | .res => .bitIndex
  | .jp | .call | .ret => .cond
  | .jr => .shortCond
  | .nop | .ld8 | .ld16 | .push | .pop | .ex16 | .exx
  | .add8 | .adc8 | .sub8 | .sbc8 | .and8 | .xor8 | .or8 | .cp8 | .inc8 | .dec8 | .neg | .cpl | .daa | .scf | .ccf
  | .add16 | .adc16 | .sbc16 | .inc16 | .dec16 | .addspe | .ldhlspe
  | .rlc | .rrc | .rl | .rr | .sla | .sra | .srl | .swap | .rlca | .rrca | .rla | .rra | .djnz => .zero

/-- Operand classes (R110). -/
inductive OperandClass where
  | none | w8 | r8 | w16 | r16
  deriving DecidableEq, Repr

/-- Column DST of R109. -/
def Op.dstClass : Op → OperandClass
  | .ld8 | .add8 | .adc8 | .sub8 | .sbc8 | .and8 | .xor8 | .or8 | .inc8 | .dec8 => .w8
  | .rlc | .rrc | .rl | .rr | .sla | .sra | .srl | .swap | .set | .res => .w8
  | .cp8 => .r8
  | .ld16 | .pop | .ex16 | .add16 | .adc16 | .sbc16 | .inc16 | .dec16 => .w16
  | .nop | .push | .exx | .neg | .cpl | .daa | .scf | .ccf | .addspe | .ldhlspe
  | .rlca | .rrca | .rla | .rra | .bit | .jp | .jr | .call | .ret | .djnz => .none

/-- Column SRC of R109. -/
def Op.srcClass : Op → OperandClass
  | .ld8 | .add8 | .adc8 | .sub8 | .sbc8 | .and8 | .xor8 | .or8 | .cp8 => .r8
  | .addspe | .ldhlspe | .bit | .jr | .djnz => .r8
  | .ld16 | .push | .add16 | .adc16 | .sbc16 | .jp | .call => .r16
  | .ex16 => .w16
  | .nop | .pop | .exx | .inc8 | .dec8 | .neg | .cpl | .daa | .scf | .ccf | .inc16 | .dec16
  | .rlc | .rrc | .rl | .rr | .sla | .sra | .srl | .swap | .rlca | .rrca | .rla | .rra
  | .set | .res | .ret => .none

/-- Operand kinds (R103). -/
inductive Kind where
  | none | reg8 | reg16 | pair | ptr | pptr8 | pptr16 | mem8 | mem16 | imm8 | imm16
  deriving DecidableEq, Repr

def Kind.all : List Kind := [.none, .reg8, .reg16, .pair, .ptr, .pptr8, .pptr16, .mem8, .mem16, .imm8, .imm16]

/-- Column KIND of R103. -/
def Kind.code : Kind → BitVec 4
  | .none => 0 | .reg8 => 1 | .reg16 => 2 | .pair => 3 | .ptr => 4 | .pptr8 => 5 | .pptr16 => 6
  | .mem8 => 7 | .mem16 => 8 | .imm8 => 9 | .imm16 => 10

/-- KIND 11..15 are reserved (R103, R113). -/
def Kind.ofCode (n : BitVec 4) : Option Kind := Kind.all.find? (fun k => k.code == n)

/-- R110. -/
def OperandClass.has : OperandClass → Kind → Bool
  | .none, k => k == .none
  | .w8, k => k == .reg8 || k == .ptr || k == .pptr8 || k == .mem8
  | .r8, k => k == .reg8 || k == .ptr || k == .pptr8 || k == .mem8 || k == .imm8
  | .w16, k => k == .reg16 || k == .pair || k == .pptr16 || k == .mem16
  | .r16, k => k == .reg16 || k == .pair || k == .pptr16 || k == .mem16 || k == .imm16

/-- Column "width" of R103, in bits. -/
def Kind.width : Kind → Option Nat
  | .none => Option.none
  | .reg8 | .ptr | .pptr8 | .mem8 | .imm8 => some 8
  | .reg16 | .pair | .pptr16 | .mem16 | .imm16 => some 16

/-- Column "Readable" of R103. -/
def Kind.readable : Kind → Bool
  | .none => false
  | .reg8 | .reg16 | .pair | .ptr | .pptr8 | .pptr16 | .mem8 | .mem16 | .imm8 | .imm16 => true

/-- Column "Writeable" of R103. -/
def Kind.writeable : Kind → Bool
  | .none | .imm8 | .imm16 => false
  | .reg8 | .reg16 | .pair | .ptr | .pptr8 | .pptr16 | .mem8 | .mem16 => true

/-- The self-reported tags of 10_state.md R37. -/
inductive OperandKind where
  | register8Like | register16Like | register16ComputedLike | register16Indirect8Like | memory8Like | memory16Like
  deriving DecidableEq, Repr

/-- Column "OperandKind tag" of R103. No rule's result depends on it (10_state.md R37). -/
def Kind.tag : Kind → Option OperandKind
  | .none | .imm8 | .imm16 => Option.none
  | .reg8 => some .register8Like
  | .reg16 => some .register16Like
  | .pair => some .register16ComputedLike
  | .ptr => some .register16Indirect8Like
  | .pptr8 | .mem8 => some .memory8Like
  | .pptr16 | .mem16 => some .memory16Like

def Reg8.all : List Reg8 :=
  [.b, .c, .d, .e, .h, .l, .f, .a, .b', .c', .d', .e', .h', .l', .f', .a', .i, .r]

/-- Column "id" of 10_state.md R21. -/
def Reg8.id : Reg8 → BitVec 5
  | .b => 0 | .c => 1 | .d => 2 | .e => 3 | .h => 4 | .l => 5 | .f => 6 | .a => 7
  | .b' => 8 | .c' => 9 | .d' => 10 | .e' => 11 | .h' => 12 | .l' => 13 | .f' => 14 | .a' => 15
  | .i => 16 | .r => 17

def Reg8.ofId (n : BitVec 5) : Option Reg8 := Reg8.all.find? (fun x => x.id == n)

def Reg16.all : List Reg16 := [.sp, .pc, .ix, .iy]

/-- Column "id" of 10_state.md R23. -/
def Reg16.id : Reg16 → BitVec 5
  | .sp => 8 | .pc => 9 | .ix => 10 | .iy => 11

def Reg16.ofId (n : BitVec 5) : Option Reg16 := Reg16.all.find? (fun x => x.id == n)

def Pair.all : List Pair := [.bc, .de, .hl, .af, .bc', .de', .hl', .af']

/-- Column "id" of 10_state.md R24. -/
def Pair.id : Pair → BitVec 5
  | .bc => 0 | .de => 1 | .hl => 2 | .af => 3 | .bc' => 4 | .de' => 5 | .hl' => 6 | .af' => 7

def Pair.ofId (n : BitVec 5) : Option Pair := Pair.all.find? (fun p => p.id == n)

/-- The unified 16-bit source numbers (R104, row PTR). -/
def Src16.id : Src16 → BitVec 5
  | .pair p => p.id
  | .reg x => x.id

def Src16.ofId (n : BitVec 5) : Option Src16 :=
  match Pair.ofId n with
  | some p => some (.pair p)
  | none => (Reg16.ofId n).map .reg

def Cond.all : List Cond := [.always, .nz, .z, .nc, .c, .po, .pe, .p, .m]

/-- Column AUX of R108. -/
def Cond.code : Cond → Byte
  | .always => 0 | .nz => 1 | .z => 2 | .nc => 3 | .c => 4 | .po => 5 | .pe => 6 | .p => 7 | .m => 8

def Cond.ofCode (n : Byte) : Option Cond := Cond.all.find? (fun k => k.code == n)

/-! ## Operand descriptors -/

/-- The fields of an operand descriptor (R102), the reserved bits apart. -/
structure Desc where
  kind : BitVec 4
  sel : BitVec 5
  offImm : Bool
  off8 : Byte
  value : Word
  deriving DecidableEq, Repr

/-- R102, read from the 64 bits. -/
def Desc.ofBits (w : BitVec 64) : Desc where
  kind := w.extractLsb' 0 4
  sel := w.extractLsb' 4 5
  offImm := w.getLsbD 9
  off8 := w.extractLsb' 16 8
  value := w.extractLsb' 32 16

/-- Checks `dst_reserved`, `src_reserved` (R111): bits 15:10, 31:24 and 63:48 are 0. -/
def reservedClear (w : BitVec 64) : Bool :=
  w.extractLsb' 10 6 == 0 && w.extractLsb' 24 8 == 0 && w.extractLsb' 48 16 == 0

/-- R102, written as 64 bits. -/
def Desc.toBits (d : Desc) : BitVec 64 :=
  (0 : BitVec 16) ++ d.value ++ (0 : BitVec 8) ++ d.off8 ++ (0 : BitVec 6) ++
    BitVec.ofBool d.offImm ++ d.sel ++ d.kind

/-- Checks `dst_kind`, `src_kind` (R111). -/
def Desc.kindLegal (c : OperandClass) (d : Desc) : Bool :=
  (Kind.ofCode d.kind).any c.has

/-- Checks `dst_sel`, `src_sel` (R111) by the table of R104. -/
def Desc.selLegal (v : Variant) (d : Desc) : Bool :=
  match Kind.ofCode d.kind with
  | some .reg8 => (Reg8.ofId d.sel).any (·.inVariant v)
  | some .reg16 => (Reg16.ofId d.sel).any (·.inVariant v)
  | some .pair => (Pair.ofId d.sel).any (·.inVariant v)
  | some .ptr => (Src16.ofId d.sel).any (·.inVariant v)
  | some .pptr8 | some .pptr16 => if d.offImm then d.sel == 0 else (Reg8.ofId d.sel).any (·.inVariant v)
  | some .none | some .mem8 | some .mem16 | some .imm8 | some .imm16 => d.sel == 0
  | none => false

/-- Checks `dst_fields`, `src_fields` (R111) by the table of R105. -/
def Desc.fieldsLegal (d : Desc) : Bool :=
  match Kind.ofCode d.kind with
  | some .none | some .reg8 | some .reg16 | some .pair | some .ptr => !d.offImm && d.off8 == 0 && d.value == 0
  | some .pptr8 | some .pptr16 => d.offImm || d.off8 == 0
  | some .mem8 | some .mem16 | some .imm16 => !d.offImm && d.off8 == 0
  | some .imm8 => !d.offImm && d.off8 == 0 && d.value.extractLsb' 8 8 == 0
  | none => false

/-- R106: the offset of a PseudoPointer. -/
def Desc.offset? (d : Desc) : Option Offset :=
  if d.offImm then some (.imm d.off8) else (Reg8.ofId d.sel).map .reg

/-- R106, for a slot of class W8. -/
def Desc.loc8? (d : Desc) : Option Loc8 :=
  match Kind.ofCode d.kind with
  | some .reg8 => (Reg8.ofId d.sel).map .reg
  | some .ptr => (Src16.ofId d.sel).map .ptr
  | some .pptr8 => d.offset?.map (.pptr d.value)
  | some .mem8 => some (.mem d.value)
  | _ => none

/-- R106, for a slot of class R8. -/
def Desc.val8? (d : Desc) : Option Val8 :=
  match Kind.ofCode d.kind with
  | some .imm8 => some (.imm (d.value.extractLsb' 0 8))
  | _ => d.loc8?.map .loc

/-- R106, for a slot of class W16. -/
def Desc.loc16? (d : Desc) : Option Loc16 :=
  match Kind.ofCode d.kind with
  | some .reg16 => (Reg16.ofId d.sel).map .reg
  | some .pair => (Pair.ofId d.sel).map .pair
  | some .pptr16 => d.offset?.map (.pptr d.value)
  | some .mem16 => some (.mem d.value)
  | _ => none

/-- R106, for a slot of class R16. -/
def Desc.val16? (d : Desc) : Option Val16 :=
  match Kind.ofCode d.kind with
  | some .imm16 => some (.imm d.value)
  | _ => d.loc16?.map .loc

/-! ## The decoder -/

/-- CW (R100). -/
def cwOf (w : Command) : BitVec 32 := w.extractLsb' 0 32

/-- DST (R100). -/
def dstOf (w : Command) : BitVec 64 := w.extractLsb' 32 64

/-- SRC (R100). -/
def srcOf (w : Command) : BitVec 64 := w.extractLsb' 96 64

/-- Check `aux_legal` (R111) by R107 and R108. -/
def Op.auxLegal (v : Variant) (o : Op) (aux : Byte) : Bool :=
  match o.auxUse with
  | .zero => aux == 0
  | .bitIndex => decide (aux.toNat < 8)
  | .cond => (Cond.ofCode aux).any (·.inVariant v)
  | .shortCond => (Cond.ofCode aux).any (·.short)

/-- AUX as a bit index (R107). -/
def bitIndex? (aux : Byte) : Option (Fin 8) :=
  if h : aux.toNat < 8 then some ⟨aux.toNat, h⟩ else none

/-- The instruction of an operation with its AUX and its two descriptors (R106, R107, R109). -/
def Op.build (o : Op) (aux : Byte) (dst src : Desc) : Option Instr :=
  match o with
  | .nop => some .nop
  | .ld8 => return .ld8 (← dst.loc8?) (← src.val8?)
  | .ld16 => return .ld16 (← dst.loc16?) (← src.val16?)
  | .push => return .push (← src.val16?)
  | .pop => return .pop (← dst.loc16?)
  | .ex16 => return .ex16 (← dst.loc16?) (← src.loc16?)
  | .exx => some .exx
  | .add8 => return .add8 (← dst.loc8?) (← src.val8?)
  | .adc8 => return .adc8 (← dst.loc8?) (← src.val8?)
  | .sub8 => return .sub8 (← dst.loc8?) (← src.val8?)
  | .sbc8 => return .sbc8 (← dst.loc8?) (← src.val8?)
  | .and8 => return .and8 (← dst.loc8?) (← src.val8?)
  | .xor8 => return .xor8 (← dst.loc8?) (← src.val8?)
  | .or8 => return .or8 (← dst.loc8?) (← src.val8?)
  | .cp8 => return .cp8 (← dst.val8?) (← src.val8?)
  | .inc8 => return .inc8 (← dst.loc8?)
  | .dec8 => return .dec8 (← dst.loc8?)
  | .neg => some .neg
  | .cpl => some .cpl
  | .daa => some .daa
  | .scf => some .scf
  | .ccf => some .ccf
  | .add16 => return .add16 (← dst.loc16?) (← src.val16?)
  | .adc16 => return .adc16 (← dst.loc16?) (← src.val16?)
  | .sbc16 => return .sbc16 (← dst.loc16?) (← src.val16?)
  | .inc16 => return .inc16 (← dst.loc16?)
  | .dec16 => return .dec16 (← dst.loc16?)
  | .addspe => return .addspe (← src.val8?)
  | .ldhlspe => return .ldhlspe (← src.val8?)
  | .rlc => return .rlc (← dst.loc8?)
  | .rrc => return .rrc (← dst.loc8?)
  | .rl => return .rl (← dst.loc8?)
  | .rr => return .rr (← dst.loc8?)
  | .sla => return .sla (← dst.loc8?)
  | .sra => return .sra (← dst.loc8?)
  | .srl => return .srl (← dst.loc8?)
  | .swap => return .swap (← dst.loc8?)
  | .rlca => some .rlca
  | .rrca => some .rrca
  | .rla => some .rla
  | .rra => some .rra
  | .bit => return .bit (← bitIndex? aux) (← src.val8?)
  | .set => return .set (← bitIndex? aux) (← dst.loc8?)
  | .res => return .res (← bitIndex? aux) (← dst.loc8?)
  | .jp => return .jp (← Cond.ofCode aux) (← src.val16?)
  | .jr => return .jr (← Cond.ofCode aux) (← src.val8?)
  | .call => return .call (← Cond.ofCode aux) (← src.val16?)
  | .ret => return .ret (← Cond.ofCode aux)
  | .djnz => return .djnz (← src.val8?)

/-- Checks 3 to 8 of R111 for the operation `o`, in their order: the first that fails. -/
def Op.refusal (v : Variant) (o : Op) (aux : Byte) (dst src : BitVec 64) : Option Check :=
  if !o.inVariant v then some .opVariant
  else if !o.auxLegal v aux then some .auxLegal
  else if !reservedClear dst then some .dstReserved
  else if !reservedClear src then some .srcReserved
  else if !(Desc.ofBits dst).kindLegal o.dstClass then some .dstKind
  else if !(Desc.ofBits src).kindLegal o.srcClass then some .srcKind
  else if !(Desc.ofBits dst).selLegal v then some .dstSel
  else if !(Desc.ofBits src).selLegal v then some .srcSel
  else if !(Desc.ofBits dst).fieldsLegal then some .dstFields
  else if !(Desc.ofBits src).fieldsLegal then some .srcFields
  else none

/-- The decoder: the checks of R111 in their order, the first that fails naming the refusal, then the
resolution of R106. (Once every check has passed the operands always resolve, so the last arm is never
taken; Laws/Encoding.lean proves it.) -/
def decode (v : Variant) (w : Command) : Except Check Instr :=
  if (cwOf w).extractLsb' 16 16 != 0 then .error .cwReserved
  else
    match Op.ofCode ((cwOf w).extractLsb' 0 8) with
    | none => .error .opDefined
    | some o =>
      match o.refusal v ((cwOf w).extractLsb' 8 8) (dstOf w) (srcOf w) with
      | some c => .error c
      | none =>
        match o.build ((cwOf w).extractLsb' 8 8) (Desc.ofBits (dstOf w)) (Desc.ofBits (srcOf w)) with
        | some i => .ok i
        | none => .error .opDefined

/-! ## The encoder -/

/-- The NONE descriptor (R103, R105). -/
def Desc.empty : Desc := { kind := Kind.none.code, sel := 0, offImm := false, off8 := 0, value := 0 }

/-- A descriptor that uses KIND and SEL only (R104, R105). -/
def Desc.ofSel (k : Kind) (sel : BitVec 5) : Desc := { Desc.empty with kind := k.code, sel := sel }

/-- A descriptor that uses KIND and VALUE only (R105). -/
def Desc.ofValue (k : Kind) (value : Word) : Desc := { Desc.empty with kind := k.code, value := value }

/-- A PseudoPointer's descriptor (R102, R104, R105). -/
def Desc.ofPptr (k : Kind) (base : Word) : Offset → Desc
  | .reg x => { Desc.empty with kind := k.code, sel := x.id, value := base }
  | .imm o => { Desc.empty with kind := k.code, offImm := true, off8 := o, value := base }

def Loc8.desc : Loc8 → Desc
  | .reg x => .ofSel .reg8 x.id
  | .ptr s => .ofSel .ptr s.id
  | .pptr base o => .ofPptr .pptr8 base o
  | .mem m => .ofValue .mem8 m

def Val8.desc : Val8 → Desc
  | .loc o => o.desc
  | .imm v => .ofValue .imm8 (v.zeroExtend 16)

def Loc16.desc : Loc16 → Desc
  | .reg x => .ofSel .reg16 x.id
  | .pair p => .ofSel .pair p.id
  | .pptr base o => .ofPptr .pptr16 base o
  | .mem m => .ofValue .mem16 m

def Val16.desc : Val16 → Desc
  | .loc o => o.desc
  | .imm v => .ofValue .imm16 v

/-- The row of R109 an instruction belongs to. -/
def Instr.op : Instr → Op
  | .nop => .nop | .ld8 _ _ => .ld8 | .ld16 _ _ => .ld16 | .push _ => .push | .pop _ => .pop
  | .ex16 _ _ => .ex16 | .exx => .exx
  | .add8 _ _ => .add8 | .adc8 _ _ => .adc8 | .sub8 _ _ => .sub8 | .sbc8 _ _ => .sbc8
  | .and8 _ _ => .and8 | .xor8 _ _ => .xor8 | .or8 _ _ => .or8 | .cp8 _ _ => .cp8
  | .inc8 _ => .inc8 | .dec8 _ => .dec8
  | .neg => .neg | .cpl => .cpl | .daa => .daa | .scf => .scf | .ccf => .ccf
  | .add16 _ _ => .add16 | .adc16 _ _ => .adc16 | .sbc16 _ _ => .sbc16 | .inc16 _ => .inc16 | .dec16 _ => .dec16
  | .addspe _ => .addspe | .ldhlspe _ => .ldhlspe
  | .rlc _ => .rlc | .rrc _ => .rrc | .rl _ => .rl | .rr _ => .rr
  | .sla _ => .sla | .sra _ => .sra | .srl _ => .srl | .swap _ => .swap
  | .rlca => .rlca | .rrca => .rrca | .rla => .rla | .rra => .rra
  | .bit _ _ => .bit | .set _ _ => .set | .res _ _ => .res
  | .jp _ _ => .jp | .jr _ _ => .jr | .call _ _ => .call | .ret _ => .ret | .djnz _ => .djnz

/-- The AUX field (R107). -/
def Instr.aux : Instr → Byte
  | .bit b _ | .set b _ | .res b _ => BitVec.ofNat 8 b.val
  | .jp k _ | .jr k _ | .call k _ | .ret k => k.code
  | .nop | .ld8 _ _ | .ld16 _ _ | .push _ | .pop _ | .ex16 _ _ | .exx
  | .add8 _ _ | .adc8 _ _ | .sub8 _ _ | .sbc8 _ _ | .and8 _ _ | .xor8 _ _ | .or8 _ _ | .cp8 _ _
  | .inc8 _ | .dec8 _ | .neg | .cpl | .daa | .scf | .ccf
  | .add16 _ _ | .adc16 _ _ | .sbc16 _ _ | .inc16 _ | .dec16 _ | .addspe _ | .ldhlspe _
  | .rlc _ | .rrc _ | .rl _ | .rr _ | .sla _ | .sra _ | .srl _ | .swap _ | .rlca | .rrca | .rla | .rra
  | .djnz _ => 0

/-- The DST descriptor. -/
def Instr.dstDesc : Instr → Desc
  | .ld8 d _ | .add8 d _ | .adc8 d _ | .sub8 d _ | .sbc8 d _ | .and8 d _ | .xor8 d _ | .or8 d _ => d.desc
  | .cp8 d _ => d.desc
  | .inc8 d | .dec8 d | .rlc d | .rrc d | .rl d | .rr d | .sla d | .sra d | .srl d | .swap d => d.desc
  | .set _ d | .res _ d => d.desc
  | .ld16 d _ | .pop d | .ex16 d _ | .add16 d _ | .adc16 d _ | .sbc16 d _ | .inc16 d | .dec16 d => d.desc
  | .nop | .push _ | .exx | .neg | .cpl | .daa | .scf | .ccf | .addspe _ | .ldhlspe _
  | .rlca | .rrca | .rla | .rra | .bit _ _ | .jp _ _ | .jr _ _ | .call _ _ | .ret _ | .djnz _ => .empty

/-- The SRC descriptor. -/
def Instr.srcDesc : Instr → Desc
  | .ld8 _ s | .add8 _ s | .adc8 _ s | .sub8 _ s | .sbc8 _ s | .and8 _ s | .xor8 _ s | .or8 _ s => s.desc
  | .cp8 _ s | .addspe s | .ldhlspe s | .bit _ s | .jr _ s | .djnz s => s.desc
  | .ld16 _ s | .push s | .add16 _ s | .adc16 _ s | .sbc16 _ s | .jp _ s | .call _ s => s.desc
  | .ex16 _ s => s.desc
  | .nop | .pop _ | .exx | .inc8 _ | .dec8 _ | .neg | .cpl | .daa | .scf | .ccf | .inc16 _ | .dec16 _
  | .rlc _ | .rrc _ | .rl _ | .rr _ | .sla _ | .sra _ | .srl _ | .swap _ | .rlca | .rrca | .rla | .rra
  | .set _ _ | .res _ _ | .ret _ => .empty

/-- CW (R101). -/
def Instr.cw (i : Instr) : BitVec 32 := (0 : BitVec 16) ++ i.aux ++ i.op.code

/-- The command of an instruction (R100 to R105). -/
def encode (i : Instr) : Command := i.srcDesc.toBits ++ i.dstDesc.toBits ++ i.cw

/-- A command word, destination descriptor and source descriptor as one command: the `CW / DST / SRC` of
95_test_vectors.md. -/
def command (cw : BitVec 32) (dst src : BitVec 64) : Command := src ++ dst ++ cw

/-- The instruction the decoder reads from the bits of spec/opcode_table.json's numbering, the bits from
`nbits` up being 0. `VARIANT` is no part of a command (R114): the Z80's reading is tried first, then the
Game Boy's (log 10). -/
def decodeTableWord (nbits w : Nat) : Option Instr :=
  match decode .z80 (BitVec.ofNat 160 (w % 2 ^ nbits)) with
  | .ok i => some i
  | .error _ =>
    match decode .gb (BitVec.ofNat 160 (w % 2 ^ nbits)) with
    | .ok i => some i
    | .error _ => none

/-! ## Text form (R115) -/

def Op.mnemonic : Op → String
  | .nop => "NOP" | .ld8 => "LD8" | .ld16 => "LD16" | .push => "PUSH" | .pop => "POP" | .ex16 => "EX16" | .exx => "EXX"
  | .add8 => "ADD8" | .adc8 => "ADC8" | .sub8 => "SUB8" | .sbc8 => "SBC8"
  | .and8 => "AND8" | .xor8 => "XOR8" | .or8 => "OR8" | .cp8 => "CP8"
  | .inc8 => "INC8" | .dec8 => "DEC8" | .neg => "NEG" | .cpl => "CPL" | .daa => "DAA" | .scf => "SCF" | .ccf => "CCF"
  | .add16 => "ADD16" | .adc16 => "ADC16" | .sbc16 => "SBC16" | .inc16 => "INC16" | .dec16 => "DEC16"
  | .addspe => "ADDSPE" | .ldhlspe => "LDHLSPE"
  | .rlc => "RLC" | .rrc => "RRC" | .rl => "RL" | .rr => "RR" | .sla => "SLA" | .sra => "SRA" | .srl => "SRL"
  | .swap => "SWAP" | .rlca => "RLCA" | .rrca => "RRCA" | .rla => "RLA" | .rra => "RRA"
  | .bit => "BIT" | .set => "SET" | .res => "RES"
  | .jp => "JP" | .jr => "JR" | .call => "CALL" | .ret => "RET" | .djnz => "DJNZ"

def Reg8.text : Reg8 → String
  | .b => "B" | .c => "C" | .d => "D" | .e => "E" | .h => "H" | .l => "L" | .f => "F" | .a => "A"
  | .b' => "B'" | .c' => "C'" | .d' => "D'" | .e' => "E'" | .h' => "H'" | .l' => "L'" | .f' => "F'" | .a' => "A'"
  | .i => "I" | .r => "R"

def Reg16.text : Reg16 → String
  | .sp => "SP" | .pc => "PC" | .ix => "IX" | .iy => "IY"

def Pair.text : Pair → String
  | .bc => "BC" | .de => "DE" | .hl => "HL" | .af => "AF"
  | .bc' => "BC'" | .de' => "DE'" | .hl' => "HL'" | .af' => "AF'"

def Src16.text : Src16 → String
  | .pair p => p.text
  | .reg x => x.text

/-- A hexadecimal digit in the upper case of R115's examples. -/
def hexDigit (n : BitVec 4) : String :=
  ("0123456789ABCDEF".toList.getD n.toNat '0').toString

def hex8 (v : Byte) : String := hexDigit (v.extractLsb' 4 4) ++ hexDigit (v.extractLsb' 0 4)

def hex16 (v : Word) : String := hex8 (v.extractLsb' 8 8) ++ hex8 (v.extractLsb' 0 8)

def pptrText (base : Word) : Offset → String
  | .reg x => "(0x" ++ hex16 base ++ "+" ++ x.text ++ ")"
  | .imm o => "(0x" ++ hex16 base ++ "+#0x" ++ hex8 o ++ ")"

def Loc8.text : Loc8 → String
  | .reg x => x.text
  | .ptr s => "(" ++ s.text ++ ")"
  | .pptr base o => pptrText base o
  | .mem m => "[0x" ++ hex16 m ++ "]"

def Val8.text : Val8 → String
  | .loc o => o.text
  | .imm v => "#0x" ++ hex8 v

def Loc16.text : Loc16 → String
  | .reg x => x.text
  | .pair p => p.text
  | .pptr base o => pptrText base o
  | .mem m => "[0x" ++ hex16 m ++ "]"

def Val16.text : Val16 → String
  | .loc o => o.text
  | .imm v => "#0x" ++ hex16 v

/-- A condition is omitted when it is condition 0 (R115). -/
def Cond.operand : Cond → List String
  | .always => []
  | .nz => ["NZ"] | .z => ["Z"] | .nc => ["NC"] | .c => ["C"]
  | .po => ["PO"] | .pe => ["PE"] | .p => ["P"] | .m => ["M"]

/-- The operands in the order AUX, DST, SRC, a NONE operand omitted (R115). -/
def Instr.operands : Instr → List String
  | .nop | .exx | .neg | .cpl | .daa | .scf | .ccf | .rlca | .rrca | .rla | .rra => []
  | .ld8 d s | .add8 d s | .adc8 d s | .sub8 d s | .sbc8 d s | .and8 d s | .xor8 d s | .or8 d s => [d.text, s.text]
  | .cp8 d s => [d.text, s.text]
  | .ld16 d s | .add16 d s | .adc16 d s | .sbc16 d s => [d.text, s.text]
  | .ex16 d s => [d.text, s.text]
  | .push s => [s.text]
  | .pop d | .inc16 d | .dec16 d => [d.text]
  | .inc8 d | .dec8 d | .rlc d | .rrc d | .rl d | .rr d | .sla d | .sra d | .srl d | .swap d => [d.text]
  | .addspe s | .ldhlspe s | .djnz s => [s.text]
  | .bit b s => [toString b.val, s.text]
  | .set b d | .res b d => [toString b.val, d.text]
  | .jp k s | .call k s => k.operand ++ [s.text]
  | .jr k s => k.operand ++ [s.text]
  | .ret k => k.operand

/-- R115: `MNEMONIC [aux,] [dst,] [src]`. -/
def Instr.asm (i : Instr) : String :=
  match i.operands with
  | [] => i.op.mnemonic
  | ops => i.op.mnemonic ++ " " ++ String.intercalate ", " ops

end Sys2Proof
end

