-- ==== Sys2Proof/Machine/State.lean ====
section
/-! DEFINITION. The state of the block (spec/10_state.md R43, 60_exceptions.md R306) as plain data, and the
state at construction. -/

namespace Sys2Proof.Machine

/-! ## Registers -/

/-- A Register8 (10_state.md R20). `written = false` is R44's unwritten cell: it "has no value yet", and
its `value` is never read. -/
structure Cell8 where
  value : Byte
  written : Bool
  deriving DecidableEq, Repr

/-- A Register16 (10_state.md R23), written or not (R44). -/
structure Cell16 where
  value : Word
  written : Bool
  deriving DecidableEq, Repr

/-- The Register8 file (10_state.md R21). The Game Boy has the first eight only. -/
structure Regs8 where
  b : Cell8
  c : Cell8
  d : Cell8
  e : Cell8
  h : Cell8
  l : Cell8
  f : Cell8
  a : Cell8
  b' : Cell8
  c' : Cell8
  d' : Cell8
  e' : Cell8
  h' : Cell8
  l' : Cell8
  f' : Cell8
  a' : Cell8
  i : Cell8
  r : Cell8
  deriving DecidableEq, Repr

/-- The Register16 file (10_state.md R23). The Game Boy has SP and PC only. -/
structure Regs16 where
  sp : Cell16
  pc : Cell16
  ix : Cell16
  iy : Cell16
  deriving DecidableEq, Repr

/-! ## Errors -/

/-- Whether an access reads or writes (60_exceptions.md R301). -/
inductive AccessKind where
  | read
  | write
  deriving DecidableEq, Repr

/-- The cell an `Unwritten` error names: "the register id or address" (R301). -/
inductive CellRef where
  | reg8 (x : Reg8)
  | reg16 (x : Reg16)
  | byte (addr : Addr)
  deriving DecidableEq, Repr

/-- The error kinds and the information each carries (60_exceptions.md R301). An error ends a command; it
does not stop the machine (R306). -/
inductive Error where
  | unmappedAddress (addr : Addr) (kind : AccessKind)
  | outOfRange (addr first last : Addr) (kind : AccessKind)
  | illegalCommand (bits : Command) (check : Check)
  | unwritten (cell : CellRef)
  deriving DecidableEq, Repr

/-- The fault record's contents (60_exceptions.md R306): the error value, and the command that raised it. -/
structure FaultRecord where
  error : Error
  command : Command
  deriving DecidableEq, Repr

/-! ## The bus and the driver -/

/-- One byte access delivered to a listener's device (20_memory.md R66, R75, R76). -/
structure BusEvent where
  device : Device
  kind : AccessKind
  addr : Addr
  value : Byte
  deriving DecidableEq, Repr

/-- A memory view's target (20_memory.md R71). -/
inductive ViewTarget where
  | bus
  | block (fb : FlatBlock)
  deriving DecidableEq, Repr

/-- What the driver or host hands the block between commands (70_reset_and_hazards.md R335, R336). Setting PC
(46_control.md R280) is `writeReg16 .pc`. -/
inductive Input where
  | command (bits : Command)
  | readReg8 (x : Reg8)
  | writeReg8 (x : Reg8) (v : Byte)
  | readReg16 (x : Reg16)
  | writeReg16 (x : Reg16) (v : Word)
  | viewRead8 (target : ViewTarget) (base : Addr)
  | viewRead16 (target : ViewTarget) (base : Addr)
  | viewWrite8 (target : ViewTarget) (base : Addr) (v : Byte)
  | viewWrite16 (target : ViewTarget) (base : Addr) (v : Word)
  deriving DecidableEq, Repr

/-- What the block hands its driver: one cycle count or one error per command (40_flag_library.md R167,
70_reset_and_hazards.md R335); and what the host's own accesses give the host, a value or an error, which are
no output of a command (R336, log 8). -/
inductive Output where
  | cycles (n : Nat)
  | error (e : Error)
  | byte (v : Byte)
  | word (v : Word)
  | hostError (e : Error)
  deriving DecidableEq, Repr

/-- Flat-memory bytes as (key, byte) pairs in one canonical form (`Memory.wf`): keys strictly rising. A key
names a byte of a store (`FlatBlock.key`). A byte that is not listed is unwritten (10_state.md R44). -/
abbrev Memory := List Host.Cell

/-! ## The machine -/

/-- The state of the block. -/
structure State where
  /-- The parameters fixed at construction (00_scope.md R5, 70_reset_and_hazards.md R330). -/
  cfg : Config
  /-- R43 (a). -/
  regs8 : Regs8
  /-- R43 (b). -/
  regs16 : Regs16
  /-- The contents of the flat memory blocks (R43). -/
  mem : Memory
  /-- R43 (c), 60_exceptions.md R306. -/
  faultRecord : Option FaultRecord
  /-- Every byte access a device has received and not refused with an error, newest first (20_memory.md R76; one
  that raises UnmappedAddress, OutOfRange or Unwritten is not listed: DESIGN CHOICE, log 17). -/
  busLog : List BusEvent
  /-- Everything handed to the driver, newest first (70_reset_and_hazards.md R335). -/
  outputs : List Output
  /-- What the driver has handed in and the block has not taken yet, next first (the model's own, log 4). -/
  inputs : List Input
  /-- The command being executed (the model's own latch, for R306's record; log 4). -/
  command : Command
  /-- How many free values `draw()` has supplied (the model's own counter, log 5). -/
  draws : Nat
  deriving DecidableEq, Repr

/-- Reasons the machine could stop with a fault. There is none: every error of 60_exceptions.md R301 ends
its command with a next state (R305, R306), and "No operation suspends or blocks" (20_memory.md R93). An
empty type is safe and unsafe of nothing: no step answers a fault. -/
inductive Fault where
  deriving DecidableEq, Repr

/-- Reasons the model gives no meaning. -/
inductive Refusal where
  /-- An instruction without a meaning yet, raised by `exec` (safe). No arm raises it. -/
  | notModelled (mnemonic : String)
  /-- Raised by `step` for a host access to a register the variant does not have (10_state.md R21, R23 say
  only that the id names no register; 70_reset_and_hazards.md R336 gives no effect). Safe: the model
  stops, so no claim about the machine follows. -/
  | hostRegisterAbsent
  deriving DecidableEq, Repr

/-! ## Construction -/

/-- The Register8 values of `State.reset`: the spec gives none (70_reset_and_hazards.md R331). A, F, I and R are
the Z80 values R331 tabulates from general knowledge (PRESUMED), the rest zero (DESIGN CHOICE): log 1.
UNSAFE. -/
def Regs8.reset : Regs8 where
  b := ⟨0x00, true⟩
  c := ⟨0x00, true⟩
  d := ⟨0x00, true⟩
  e := ⟨0x00, true⟩
  h := ⟨0x00, true⟩
  l := ⟨0x00, true⟩
  f := ⟨0xFF, true⟩
  a := ⟨0xFF, true⟩
  b' := ⟨0x00, true⟩
  c' := ⟨0x00, true⟩
  d' := ⟨0x00, true⟩
  e' := ⟨0x00, true⟩
  h' := ⟨0x00, true⟩
  l' := ⟨0x00, true⟩
  f' := ⟨0x00, true⟩
  a' := ⟨0x00, true⟩
  i := ⟨0x00, true⟩
  r := ⟨0x00, true⟩

/-- The Register16 values of `State.reset`: SP and PC from R331's table (PRESUMED), IX and IY zero (DESIGN
CHOICE): log 1. UNSAFE. -/
def Regs16.reset : Regs16 where
  sp := ⟨0xFFFF, true⟩
  pc := ⟨0x0000, true⟩
  ix := ⟨0x0000, true⟩
  iy := ⟨0x0000, true⟩

/-- The machine right after construction (70_reset_and_hazards.md R330, R331): default parameters (log 2), a
`RESET_STATE` that gives every register a value (log 1), every flat-memory byte unwritten, the fault
record empty, nothing handed in or out. -/
def State.reset : State where
  cfg := Config.default
  regs8 := Regs8.reset
  regs16 := Regs16.reset
  mem := []
  faultRecord := none
  busLog := []
  outputs := []
  inputs := []
  command := 0
  draws := 0

end Sys2Proof.Machine
end

