-- ==== Sys2Proof/Machine/Ops.lean ====
section
/-! DEFINITION. The named operations over registers, memory and the bus, and what an error does
(spec/10_state.md, 20_memory.md, 60_exceptions.md R305, R306). -/

namespace Sys2Proof

/-! ## Views and ranges -/

/-- Column "high" of R24. -/
def Pair.high : Pair → Reg8
  | .bc => .b | .de => .d | .hl => .h | .af => .a
  | .bc' => .b' | .de' => .d' | .hl' => .h' | .af' => .a'

/-- Column "low" of R24. -/
def Pair.low : Pair → Reg8
  | .bc => .c | .de => .e | .hl => .l | .af => .f
  | .bc' => .c' | .de' => .e' | .hl' => .l' | .af' => .f'

/-- R65: whether an address lies in a block's window. -/
def FlatBlock.inWindow (fb : FlatBlock) (a : Addr) : Bool := decide (fb.first ≤ a) && decide (a ≤ fb.last)

/-- The key of "byte a − first" of a block's store (R65). -/
def FlatBlock.key (fb : FlatBlock) (a : Addr) : Nat := 65536 * fb.store + (a - fb.first).toNat

/-- R60: both bounds are inclusive, and a listener with first > last owns no address. -/
def Listener.owns (l : Listener) (a : Addr) : Bool := decide (l.first ≤ a) && decide (a ≤ l.last)

end Sys2Proof

namespace Sys2Proof.Machine

/-! ## Register cells (10_state.md R20 to R27, R44) -/

def Regs8.get (g : Regs8) : Reg8 → Cell8
  | .b => g.b | .c => g.c | .d => g.d | .e => g.e | .h => g.h | .l => g.l | .f => g.f | .a => g.a
  | .b' => g.b' | .c' => g.c' | .d' => g.d' | .e' => g.e' | .h' => g.h' | .l' => g.l' | .f' => g.f' | .a' => g.a'
  | .i => g.i | .r => g.r

def Regs8.put (g : Regs8) (x : Reg8) (k : Cell8) : Regs8 :=
  match x with
  | .b => { g with b := k } | .c => { g with c := k } | .d => { g with d := k } | .e => { g with e := k }
  | .h => { g with h := k } | .l => { g with l := k } | .f => { g with f := k } | .a => { g with a := k }
  | .b' => { g with b' := k } | .c' => { g with c' := k } | .d' => { g with d' := k } | .e' => { g with e' := k }
  | .h' => { g with h' := k } | .l' => { g with l' := k } | .f' => { g with f' := k } | .a' => { g with a' := k }
  | .i => { g with i := k } | .r => { g with r := k }

def Regs16.get (g : Regs16) : Reg16 → Cell16
  | .sp => g.sp | .pc => g.pc | .ix => g.ix | .iy => g.iy

def Regs16.put (g : Regs16) (x : Reg16) (k : Cell16) : Regs16 :=
  match x with
  | .sp => { g with sp := k } | .pc => { g with pc := k } | .ix => { g with ix := k } | .iy => { g with iy := k }

/-- The value a Register8 holds. -/
def State.reg8 (s : State) (x : Reg8) : Byte := (s.regs8.get x).value

/-- Whether a Register8 has been written (R44). -/
def State.written8 (s : State) (x : Reg8) : Bool := (s.regs8.get x).written

/-- The value a Register16 holds. -/
def State.reg16 (s : State) (x : Reg16) : Word := (s.regs16.get x).value

/-- Whether a Register16 has been written (R44). -/
def State.written16 (s : State) (x : Reg16) : Bool := (s.regs16.get x).written

/-- What a write of `v` to a Register8 stores: `v` (R20), but for the Game Boy's F under `GB_F_LOW_MASK`,
which stores `v & 0xF0` (R34). -/
def stored8 (cfg : Config) (x : Reg8) (v : Byte) : Byte :=
  if x == .f && cfg.variant == .gb && cfg.gbFLowMask then v &&& 0xF0 else v

/-- Write a Register8; the cell becomes written (R20, R44). -/
def State.setReg8 (s : State) (x : Reg8) (v : Byte) : State :=
  { s with regs8 := s.regs8.put x ⟨stored8 s.cfg x v, true⟩ }

/-- Write a Register16 (R23, R44). -/
def State.setReg16 (s : State) (x : Reg16) (v : Word) : State :=
  { s with regs16 := s.regs16.put x ⟨v, true⟩ }

/-- R25. -/
def State.pair (s : State) (p : Pair) : Word := s.reg8 p.high ++ s.reg8 p.low

/-- Whether both halves of a pair are written (R44). -/
def State.writtenPair (s : State) (p : Pair) : Bool := s.written8 p.high && s.written8 p.low

/-- R26. -/
def State.setPair (s : State) (p : Pair) (w : Word) : State :=
  (s.setReg8 p.high (w.extractLsb' 8 8)).setReg8 p.low (w.extractLsb' 0 8)

/-! ## Flat memory (20_memory.md R65) -/

/-- The byte listed at a key; `none` is an unwritten byte (10_state.md R44). -/
def Memory.read : Memory → Nat → Option Byte
  | [], _ => none
  | (k, v) :: rest, n => if k = n then some v else Memory.read rest n

/-- Write one byte, keeping the keys strictly rising. -/
def Memory.write : Memory → Nat → Byte → Memory
  | [], n, v => [(n, v)]
  | (k, w) :: rest, n, v =>
    if n < k then (n, v) :: (k, w) :: rest
    else if k = n then (n, v) :: rest
    else (k, w) :: Memory.write rest n v

/-- The canonical form: keys strictly rising. (An unlisted byte has no value, so no entry can equal what
an unlisted address reads as.) -/
def Memory.wf : Memory → Bool
  | [] => true
  | [_] => true
  | a :: b :: rest => decide (a.1 < b.1) && Memory.wf (b :: rest)

/-! ## What an error does (60_exceptions.md R305, R306, R311) -/

/-- The cause code (R301). -/
def Error.code : Error → Nat
  | .unmappedAddress _ .read => 1
  | .unmappedAddress _ .write => 2
  | .outOfRange _ _ _ .read => 3
  | .outOfRange _ _ _ .write => 4
  | .illegalCommand _ _ => 5
  | .unwritten _ => 6

/-- Taking an error (R305, R306, R311): everything done before it stays; the error value and the command go
into the fault record, and the error value goes to the driver. Nothing else changes. A later error
overwrites the record (DEDUCED, log 7). There is no return from it (R312). -/
def State.takeError (s : State) (e : Error) (cmd : Command) : State :=
  { s with faultRecord := some { error := e, command := cmd }, outputs := .error e :: s.outputs }

/-- A part of a command: from a state, a value and the state reached, or an error with the state at the
failing access (R305: what was done before stays). -/
abbrev M (α : Type) := EStateM Error State α

/-- `raise E(info)` (00_scope.md R8). -/
def raise {α : Type} (e : Error) : M α := fun s => .error e s

/-- The state a part of a command finds. -/
def getState : M State := fun s => .ok s s

/-- The block reports its cycle count (40_flag_library.md R167). -/
def State.complete (s : State) (before : State) : State :=
  { s with outputs := .cycles (Config.cycles s.command (before, s)) :: s.outputs }

/-- Run a valid command's phases from `s` (40_flag_library.md R160): when they all pass the command reports
its cycles (R167); when an access raises an error the error is taken where it stands (60_exceptions.md
R305). -/
def runCommand (m : M Unit) (s : State) : Host.Outcome State Fault Refusal :=
  match m s with
  | .ok _ t => .next (t.complete s)
  | .error e t => .next (t.takeError e t.command)

/-! ## Free values (00_scope.md R8) -/

/-- `draw()` of a bit. -/
def drawBit : M Bool := fun s => .ok (Config.drawBit s.draws) { s with draws := s.draws + 1 }

/-- `draw()` of a byte. -/
def drawByte : M Byte := fun s => .ok (Config.drawByte s.draws) { s with draws := s.draws + 1 }

/-! ## Register access with R44's check -/

/-- `R8[x]` (R20, R44). -/
def readReg8 (x : Reg8) : M Byte := fun s =>
  if s.written8 x then .ok (s.reg8 x) s else .error (.unwritten (.reg8 x)) s

/-- `R8[x] <- v` (R20). -/
def writeReg8 (x : Reg8) (v : Byte) : M Unit := fun s => .ok () (s.setReg8 x v)

/-- `R16[x]` (R23, R44). -/
def readReg16 (x : Reg16) : M Word := fun s =>
  if s.written16 x then .ok (s.reg16 x) s else .error (.unwritten (.reg16 x)) s

/-- `R16[x] <- v` (R23). -/
def writeReg16 (x : Reg16) (v : Word) : M Unit := fun s => .ok () (s.setReg16 x v)

/-- `PAIR[p]` (R25, R44). The high half is read first (DEDUCED, log 12). -/
def readPair (p : Pair) : M Word := do
  let hi ← readReg8 p.high
  let lo ← readReg8 p.low
  return hi ++ lo

/-- `PAIR[p] <- w` (R26). -/
def writePair (p : Pair) (w : Word) : M Unit := fun s => .ok () (s.setPair p w)

/-! ## The data bus (20_memory.md R60 to R70) -/

/-- R61: the first listener in list order that owns the address. -/
def route (ls : List Listener) (a : Addr) : Option Listener := ls.find? (fun l => l.owns a)

/-- R65: a flat block's `read(a)`; an unwritten byte raises `Unwritten` (10_state.md R44). -/
def flatRead (fb : FlatBlock) (a : Addr) : M Byte := fun s =>
  if fb.inWindow a then
    match Memory.read s.mem (fb.key a) with
    | some v => .ok v s
    | none => .error (.unwritten (.byte a)) s
  else .error (.outOfRange a fb.first fb.last .read) s

/-- R65: a flat block's `write(a, v)`. -/
def flatWrite (fb : FlatBlock) (a : Addr) (v : Byte) : M Unit := fun s =>
  if fb.inWindow a then .ok () { s with mem := Memory.write s.mem (fb.key a) v }
  else .error (.outOfRange a fb.first fb.last .write) s

/-- A device's `read(a)` (R64 to R66): a peripheral answers a free value. -/
def deviceRead (d : Device) (a : Addr) : M Byte :=
  match d with
  | .flat fb => flatRead fb a
  | .peripheral _ => drawByte

/-- A device's `write(a, v)` (R64 to R66): a peripheral's write has no effect the block can see. -/
def deviceWrite (d : Device) (a : Addr) (v : Byte) : M Unit :=
  match d with
  | .flat fb => flatWrite fb a v
  | .peripheral _ => pure ()

/-- The access reached its device and succeeded (R66, R75, R76). -/
def logEvent (ev : BusEvent) : M Unit := fun s => .ok () { s with busLog := ev :: s.busLog }

/-- `BusRead8(a)` (R62). An access that raises an error, with no owner or refused by its device, is not logged (DESIGN
CHOICE, log 17). -/
def busRead8 (a : Addr) : M Byte := do
  let s ← getState
  match route s.cfg.listeners a with
  | none => raise (.unmappedAddress a .read)
  | some l =>
    let v ← deviceRead l.device a
    logEvent { device := l.device, kind := .read, addr := a, value := v }
    return v

/-- `BusWrite8(a, v)` (R63); logged as `busRead8` is (DESIGN CHOICE, log 17). -/
def busWrite8 (a : Addr) (v : Byte) : M Unit := do
  let s ← getState
  match route s.cfg.listeners a with
  | none => raise (.unmappedAddress a .write)
  | some l =>
    deviceWrite l.device a v
    logEvent { device := l.device, kind := .write, addr := a, value := v }

/-- `MemRead(a, 2)` (R67): the low byte at a, then the high byte at (a + 1) mod 2^16, each routed on its own
(R68, R69). -/
def memRead16 (a : Addr) : M Word := do
  let lo ← busRead8 a
  let hi ← busRead8 (a + 1)
  return hi ++ lo

/-- `MemWrite(a, 2, v)` (R67). -/
def memWrite16 (a : Addr) (v : Word) : M Unit := do
  busWrite8 a (v.extractLsb' 0 8)
  busWrite8 (a + 1) (v.extractLsb' 8 8)

/-- The flat-memory key a byte write at a bus address sets: none where no listener owns the address, the
device is a peripheral, or the window does not hold it (R61, R65, R66). -/
def State.storeKey (s : State) (a : Addr) : Option Nat :=
  match route s.cfg.listeners a with
  | some { first := _, last := _, device := .flat fb } =>
    if fb.inWindow a then some (fb.key a) else none
  | _ => none

/-- The flat-memory byte a bus address reads (R62, R65), `none` where it reads no written flat byte. -/
def State.byteAt (s : State) (a : Addr) : Option Byte :=
  match s.storeKey a with
  | some k => Memory.read s.mem k
  | none => none

end Sys2Proof.Machine
end

