-- ==== Sys2Proof/Machine/Operands.lean ====
section
/-! DEFINITION. Operand resolution: every addressing mode (spec/20_memory.md R80 to R91, spec/30_encoding.md R106). -/

namespace Sys2Proof.Machine

/-- `sext_16` (00_scope.md R7). -/
def sext16 (v : Byte) : Word := v.signExtend 16

/-- R83's address from a base and an offset byte: 16-bit wraparound, no failure. -/
def pseudoAddr (base : Word) (off : Byte) : Addr := base + sext16 off

/-! ## Values and addresses a state gives (no access made) -/

/-- The 16-bit value of a Pointer's source (R82). -/
def State.src16 (s : State) : Src16 → Word
  | .pair p => s.pair p
  | .reg x => s.reg16 x

/-- The offset byte of a PseudoPointer (R86). -/
def State.offset (s : State) : Offset → Byte
  | .reg x => s.reg8 x
  | .imm v => v

/-- The address an 8-bit operand accesses in a state (R82, R83, R87); `none` for a register. -/
def State.addr8 (s : State) : Loc8 → Option Addr
  | .reg _ => none
  | .ptr p => some (s.src16 p)
  | .pptr base o => some (pseudoAddr base (s.offset o))
  | .mem m => some m

/-- The address of the low byte of a 16-bit operand in a state (R83, R87); `none` for a register or pair.
The high byte is at the next address, mod 2^16 (R67). -/
def State.addr16 (s : State) : Loc16 → Option Addr
  | .reg _ => none
  | .pair _ => none
  | .pptr base o => some (pseudoAddr base (s.offset o))
  | .mem m => some m

/-! ## Access -/

/-- A Pointer's source, read at each access (R82). -/
def readSrc16 : Src16 → M Word
  | .pair p => readPair p
  | .reg x => readReg16 x

/-- A PseudoPointer's offset, read at each access (R83, R86). -/
def readOffset : Offset → M Byte
  | .reg x => readReg8 x
  | .imm v => pure v

/-- `ea` of R83. -/
def pseudoEa (base : Word) (o : Offset) : M Addr := do
  let off ← readOffset o
  return pseudoAddr base off

/-- `Read8(o)` for class W8 (R81, R82, R84, R87). -/
def readLoc8 : Loc8 → M Byte
  | .reg x => readReg8 x
  | .ptr p => do
    let a ← readSrc16 p
    busRead8 a
  | .pptr base o => do
    let a ← pseudoEa base o
    busRead8 a
  | .mem m => busRead8 m

/-- `Write8(o, v)` (R81, R82, R84, R87). -/
def writeLoc8 (o : Loc8) (v : Byte) : M Unit :=
  match o with
  | .reg x => writeReg8 x v
  | .ptr p => do
    let a ← readSrc16 p
    busWrite8 a v
  | .pptr base off => do
    let a ← pseudoEa base off
    busWrite8 a v
  | .mem m => busWrite8 m v

/-- `Read8(o)` for class R8 (R81 to R88). -/
def readVal8 : Val8 → M Byte
  | .loc o => readLoc8 o
  | .imm v => pure v

/-- `Read16(o)` for class W16 (R81, R85, R87). -/
def readLoc16 : Loc16 → M Word
  | .reg x => readReg16 x
  | .pair p => readPair p
  | .pptr base o => do
    let a ← pseudoEa base o
    memRead16 a
  | .mem m => memRead16 m

/-- `Write16(o, v)` (R81, R85, R87). -/
def writeLoc16 (o : Loc16) (v : Word) : M Unit :=
  match o with
  | .reg x => writeReg16 x v
  | .pair p => writePair p v
  | .pptr base off => do
    let a ← pseudoEa base off
    memWrite16 a v
  | .mem m => memWrite16 m v

/-- `Read16(o)` for class R16 (R81, R85, R87, R88). -/
def readVal16 : Val16 → M Word
  | .loc o => readLoc16 o
  | .imm v => pure v

/-! ## The stack (41_transfer.md R183, R184; full descending, 92_eei_decisions.md D39) -/

/-- `sp <- SP - 2; SP <- sp; MemWrite(sp, 2, v)`. -/
def push16 (v : Word) : M Unit := do
  let sp ← readReg16 .sp
  writeReg16 .sp (sp - 2)
  memWrite16 (sp - 2) v

/-- `sp <- SP; v <- MemRead(sp, 2); SP <- sp + 2`. -/
def pop16 : M Word := do
  let sp ← readReg16 .sp
  let v ← memRead16 sp
  writeReg16 .sp (sp + 2)
  return v

end Sys2Proof.Machine
end

