-- ==== Sys2Proof/Machine/Flags.lean ====
section
/-! DEFINITION. The flag-condition library, the Flag views and the flag phase
(spec/40_flag_library.md R140 to R166, spec/10_state.md R28 to R35). -/

namespace Sys2Proof.Machine

/-! ## The flag-condition library: pure functions (R140 to R154, R159) -/

/-- `n(v)`: the low nibble as a number. -/
def lowNibble (v : Byte) : Nat := (v &&& 0x0F).toNat

/-- `t(v)`: the low twelve bits as a number. -/
def low12 (v : Word) : Nat := (v &&& 0x0FFF).toNat

/-- R140. -/
def isNegative8 (v : Byte) : Bool := v.getLsbD 7

/-- R140. -/
def isNegative16 (v : Word) : Bool := v.getLsbD 15

/-- R141, for a u8. -/
def isZero8 (v : Byte) : Bool := v == 0

/-- R141, for a u16. -/
def isZero16 (v : Word) : Bool := v == 0

/-- The number of set bits of a byte. -/
def setBits (v : Byte) : Nat :=
  bit (v.getLsbD 0) + bit (v.getLsbD 1) + bit (v.getLsbD 2) + bit (v.getLsbD 3) +
    bit (v.getLsbD 4) + bit (v.getLsbD 5) + bit (v.getLsbD 6) + bit (v.getLsbD 7)

/-- R142: true exactly when the number of set bits is even. -/
def parity (v : Byte) : Bool := setBits v % 2 == 0

/-- R143. -/
def addOverflow (op1 op2 r : Byte) : Bool :=
  (isNegative8 op1 && isNegative8 op2 && !isNegative8 r) || (!isNegative8 op1 && !isNegative8 op2 && isNegative8 r)

/-- R144. -/
def subOverflow (op1 op2 r : Byte) : Bool :=
  (isNegative8 op1 && !isNegative8 op2 && !isNegative8 r) || (!isNegative8 op1 && isNegative8 op2 && isNegative8 r)

/-- R145. -/
def addHalfCarry8 (op1 op2 : Byte) : Bool := decide (lowNibble op1 + lowNibble op2 ≥ 0x10)

/-- R146, the three-operand form under `HC8_CARRY_COMBINE`. -/
def addHalfCarry8c (combine : HcCombine) (op1 op2 : Byte) (c : Bool) : Bool :=
  match combine with
  | .or => decide ((lowNibble op1 + lowNibble op2) ||| bit c ≥ 0x10)
  | .add => decide (lowNibble op1 + lowNibble op2 + bit c ≥ 0x10)

/-- R147, with `HC16_THRESHOLD`. -/
def addHalfCarry16 (threshold : Word) (op1 op2 : Word) : Bool :=
  decide (low12 op1 + low12 op2 ≥ threshold.toNat)

/-- R148: the low nibbles of both operands. -/
def addHalfCarry16_8 (op1 : Word) (op2 : Byte) : Bool :=
  decide ((op1 &&& 0x000F).toNat + lowNibble op2 ≥ 0x10)

/-- R149, two operands. -/
def addCarry8 (op1 op2 : Byte) : Bool := decide (op1.toNat + op2.toNat > 0xFF)

/-- R149, three operands. -/
def addCarry8c (op1 op2 : Byte) (c : Bool) : Bool := decide (op1.toNat + op2.toNat + bit c > 0xFF)

/-- R150, two operands. -/
def addCarry16 (op1 op2 : Word) : Bool := decide (op1.toNat + op2.toNat > 0xFFFF)

/-- R150, three operands. -/
def addCarry16c (op1 op2 : Word) (c : Bool) : Bool := decide (op1.toNat + op2.toNat + bit c > 0xFFFF)

/-- R151: the carry out of bit 7 of the low-byte sum. -/
def addCarry16_8 (op1 : Word) (op2 : Byte) : Bool := decide ((op1 &&& 0x00FF).toNat + op2.toNat > 0xFF)

/-- R152, two operands. -/
def subHalfBorrow (op1 op2 : Byte) : Bool := decide (lowNibble op1 < lowNibble op2)

/-- R152, three operands. -/
def subHalfBorrowC (op1 op2 : Byte) (c : Bool) : Bool := decide (lowNibble op1 < lowNibble op2 + bit c)

/-- R153, two operands. -/
def subBorrow (op1 op2 : Byte) : Bool := decide (op1.toNat < op2.toNat)

/-- R153, three operands. -/
def subBorrowC (op1 op2 : Byte) (c : Bool) : Bool := decide (op1.toNat < op2.toNat + bit c)

/-- R154. -/
def addOverflow16 (op1 op2 r : Word) : Bool :=
  (isNegative16 op1 && isNegative16 op2 && !isNegative16 r) ||
    (!isNegative16 op1 && !isNegative16 op2 && isNegative16 r)

/-- R154. -/
def subOverflow16 (op1 op2 r : Word) : Bool :=
  (isNegative16 op1 && !isNegative16 op2 && !isNegative16 r) ||
    (!isNegative16 op1 && isNegative16 op2 && isNegative16 r)

/-- R154, three operands. -/
def addHalfCarry16c (threshold : Word) (op1 op2 : Word) (c : Bool) : Bool :=
  decide (low12 op1 + low12 op2 + bit c ≥ threshold.toNat)

/-- R154. -/
def subHalfBorrow16 (op1 op2 : Word) (c : Bool) : Bool := decide (low12 op1 < low12 op2 + bit c)

/-- R154. -/
def subBorrow16 (op1 op2 : Word) (c : Bool) : Bool := decide (op1.toNat < op2.toNat + bit c)

/-! ## Shift and rotate primitives (R155 to R158) -/

/-- R155. -/
def shiftLeft (x : Byte) : Byte := x <<< 1

/-- R156. -/
def logicalShiftRight (x : Byte) : Byte := x >>> 1

/-- R157. -/
def arithmeticShiftRight (x : Byte) : Byte := (x >>> 1) ||| (x &&& 0x80)

/-- R158. -/
def rotateLeft (x : Byte) : Byte := (x <<< 1) ||| (x >>> 7)

/-- R158. -/
def rotateRight (x : Byte) : Byte := (x >>> 1) ||| ((x &&& 1) <<< 7)

/-! ## Flag views (10_state.md R28 to R32) -/

/-- The flags (R31, R32). `s` and `pv` exist on the Z80 only. -/
inductive Flag where
  | s | z | h | pv | n | c
  deriving DecidableEq, Repr

/-- The bit of F a flag's view is bound to (R31, R32). -/
def flagBit : Variant → Flag → Option Nat
  | .z80, .s => some 7
  | .z80, .z => some 6
  | .z80, .h => some 4
  | .z80, .pv => some 2
  | .z80, .n => some 1
  | .z80, .c => some 0
  | .gb, .z => some 7
  | .gb, .n => some 6
  | .gb, .h => some 5
  | .gb, .c => some 4
  | .gb, .s => none
  | .gb, .pv => none

/-- R29. -/
def flagRead (v : Byte) (n : Nat) : Bool := v.getLsbD n

/-- R30: both branches keep every other bit. -/
def flagWrite (v : Byte) (n : Nat) (b : Bool) : Byte :=
  if b then v ||| ((1 : Byte) <<< n) else v &&& ~~~((1 : Byte) <<< n)

/-- The value of a flag in a byte of F; a flag the variant lacks reads false (no valid command reads one,
30_encoding.md R107). -/
def flagOf (v : Variant) (f : Flag) (byte : Byte) : Bool :=
  match flagBit v f with
  | some n => flagRead byte n
  | none => false

/-- The value of a flag in a state. -/
def State.flag (s : State) (f : Flag) : Bool := flagOf s.cfg.variant f (s.reg8 .f)

/-- `flag(X)`: a read of F through the Flag view (R29, R44). -/
def readFlag (f : Flag) : M Bool := do
  let v ← readReg8 .f
  let s ← getState
  return flagOf s.cfg.variant f v

/-! ## The flag phase (40_flag_library.md R160 (d), R163 to R165) -/

/-- The flags a rule writes: `none` is R9's "unaffected". -/
structure FlagUpdate where
  s : Option Bool := none
  z : Option Bool := none
  h : Option Bool := none
  pv : Option Bool := none
  n : Option Bool := none
  c : Option Bool := none
  deriving DecidableEq, Repr

/-- One declared flag written through its view (R30, R164). -/
def flagWrite? (v : Variant) (f : Flag) (b : Option Bool) (byte : Byte) : Byte :=
  match flagBit v f, b with
  | some n, some b => flagWrite byte n b
  | _, _ => byte

/-- Every declared flag written through its view; the order does not matter (R164). -/
def FlagUpdate.apply (u : FlagUpdate) (v : Variant) (byte : Byte) : Byte :=
  flagWrite? v .c u.c <| flagWrite? v .n u.n <| flagWrite? v .pv u.pv <|
    flagWrite? v .h u.h <| flagWrite? v .z u.z <| flagWrite? v .s u.s byte

/-- Z80 bits Y (5) and X (3) after a command that writes a flag (10_state.md R33): under `Draw` each takes a
free value, under `Preserve` each keeps its own. The Game Boy has no such bits. -/
def settleXY (byte : Byte) : M Byte := do
  let s ← getState
  match s.cfg.variant, s.cfg.xyPolicy with
  | .z80, .draw =>
    let y ← drawBit
    let x ← drawBit
    return flagWrite (flagWrite byte 5 y) 3 x
  | .z80, .preserve => return byte
  | .gb, _ => return byte

/-- Phase (d) with the flags one variant's rule declares: the views' read-modify-writes of F (R164, R165),
then Y and X. A rule that declares no flag skips the phase (R160). -/
def writeFlagSet (u : FlagUpdate) : M Unit :=
  if u = {} then pure ()
  else do
    let f ← readReg8 .f
    let s ← getState
    let f' ← settleXY (u.apply s.cfg.variant f)
    writeReg8 .f f'

/-- Phase (d): the flags of the rule's "Z80 flags" or "GB flags" line, by `VARIANT` (R163). -/
def writeFlags (z80 gb : FlagUpdate) : M Unit := do
  let s ← getState
  match s.cfg.variant with
  | .z80 => writeFlagSet z80
  | .gb => writeFlagSet gb

/-- What phases (b) and (d) of an 8-bit operation compute: the result, and the flags per variant. -/
structure Effect8 where
  result : Byte
  z80 : FlagUpdate
  gb : FlagUpdate
  deriving DecidableEq, Repr

/-- The same for a 16-bit operation. -/
structure Effect16 where
  result : Word
  z80 : FlagUpdate
  gb : FlagUpdate
  deriving DecidableEq, Repr

end Sys2Proof.Machine
end

