-- ==== Sys2Proof/Machine/Alu16.lean ====
section
/-! DEFINITION. 16-bit arithmetic (spec/43_alu16.md R230 to R236). -/

namespace Sys2Proof.Machine

/-! ## The four phases, by operand shape -/

/-- DST and SRC are read, DST takes the result, the flags are written. -/
def binary16 (f : Word → Word → Effect16) (dst : Loc16) (src : Val16) : M Unit := do
  let a ← readLoc16 dst
  let b ← readVal16 src
  writeLoc16 dst (f a b).result
  writeFlags (f a b).z80 (f a b).gb

/-- As `binary16`, with the Carry flag read in phase (a). -/
def binary16c (f : Word → Word → Bool → Effect16) (dst : Loc16) (src : Val16) : M Unit := do
  let a ← readLoc16 dst
  let b ← readVal16 src
  let c ← readFlag .c
  writeLoc16 dst (f a b c).result
  writeFlags (f a b c).z80 (f a b c).gb

/-- DST is read and takes the result; no flags. -/
def unary16 (f : Word → Word) (dst : Loc16) : M Unit := do
  let a ← readLoc16 dst
  writeLoc16 dst (f a)

/-! ## Results and flags -/

/-- R230: S, Z and PV are unaffected. -/
def add16 (threshold : Word) (a b : Word) : Effect16 :=
  { result := a + b
    z80 := { h := some (addHalfCarry16 threshold a b), n := some false, c := some (addCarry16 a b) }
    gb := { n := some false, h := some (addHalfCarry16 threshold a b), c := some (addCarry16 a b) } }

/-- R231: no Game Boy flags (the operation does not exist there). -/
def adc16 (threshold : Word) (a b : Word) (c : Bool) : Effect16 :=
  let r := a + b + BitVec.ofNat 16 (bit c)
  { result := r
    z80 := { s := some (isNegative16 r), z := some (isZero16 r), h := some (addHalfCarry16c threshold a b c),
             pv := some (addOverflow16 a b r), n := some false, c := some (addCarry16c a b c) }
    gb := {} }

/-- R232: no Game Boy flags (the operation does not exist there). -/
def sbc16 (a b : Word) (c : Bool) : Effect16 :=
  let r := a - b - BitVec.ofNat 16 (bit c)
  { result := r
    z80 := { s := some (isNegative16 r), z := some (isZero16 r), h := some (subHalfBorrow16 a b c),
             pv := some (subOverflow16 a b r), n := some true, c := some (subBorrow16 a b c) }
    gb := {} }

/-- R235, R236: SP plus a signed byte; no Z80 flags (the operations do not exist there). -/
def addSigned (sp : Word) (e : Byte) : Effect16 :=
  { result := sp + sext16 e
    z80 := {}
    gb := { z := some false, n := some false, h := some (addHalfCarry16_8 sp e), c := some (addCarry16_8 sp e) } }

/-! ## The meanings -/

/-- R230. -/
def execAdd16 (dst : Loc16) (src : Val16) (s : State) : Host.Outcome State Fault Refusal :=
  runCommand (binary16 (add16 s.cfg.hc16Threshold) dst src) s

/-- R231. -/
def execAdc16 (dst : Loc16) (src : Val16) (s : State) : Host.Outcome State Fault Refusal :=
  runCommand (binary16c (adc16 s.cfg.hc16Threshold) dst src) s

/-- R232. -/
def execSbc16 (dst : Loc16) (src : Val16) (s : State) : Host.Outcome State Fault Refusal :=
  runCommand (binary16c sbc16 dst src) s

/-- R233. -/
def execInc16 (dst : Loc16) (s : State) : Host.Outcome State Fault Refusal :=
  runCommand (unary16 (fun a => a + 1) dst) s

/-- R234. -/
def execDec16 (dst : Loc16) (s : State) : Host.Outcome State Fault Refusal :=
  runCommand (unary16 (fun a => a - 1) dst) s

/-- R235: SP is implicit. -/
def execAddspe (src : Val8) (s : State) : Host.Outcome State Fault Refusal :=
  runCommand (do
    let e ← readVal8 src
    let sp ← readReg16 .sp
    writeReg16 .sp (addSigned sp e).result
    writeFlags (addSigned sp e).z80 (addSigned sp e).gb) s

/-- R236: SP is read, HL is written. -/
def execLdhlspe (src : Val8) (s : State) : Host.Outcome State Fault Refusal :=
  runCommand (do
    let e ← readVal8 src
    let sp ← readReg16 .sp
    writePair .hl (addSigned sp e).result
    writeFlags (addSigned sp e).z80 (addSigned sp e).gb) s

end Sys2Proof.Machine
end

