-- ==== Sys2Proof/Machine/Alu8.lean ====
section
/-! DEFINITION. 8-bit arithmetic and logic (spec/42_alu8.md R200 to R214). Each operation is a pure function that
gives the result and the flags, run by one of the phase shapes below (spec/40_flag_library.md R160 to R162). -/

namespace Sys2Proof.Machine

/-! ## The four phases, by operand shape -/

/-- DST and SRC are read, DST takes the result, the flags are written. -/
def binary8 (f : Byte → Byte → Effect8) (dst : Loc8) (src : Val8) : M Unit := do
  let a ← readLoc8 dst
  let b ← readVal8 src
  writeLoc8 dst (f a b).result
  writeFlags (f a b).z80 (f a b).gb

/-- As `binary8`, with the Carry flag read in phase (a) (R162). -/
def binary8c (f : Byte → Byte → Bool → Effect8) (dst : Loc8) (src : Val8) : M Unit := do
  let a ← readLoc8 dst
  let b ← readVal8 src
  let c ← readFlag .c
  writeLoc8 dst (f a b c).result
  writeFlags (f a b c).z80 (f a b c).gb

/-- DST is read and takes the result. -/
def unary8 (f : Byte → Effect8) (dst : Loc8) : M Unit := do
  let a ← readLoc8 dst
  writeLoc8 dst (f a).result
  writeFlags (f a).z80 (f a).gb

/-- As `unary8`, with the Carry flag read in phase (a). -/
def unary8c (f : Byte → Bool → Effect8) (dst : Loc8) : M Unit := do
  let a ← readLoc8 dst
  let c ← readFlag .c
  writeLoc8 dst (f a c).result
  writeFlags (f a c).z80 (f a c).gb

/-! ## Results and flags -/

/-- R200. -/
def add8 (a b : Byte) : Effect8 :=
  let r := a + b
  { result := r
    z80 := { s := some (isNegative8 r), z := some (isZero8 r), h := some (addHalfCarry8 a b),
             pv := some (addOverflow a b r), n := some false, c := some (addCarry8 a b) }
    gb := { z := some (isZero8 r), n := some false, h := some (addHalfCarry8 a b), c := some (addCarry8 a b) } }

/-- R201. -/
def adc8 (combine : HcCombine) (a b : Byte) (c : Bool) : Effect8 :=
  let r := a + b + BitVec.ofNat 8 (bit c)
  { result := r
    z80 := { s := some (isNegative8 r), z := some (isZero8 r), h := some (addHalfCarry8c combine a b c),
             pv := some (addOverflow a b r), n := some false, c := some (addCarry8c a b c) }
    gb := { z := some (isZero8 r), n := some false, h := some (addHalfCarry8c combine a b c),
            c := some (addCarry8c a b c) } }

/-- R202. -/
def sub8 (a b : Byte) : Effect8 :=
  let r := a - b
  { result := r
    z80 := { s := some (isNegative8 r), z := some (isZero8 r), h := some (subHalfBorrow a b),
             pv := some (subOverflow a b r), n := some true, c := some (subBorrow a b) }
    gb := { z := some (isZero8 r), n := some true, h := some (subHalfBorrow a b), c := some (subBorrow a b) } }

/-- R203. -/
def sbc8 (a b : Byte) (c : Bool) : Effect8 :=
  let r := a - b - BitVec.ofNat 8 (bit c)
  { result := r
    z80 := { s := some (isNegative8 r), z := some (isZero8 r), h := some (subHalfBorrowC a b c),
             pv := some (subOverflow a b r), n := some true, c := some (subBorrowC a b c) }
    gb := { z := some (isZero8 r), n := some true, h := some (subHalfBorrowC a b c),
            c := some (subBorrowC a b c) } }

/-- The flags the logic operations share: H is the operation's constant (R204 to R206). -/
def logic8 (r : Byte) (h : Bool) : Effect8 :=
  { result := r
    z80 := { s := some (isNegative8 r), z := some (isZero8 r), h := some h, pv := some (parity r),
             n := some false, c := some false }
    gb := { z := some (isZero8 r), n := some false, h := some h, c := some false } }

/-- R204. -/
def and8 (a b : Byte) : Effect8 := logic8 (a &&& b) true

/-- R205. -/
def xor8 (a b : Byte) : Effect8 := logic8 (a ^^^ b) false

/-- R206. -/
def or8 (a b : Byte) : Effect8 := logic8 (a ||| b) false

/-- R208. -/
def inc8 (a : Byte) : Effect8 :=
  let r := a + 1
  { result := r
    z80 := { s := some (isNegative8 r), z := some (isZero8 r), h := some (addHalfCarry8 a 1),
             pv := some (addOverflow a 1 r), n := some false }
    gb := { z := some (isZero8 r), n := some false, h := some (addHalfCarry8 a 1) } }

/-- R209. -/
def dec8 (a : Byte) : Effect8 :=
  let r := a - 1
  { result := r
    z80 := { s := some (isNegative8 r), z := some (isZero8 r), h := some (subHalfBorrow a 1),
             pv := some (subOverflow a 1 r), n := some true }
    gb := { z := some (isZero8 r), n := some true, h := some (subHalfBorrow a 1) } }

/-- R210: no Game Boy flags (the operation does not exist there). -/
def neg8 (a : Byte) : Effect8 :=
  let r := 0 - a
  { result := r
    z80 := { s := some (isNegative8 r), z := some (isZero8 r), h := some (subHalfBorrow 0 a),
             pv := some (subOverflow 0 a r), n := some true, c := some (subBorrow 0 a) }
    gb := {} }

/-- R211. -/
def cpl8 (a : Byte) : Effect8 :=
  { result := a ^^^ 0xFF
    z80 := { h := some true, n := some true }
    gb := { n := some true, h := some true } }

/-- R212, the `VARIANT = Z80` pseudocode: the result, the carry c2 and the half-carry h2. -/
def daaZ80 (a : Byte) (n h c : Bool) : Byte × Bool × Bool :=
  let lo := lowNibble a
  let low6 := h || decide (lo > 9)
  let high6 := c || decide (a.toNat > 0x99)
  let diff : Byte := (if low6 then 0x06 else 0) ||| (if high6 then 0x60 else 0)
  let c2 := c || high6
  if n then (a - diff, c2, h && decide (lo < 6))
  else (a + diff, c2, decide (lo > 9))

/-- R212, the `VARIANT = GB` pseudocode: the result and the carry c2. -/
def daaGb (a : Byte) (n h c : Bool) : Byte × Bool :=
  if n then
    let r := if c then a - 0x60 else a
    let r := if h then r - 0x06 else r
    (r, c)
  else
    let high6 := c || decide (a.toNat > 0x99)
    let r := if high6 then a + 0x60 else a
    let r := if h || decide (lowNibble r > 9) then r + 0x06 else r
    (r, c || high6)

/-- R212: N is unaffected; the result depends on the variant. -/
def daa8 (v : Variant) (a : Byte) (n h c : Bool) : Effect8 :=
  match v with
  | .z80 =>
    let d := daaZ80 a n h c
    { result := d.1
      z80 := { s := some (isNegative8 d.1), z := some (isZero8 d.1), h := some d.2.2, pv := some (parity d.1),
               c := some d.2.1 }
      gb := {} }
  | .gb =>
    let d := daaGb a n h c
    { result := d.1
      z80 := {}
      gb := { z := some (isZero8 d.1), h := some false, c := some d.2 } }

/-! ## The meanings -/

/-- R200. -/
def execAdd8 (dst : Loc8) (src : Val8) (s : State) : Host.Outcome State Fault Refusal :=
  runCommand (binary8 add8 dst src) s

/-- R201. -/
def execAdc8 (dst : Loc8) (src : Val8) (s : State) : Host.Outcome State Fault Refusal :=
  runCommand (binary8c (adc8 s.cfg.hc8Combine) dst src) s

/-- R202. -/
def execSub8 (dst : Loc8) (src : Val8) (s : State) : Host.Outcome State Fault Refusal :=
  runCommand (binary8 sub8 dst src) s

/-- R203. -/
def execSbc8 (dst : Loc8) (src : Val8) (s : State) : Host.Outcome State Fault Refusal :=
  runCommand (binary8c sbc8 dst src) s

/-- R204. -/
def execAnd8 (dst : Loc8) (src : Val8) (s : State) : Host.Outcome State Fault Refusal :=
  runCommand (binary8 and8 dst src) s

/-- R205. -/
def execXor8 (dst : Loc8) (src : Val8) (s : State) : Host.Outcome State Fault Refusal :=
  runCommand (binary8 xor8 dst src) s

/-- R206. -/
def execOr8 (dst : Loc8) (src : Val8) (s : State) : Host.Outcome State Fault Refusal :=
  runCommand (binary8 or8 dst src) s

/-- R207: SUB8's flags, no write of the difference. -/
def execCp8 (dst src : Val8) (s : State) : Host.Outcome State Fault Refusal :=
  runCommand (do
    let a ← readVal8 dst
    let b ← readVal8 src
    writeFlags (sub8 a b).z80 (sub8 a b).gb) s

/-- R208. -/
def execInc8 (dst : Loc8) (s : State) : Host.Outcome State Fault Refusal :=
  runCommand (unary8 inc8 dst) s

/-- R209. -/
def execDec8 (dst : Loc8) (s : State) : Host.Outcome State Fault Refusal :=
  runCommand (unary8 dec8 dst) s

/-- R210: A is implicit. -/
def execNeg (s : State) : Host.Outcome State Fault Refusal :=
  runCommand (unary8 neg8 (.reg .a)) s

/-- R211: A is implicit. -/
def execCpl (s : State) : Host.Outcome State Fault Refusal :=
  runCommand (unary8 cpl8 (.reg .a)) s

/-- R212: A, N, H and C are implicit inputs. -/
def execDaa (s : State) : Host.Outcome State Fault Refusal :=
  runCommand (do
    let a ← readReg8 .a
    let n ← readFlag .n
    let h ← readFlag .h
    let c ← readFlag .c
    let e := daa8 s.cfg.variant a n h c
    writeReg8 .a e.result
    writeFlags e.z80 e.gb) s

/-- R213. -/
def execScf (s : State) : Host.Outcome State Fault Refusal :=
  runCommand (writeFlags { h := some false, n := some false, c := some true }
    { n := some false, h := some false, c := some true }) s

/-- R214: H is the old carry on the Z80, 0 on the Game Boy. -/
def execCcf (s : State) : Host.Outcome State Fault Refusal :=
  runCommand (do
    let c ← readFlag .c
    writeFlags { h := some c, n := some false, c := some (!c) }
      { n := some false, h := some false, c := some (!c) }) s

end Sys2Proof.Machine
end

