-- ==== Sys2Proof/Machine/Bit.lean ====
section
/-! DEFINITION. Single-bit operations (spec/45_bit.md R270 to R272). -/

namespace Sys2Proof.Machine

/-- R270's flags: the Z80's S and PV take draws (log 5), the Game Boy has neither. C is unaffected. -/
def bitFlags (zero : Bool) : M Unit := do
  let s ← getState
  match s.cfg.variant with
  | .z80 =>
    let sgn ← drawBit
    let pv ← drawBit
    writeFlagSet { s := some sgn, z := some zero, h := some true, pv := some pv, n := some false }
  | .gb => writeFlagSet { z := some zero, n := some false, h := some true }

/-- R270. -/
def execBit (b : Fin 8) (src : Val8) (s : State) : Host.Outcome State Fault Refusal :=
  runCommand (do
    let x ← readVal8 src
    bitFlags (!x.getLsbD b.val)) s

/-- R271. -/
def execSet (b : Fin 8) (dst : Loc8) (s : State) : Host.Outcome State Fault Refusal :=
  runCommand (do
    let x ← readLoc8 dst
    writeLoc8 dst (x ||| ((1 : Byte) <<< b.val))) s

/-- R272. -/
def execRes (b : Fin 8) (dst : Loc8) (s : State) : Host.Outcome State Fault Refusal :=
  runCommand (do
    let x ← readLoc8 dst
    writeLoc8 dst (x &&& ~~~((1 : Byte) <<< b.val))) s

end Sys2Proof.Machine
end

