-- ==== Sys2Proof/Machine/Control.lean ====
section
/-! DEFINITION. Control transfer (spec/46_control.md R280 to R286). PC holds the address of the next instruction
when a command starts (R280). -/

namespace Sys2Proof.Machine

/-- `cond(k)` (R281): condition 0 reads no flag. -/
def evalCond : Cond → M Bool
  | .always => pure true
  | .nz => do
    let b ← readFlag .z
    return !b
  | .z => readFlag .z
  | .nc => do
    let b ← readFlag .c
    return !b
  | .c => readFlag .c
  | .po => do
    let b ← readFlag .pv
    return !b
  | .pe => readFlag .pv
  | .p => do
    let b ← readFlag .s
    return !b
  | .m => readFlag .s

/-- Whether a condition holds in a state (R281). -/
def State.holds (s : State) : Cond → Bool
  | .always => true
  | .nz => !s.flag .z
  | .z => s.flag .z
  | .nc => !s.flag .c
  | .c => s.flag .c
  | .po => !s.flag .pv
  | .pe => s.flag .pv
  | .p => !s.flag .s
  | .m => s.flag .s

/-- `(R16[PC] + sext_16(e)) mod 2^16` (R283, R286). -/
def branchTarget (pc : Word) (e : Byte) : Word := pc + sext16 e

/-- R282: SRC is read only when the jump is taken. -/
def execJp (cond : Cond) (src : Val16) (s : State) : Host.Outcome State Fault Refusal :=
  runCommand (do
    let taken ← evalCond cond
    if taken then
      let t ← readVal16 src
      writeReg16 .pc t
    else pure ()) s

/-- R283. -/
def execJr (cond : Cond) (src : Val8) (s : State) : Host.Outcome State Fault Refusal :=
  runCommand (do
    let taken ← evalCond cond
    if taken then
      let e ← readVal8 src
      let pc ← readReg16 .pc
      writeReg16 .pc (branchTarget pc e)
    else pure ()) s

/-- R284: the pushed value is PC, the return address. -/
def execCall (cond : Cond) (src : Val16) (s : State) : Host.Outcome State Fault Refusal :=
  runCommand (do
    let taken ← evalCond cond
    if taken then
      let t ← readVal16 src
      let back ← readReg16 .pc
      push16 back
      writeReg16 .pc t
    else pure ()) s

/-- R285. -/
def execRet (cond : Cond) (s : State) : Host.Outcome State Fault Refusal :=
  runCommand (do
    let taken ← evalCond cond
    if taken then
      let t ← pop16
      writeReg16 .pc t
    else pure ()) s

/-- R286: SRC is read only when the jump is taken. B, SRC and PC are read before B is written
(40_flag_library.md R161), so a DJNZ that ends with an error leaves B as it was (60_exceptions.md R305's
table; DEDUCED, log 18). -/
def execDjnz (src : Val8) (s : State) : Host.Outcome State Fault Refusal :=
  runCommand (do
    let b ← readReg8 .b
    let n := b - 1
    if n = 0 then
      writeReg8 .b n
    else
      let e ← readVal8 src
      let pc ← readReg16 .pc
      writeReg8 .b n
      writeReg16 .pc (branchTarget pc e)) s

end Sys2Proof.Machine
end

