-- ==== Sys2Proof/Machine/Shift.lean ====
section
/-! DEFINITION. Shifts, rotates and the nibble swap (spec/44_shift_rotate.md R250 to R261). -/

namespace Sys2Proof.Machine

/-! ## Results and flags -/

/-- The "CB flags" of spec/44_shift_rotate.md, for result `r` and carry-out `co`. -/
def cbFlags (r : Byte) (co : Bool) : Effect8 :=
  { result := r
    z80 := { s := some (isNegative8 r), z := some (isZero8 r), h := some false, pv := some (parity r),
             n := some false, c := some co }
    gb := { z := some (isZero8 r), n := some false, h := some false, c := some co } }

/-- The "A flags" of spec/44_shift_rotate.md: the Game Boy clears Z, the Z80 keeps S, Z and PV. -/
def aFlags (r : Byte) (co : Bool) : Effect8 :=
  { result := r
    z80 := { h := some false, n := some false, c := some co }
    gb := { z := some false, n := some false, h := some false, c := some co } }

/-- R252, R260: shift left, the old carry into bit 0. -/
def rotateLeftCarry (x : Byte) (c : Bool) : Byte := shiftLeft x ||| BitVec.ofNat 8 (bit c)

/-- R253, R261: shift right, the old carry into bit 7. -/
def rotateRightCarry (x : Byte) (c : Bool) : Byte := logicalShiftRight x ||| (BitVec.ofNat 8 (bit c) <<< 7)

/-- R257: the nibbles exchanged. -/
def swapNibbles (x : Byte) : Byte := (x <<< 4) ||| (x >>> 4)

/-- R257: the Game Boy's flags (the operation does not exist on the Z80). -/
def swap8 (x : Byte) : Effect8 :=
  { result := swapNibbles x
    z80 := {}
    gb := { z := some (isZero8 (swapNibbles x)), n := some false, h := some false, c := some false } }

/-! ## The meanings -/

/-- R250. -/
def execRlc (dst : Loc8) (s : State) : Host.Outcome State Fault Refusal :=
  runCommand (unary8 (fun x => cbFlags (rotateLeft x) (x.getLsbD 7)) dst) s

/-- R251. -/
def execRrc (dst : Loc8) (s : State) : Host.Outcome State Fault Refusal :=
  runCommand (unary8 (fun x => cbFlags (rotateRight x) (x.getLsbD 0)) dst) s

/-- R252. -/
def execRl (dst : Loc8) (s : State) : Host.Outcome State Fault Refusal :=
  runCommand (unary8c (fun x c => cbFlags (rotateLeftCarry x c) (x.getLsbD 7)) dst) s

/-- R253. -/
def execRr (dst : Loc8) (s : State) : Host.Outcome State Fault Refusal :=
  runCommand (unary8c (fun x c => cbFlags (rotateRightCarry x c) (x.getLsbD 0)) dst) s

/-- R254. -/
def execSla (dst : Loc8) (s : State) : Host.Outcome State Fault Refusal :=
  runCommand (unary8 (fun x => cbFlags (shiftLeft x) (x.getLsbD 7)) dst) s

/-- R255. -/
def execSra (dst : Loc8) (s : State) : Host.Outcome State Fault Refusal :=
  runCommand (unary8 (fun x => cbFlags (arithmeticShiftRight x) (x.getLsbD 0)) dst) s

/-- R256. -/
def execSrl (dst : Loc8) (s : State) : Host.Outcome State Fault Refusal :=
  runCommand (unary8 (fun x => cbFlags (logicalShiftRight x) (x.getLsbD 0)) dst) s

/-- R257. -/
def execSwap (dst : Loc8) (s : State) : Host.Outcome State Fault Refusal :=
  runCommand (unary8 swap8 dst) s

/-- R258: A is implicit. -/
def execRlca (s : State) : Host.Outcome State Fault Refusal :=
  runCommand (unary8 (fun x => aFlags (rotateLeft x) (x.getLsbD 7)) (.reg .a)) s

/-- R259: A is implicit. -/
def execRrca (s : State) : Host.Outcome State Fault Refusal :=
  runCommand (unary8 (fun x => aFlags (rotateRight x) (x.getLsbD 0)) (.reg .a)) s

/-- R260: A and C are implicit. -/
def execRla (s : State) : Host.Outcome State Fault Refusal :=
  runCommand (unary8c (fun x c => aFlags (rotateLeftCarry x c) (x.getLsbD 7)) (.reg .a)) s

/-- R261: A and C are implicit. -/
def execRra (s : State) : Host.Outcome State Fault Refusal :=
  runCommand (unary8c (fun x c => aFlags (rotateRightCarry x c) (x.getLsbD 0)) (.reg .a)) s

end Sys2Proof.Machine
end

