-- ==== Sys2Proof/Machine/Transfer.lean ====
section
/-! DEFINITION. Transfer operations (spec/41_transfer.md R180 to R186). -/

namespace Sys2Proof.Machine

/-- R180: nothing. -/
def execNop (s : State) : Host.Outcome State Fault Refusal := runCommand (pure ()) s

/-- R181. -/
def execLd8 (dst : Loc8) (src : Val8) (s : State) : Host.Outcome State Fault Refusal :=
  runCommand (do
    let v ← readVal8 src
    writeLoc8 dst v) s

/-- R182. -/
def execLd16 (dst : Loc16) (src : Val16) (s : State) : Host.Outcome State Fault Refusal :=
  runCommand (do
    let v ← readVal16 src
    writeLoc16 dst v) s

/-- R183: SRC is read before SP is decremented. -/
def execPush (src : Val16) (s : State) : Host.Outcome State Fault Refusal :=
  runCommand (do
    let v ← readVal16 src
    push16 v) s

/-- R184: DST is written after SP is incremented. -/
def execPop (dst : Loc16) (s : State) : Host.Outcome State Fault Refusal :=
  runCommand (do
    let v ← pop16
    writeLoc16 dst v) s

/-- R185, in the order of its pseudocode: the second write evaluates SRC's address at the moment of that access
(20_memory.md R89), once DST is written. -/
def execEx16 (dst src : Loc16) (s : State) : Host.Outcome State Fault Refusal :=
  runCommand (do
    let va ← readLoc16 dst
    let vb ← readLoc16 src
    writeLoc16 dst vb
    writeLoc16 src va) s

/-- The values of two pairs. -/
def readPairs (p q : Pair) : M (Word × Word) := do
  let t ← readPair p
  let u ← readPair q
  return (t, u)

/-- The writes of one round of R186's loop, of the values read: `PAIR[p] <- PAIR[q]; PAIR[q] <- t`. -/
def exchangePairs (p q : Pair) (v : Word × Word) : M Unit := do
  writePair p v.2
  writePair q v.1

/-- R186. The twelve halves are read before any is written (40_flag_library.md R161), so an EXX that ends with an
error has exchanged nothing (DEDUCED, log 18). -/
def execExx (s : State) : Host.Outcome State Fault Refusal :=
  runCommand (do
    let bc ← readPairs .bc .bc'
    let de ← readPairs .de .de'
    let hl ← readPairs .hl .hl'
    exchangePairs .bc .bc' bc
    exchangePairs .de .de' de
    exchangePairs .hl .hl' hl) s

end Sys2Proof.Machine
end

