-- ==== Sys2Proof/Machine/Dispatch.lean ====
section
/-! DEFINITION. The one match over instructions. -/

namespace Sys2Proof.Machine

def exec (i : Instr) (s : State) : Host.Outcome State Fault Refusal :=
  match i with
  -- transfer
  | .nop => Sys2Proof.Machine.execNop s
  | .ld8 dst src => Sys2Proof.Machine.execLd8 dst src s
  | .ld16 dst src => Sys2Proof.Machine.execLd16 dst src s
  | .push src => Sys2Proof.Machine.execPush src s
  | .pop dst => Sys2Proof.Machine.execPop dst s
  | .ex16 dst src => Sys2Proof.Machine.execEx16 dst src s
  | .exx => Sys2Proof.Machine.execExx s
  -- 8-bit arithmetic and logic
  | .add8 dst src => Sys2Proof.Machine.execAdd8 dst src s
  | .adc8 dst src => Sys2Proof.Machine.execAdc8 dst src s
  | .sub8 dst src => Sys2Proof.Machine.execSub8 dst src s
  | .sbc8 dst src => Sys2Proof.Machine.execSbc8 dst src s
  | .and8 dst src => Sys2Proof.Machine.execAnd8 dst src s
  | .xor8 dst src => Sys2Proof.Machine.execXor8 dst src s
  | .or8 dst src => Sys2Proof.Machine.execOr8 dst src s
  | .cp8 dst src => Sys2Proof.Machine.execCp8 dst src s
  | .inc8 dst => Sys2Proof.Machine.execInc8 dst s
  | .dec8 dst => Sys2Proof.Machine.execDec8 dst s
  | .neg => Sys2Proof.Machine.execNeg s
  | .cpl => Sys2Proof.Machine.execCpl s
  | .daa => Sys2Proof.Machine.execDaa s
  | .scf => Sys2Proof.Machine.execScf s
  | .ccf => Sys2Proof.Machine.execCcf s
  -- 16-bit arithmetic
  | .add16 dst src => Sys2Proof.Machine.execAdd16 dst src s
  | .adc16 dst src => Sys2Proof.Machine.execAdc16 dst src s
  | .sbc16 dst src => Sys2Proof.Machine.execSbc16 dst src s
  | .inc16 dst => Sys2Proof.Machine.execInc16 dst s
  | .dec16 dst => Sys2Proof.Machine.execDec16 dst s
  | .addspe src => Sys2Proof.Machine.execAddspe src s
  | .ldhlspe src => Sys2Proof.Machine.execLdhlspe src s
  -- shifts and rotates
  | .rlc dst => Sys2Proof.Machine.execRlc dst s
  | .rrc dst => Sys2Proof.Machine.execRrc dst s
  | .rl dst => Sys2Proof.Machine.execRl dst s
  | .rr dst => Sys2Proof.Machine.execRr dst s
  | .sla dst => Sys2Proof.Machine.execSla dst s
  | .sra dst => Sys2Proof.Machine.execSra dst s
  | .srl dst => Sys2Proof.Machine.execSrl dst s
  | .swap dst => Sys2Proof.Machine.execSwap dst s
  | .rlca => Sys2Proof.Machine.execRlca s
  | .rrca => Sys2Proof.Machine.execRrca s
  | .rla => Sys2Proof.Machine.execRla s
  | .rra => Sys2Proof.Machine.execRra s
  -- single bits
  | .bit b src => Sys2Proof.Machine.execBit b src s
  | .set b dst => Sys2Proof.Machine.execSet b dst s
  | .res b dst => Sys2Proof.Machine.execRes b dst s
  -- control transfer
  | .jp cond src => Sys2Proof.Machine.execJp cond src s
  | .jr cond src => Sys2Proof.Machine.execJr cond src s
  | .call cond src => Sys2Proof.Machine.execCall cond src s
  | .ret cond => Sys2Proof.Machine.execRet cond s
  | .djnz src => Sys2Proof.Machine.execDjnz src s

end Sys2Proof.Machine
end

