-- ==== Sys2Proof/Machine/HostAccess.lean ====
section
/-! DEFINITION. What the host does between commands: register access, memory views, and building a machine
(spec/70_reset_and_hazards.md R330, R331, R334, R336; spec/20_memory.md R71). -/

namespace Sys2Proof.Machine

/-! ## Memory views (20_memory.md R71) -/

/-- A byte read at a view's target: through the bus, or on a flat block directly. The block is the one the host
names, whether or not a listener has it (DESIGN CHOICE, log 19). -/
def viewByteRead (t : ViewTarget) (a : Addr) : M Byte :=
  match t with
  | .bus => busRead8 a
  | .block fb => flatRead fb a

/-- A byte write at a view's target, as `viewByteRead` (log 19). -/
def viewByteWrite (t : ViewTarget) (a : Addr) (v : Byte) : M Unit :=
  match t with
  | .bus => busWrite8 a v
  | .block fb => flatWrite fb a v

/-- A word read through a view: "the same sequence of byte accesses" as R67. The second address wraps as R67's does,
so on a block that holds the whole address space a word at 0xFFFF raises nothing (DEDUCED, log 20). -/
def viewWordRead (t : ViewTarget) (a : Addr) : M Word := do
  let lo ← viewByteRead t a
  let hi ← viewByteRead t (a + 1)
  return hi ++ lo

/-- A word write through a view (log 20). -/
def viewWordWrite (t : ViewTarget) (a : Addr) (v : Word) : M Unit := do
  viewByteWrite t a (v.extractLsb' 0 8)
  viewByteWrite t (a + 1) (v.extractLsb' 8 8)

/-! ## Host accesses as steps -/

/-- Hand something to the driver. -/
def State.emit (s : State) (o : Output) : State := { s with outputs := o :: s.outputs }

/-- A host read: its value or its error goes to the host (R336). It is no command, so the fault record of R306 takes
nothing (log 8). -/
def hostAnswer {α : Type} (answer : α → Output) (m : M α) (s : State) : Host.Outcome State Fault Refusal :=
  match m s with
  | .ok v t => .next (t.emit (answer v))
  | .error e t => .next (t.emit (.hostError e))

/-- A host write: it answers nothing; its error goes to the host, as a host read's does (R336, log 8). -/
def hostWrite (m : M Unit) (s : State) : Host.Outcome State Fault Refusal :=
  match m s with
  | .ok _ t => .next t
  | .error e t => .next (t.emit (.hostError e))

/-- A host access to a register the variant does not have is refused by name (log 9). -/
def ifPresent (present : Bool) (o : Host.Outcome State Fault Refusal) : Host.Outcome State Fault Refusal :=
  if present then o else .refused .hostRegisterAbsent

/-- A command handed in: the decode checks first (30_encoding.md R111); a refused command raises
`IllegalCommand` before any access (R112), a valid one is `run`. -/
def issueCommand (run : Instr → State → Host.Outcome State Fault Refusal) (bits : Command) (s : State) :
    Host.Outcome State Fault Refusal :=
  match decode s.cfg.variant bits with
  | .error check => .next (({ s with command := bits } : State).takeError (.illegalCommand bits check) bits)
  | .ok i => run i { s with command := bits }

/-- One input of the driver or host, already taken from the queue. -/
def runInput (run : Instr → State → Host.Outcome State Fault Refusal) (x : Input) (s : State) :
    Host.Outcome State Fault Refusal :=
  match x with
  | .command bits => issueCommand run bits s
  | .readReg8 q => ifPresent (q.inVariant s.cfg.variant) (hostAnswer .byte (readReg8 q) s)
  | .writeReg8 q v => ifPresent (q.inVariant s.cfg.variant) (hostWrite (writeReg8 q v) s)
  | .readReg16 q => ifPresent (q.inVariant s.cfg.variant) (hostAnswer .word (readReg16 q) s)
  | .writeReg16 q v => ifPresent (q.inVariant s.cfg.variant) (hostWrite (writeReg16 q v) s)
  | .viewRead8 t base => hostAnswer .byte (viewByteRead t base) s
  | .viewRead16 t base => hostAnswer .word (viewWordRead t base) s
  | .viewWrite8 t base v => hostWrite (viewByteWrite t base v) s
  | .viewWrite16 t base v => hostWrite (viewWordWrite t base v) s

/-- The next input, if one waits; with none the block is idle (log 4). -/
def takeInput (run : Instr → State → Host.Outcome State Fault Refusal) (s : State) :
    Host.Outcome State Fault Refusal :=
  match s.inputs with
  | [] => .next s
  | x :: rest => runInput run x { s with inputs := rest }

/-- The command of opcode-table bits: the bits from `nbits` up are 0. -/
def commandOfTable (nbits w : Nat) : Command := BitVec.ofNat 160 (w % 2 ^ nbits)

/-! ## Construction (70_reset_and_hazards.md R330, R331) -/

/-- Parameter `RESET_STATE` (00_scope.md R5): the registers and flat-memory bytes it gives a value. -/
structure ResetState where
  regs8 : List (Reg8 × Byte)
  regs16 : List (Reg16 × Word)
  bytes : List Host.Cell
  deriving DecidableEq, Repr

/-- Every Register8 unwritten. -/
def Regs8.blank : Regs8 where
  b := ⟨0, false⟩
  c := ⟨0, false⟩
  d := ⟨0, false⟩
  e := ⟨0, false⟩
  h := ⟨0, false⟩
  l := ⟨0, false⟩
  f := ⟨0, false⟩
  a := ⟨0, false⟩
  b' := ⟨0, false⟩
  c' := ⟨0, false⟩
  d' := ⟨0, false⟩
  e' := ⟨0, false⟩
  h' := ⟨0, false⟩
  l' := ⟨0, false⟩
  f' := ⟨0, false⟩
  a' := ⟨0, false⟩
  i := ⟨0, false⟩
  r := ⟨0, false⟩

/-- Every Register16 unwritten. -/
def Regs16.blank : Regs16 where
  sp := ⟨0, false⟩
  pc := ⟨0, false⟩
  ix := ⟨0, false⟩
  iy := ⟨0, false⟩

/-- A machine with nothing written (R331). -/
def State.blank (cfg : Config) : State where
  cfg := cfg
  regs8 := Regs8.blank
  regs16 := Regs16.blank
  mem := []
  faultRecord := none
  busLog := []
  outputs := []
  inputs := []
  command := 0
  draws := 0

/-- One register of `RESET_STATE`; an entry for a register the variant lacks gives nothing a value. -/
def State.load8 (s : State) (e : Reg8 × Byte) : State :=
  if e.1.inVariant s.cfg.variant then s.setReg8 e.1 e.2 else s

def State.load16 (s : State) (e : Reg16 × Word) : State :=
  if e.1.inVariant s.cfg.variant then s.setReg16 e.1 e.2 else s

/-- One flat-memory byte of `RESET_STATE`. -/
def State.loadByte (s : State) (e : Host.Cell) : State := { s with mem := Memory.write s.mem e.1 e.2 }

/-- The machine the host builds (R330, R331): everything unwritten but what `RESET_STATE` gives. -/
def State.construct (cfg : Config) (rs : ResetState) : State :=
  rs.bytes.foldl State.loadByte (rs.regs16.foldl State.load16 (rs.regs8.foldl State.load8 (State.blank cfg)))

/-- The `RESET_STATE` of `State.reset` (log 1). -/
def ResetState.named : ResetState where
  regs8 := Reg8.all.map fun x => (x, Regs8.reset.get x |>.value)
  regs16 := Reg16.all.map fun x => (x, Regs16.reset.get x |>.value)
  bytes := []

end Sys2Proof.Machine
end

