-- ==== Sys2Proof/Machine/Step.lean ====
section
/-! DEFINITION. One step: the block takes the next thing its driver hands it
(spec/70_reset_and_hazards.md R335, R336; spec/20_memory.md R92). -/

namespace Sys2Proof.Machine

/-- One step. The block fetches nothing (46_control.md R280): what it runs is the next input of the queue. -/
def step (s : State) : Host.Outcome State Fault Refusal := takeInput exec s

/-- `s` with a command handed in as the next input: what `step` takes. -/
def State.withFetchWord (s : State) (nbits w : Nat) : State :=
  { s with inputs := .command (commandOfTable nbits w) :: s.inputs }

end Sys2Proof.Machine
end

