-- ==== Sys2Proof/Safety.lean ====
section
/-! DEFINITION. The terms in which claims about the machine are stated: which accesses succeed in a state, what an
instruction may write, what the flag phase leaves, and the invariant of the state. Nothing here is run. -/

namespace Sys2Proof

open Machine

/-! ## Runs without an error -/

/-- "a run whose fault record is empty" (60_exceptions.md R306). -/
def Machine.State.clean (s : State) : Prop := s.faultRecord = none

/-! ## Which accesses succeed -/

/-- A byte read at a bus address succeeds: a listener owns it and its device answers (20_memory.md R62, R65,
R66; 10_state.md R44). -/
def Machine.State.busReads (s : State) (a : Addr) : Bool :=
  match route s.cfg.listeners a with
  | none => false
  | some l =>
    match l.device with
    | .flat fb => fb.inWindow a && (Memory.read s.mem (fb.key a)).isSome
    | .peripheral _ => true

/-- A byte write at a bus address succeeds (20_memory.md R63, R65, R66). -/
def Machine.State.busWrites (s : State) (a : Addr) : Bool :=
  match route s.cfg.listeners a with
  | none => false
  | some l =>
    match l.device with
    | .flat fb => fb.inWindow a
    | .peripheral _ => true

/-- A Pointer's source is written. -/
def Machine.State.srcWritten (s : State) : Src16 → Bool
  | .pair p => s.writtenPair p
  | .reg x => s.written16 x

/-- A PseudoPointer's offset is written. -/
def Machine.State.offsetWritten (s : State) : Offset → Bool
  | .reg x => s.written8 x
  | .imm _ => true

/-- `Read8` of a W8 operand succeeds. -/
def Machine.State.reads8 (s : State) : Loc8 → Bool
  | .reg x => s.written8 x
  | .ptr p => s.srcWritten p && s.busReads (s.src16 p)
  | .pptr base o => s.offsetWritten o && s.busReads (pseudoAddr base (s.offset o))
  | .mem m => s.busReads m

/-- `Write8` of a W8 operand succeeds. -/
def Machine.State.writes8 (s : State) : Loc8 → Bool
  | .reg _ => true
  | .ptr p => s.srcWritten p && s.busWrites (s.src16 p)
  | .pptr base o => s.offsetWritten o && s.busWrites (pseudoAddr base (s.offset o))
  | .mem m => s.busWrites m

/-- `Read8` of an R8 operand succeeds. -/
def Machine.State.readsVal8 (s : State) : Val8 → Bool
  | .loc o => s.reads8 o
  | .imm _ => true

/-- Both bytes of a word read succeed (R67). -/
def Machine.State.busReads16 (s : State) (a : Addr) : Bool := s.busReads a && s.busReads (a + 1)

/-- Both bytes of a word write succeed (R67). -/
def Machine.State.busWrites16 (s : State) (a : Addr) : Bool := s.busWrites a && s.busWrites (a + 1)

/-- `Read16` of a W16 operand succeeds. -/
def Machine.State.reads16 (s : State) : Loc16 → Bool
  | .reg x => s.written16 x
  | .pair p => s.writtenPair p
  | .pptr base o => s.offsetWritten o && s.busReads16 (pseudoAddr base (s.offset o))
  | .mem m => s.busReads16 m

/-- `Write16` of a W16 operand succeeds. -/
def Machine.State.writes16 (s : State) : Loc16 → Bool
  | .reg _ => true
  | .pair _ => true
  | .pptr base o => s.offsetWritten o && s.busWrites16 (pseudoAddr base (s.offset o))
  | .mem m => s.busWrites16 m

/-- `Read16` of an R16 operand succeeds. -/
def Machine.State.readsVal16 (s : State) : Val16 → Bool
  | .loc o => s.reads16 o
  | .imm _ => true

/-- A condition can be evaluated: all but condition 0 read F (46_control.md R281). -/
def Machine.State.condReads (s : State) : Cond → Bool
  | .always => true
  | .nz | .z | .nc | .c | .po | .pe | .p | .m => s.written8 .f

/-! ## What the flag phase leaves (10_state.md R30 to R34; 40_flag_library.md R163 to R165) -/

/-- The entry of a flag. -/
def Machine.FlagUpdate.get (u : FlagUpdate) : Flag → Option Bool
  | .s => u.s
  | .z => u.z
  | .h => u.h
  | .pv => u.pv
  | .n => u.n
  | .c => u.c

/-- The bits of F that are no flag of the variant: Y and X on the Z80, bits 3..0 on the Game Boy. -/
def plainBits : Variant → Byte
  | .z80 => 0x28
  | .gb => 0x0F

/-- `t` is `s` after a flag phase that writes the flags of `z80` or `gb` by variant: each declared flag has its
value, every other flag keeps its own, the non-flag bits of F follow R33 (Z80: kept under `Preserve`,
free under `Draw`) and R34 (Game Boy: as stored), and nothing but F and the draw counter differs. -/
def Machine.State.FlagsSet (s t : State) (z80 gb : FlagUpdate) : Prop :=
  t = { s with regs8 := s.regs8.put .f (t.regs8.get .f), draws := t.draws } ∧
  t.written8 .f = true ∧
  (s.cfg.variant = .z80 → ∀ f, t.flag f = (z80.get f).getD (s.flag f)) ∧
  (s.cfg.variant = .gb → ∀ f, t.flag f = (gb.get f).getD (s.flag f)) ∧
  (s.cfg.variant = .z80 → s.cfg.xyPolicy = .preserve →
    t.reg8 .f &&& plainBits .z80 = s.reg8 .f &&& plainBits .z80 ∧ t.draws = s.draws) ∧
  (s.cfg.variant = .gb →
    t.reg8 .f &&& plainBits .gb = stored8 s.cfg .f (s.reg8 .f) &&& plainBits .gb ∧ t.draws = s.draws)

/-- The "CB flags" of 44_shift_rotate.md on the Z80, for result `r` and carry-out `co`. -/
def cbFlagsZ80 (r : Byte) (co : Bool) : FlagUpdate :=
  { s := some (isNegative8 r), z := some (isZero8 r), h := some false, pv := some (parity r), n := some false,
    c := some co }

/-- The "CB flags" on the Game Boy. -/
def cbFlagsGb (r : Byte) (co : Bool) : FlagUpdate :=
  { z := some (isZero8 r), n := some false, h := some false, c := some co }

/-- The "A flags" of 44_shift_rotate.md on the Z80: S, Z and PV are unaffected. -/
def aFlagsZ80 (co : Bool) : FlagUpdate := { h := some false, n := some false, c := some co }

/-- The "A flags" on the Game Boy: Z is cleared. -/
def aFlagsGb (co : Bool) : FlagUpdate :=
  { z := some false, n := some false, h := some false, c := some co }

/-! ## What an instruction may write -/

/-- The Register8 a W8 operand is. -/
def Loc8.isReg8 : Loc8 → Reg8 → Bool
  | .reg x, y => x == y
  | .ptr _, _ | .pptr _ _, _ | .mem _, _ => false

/-- The Register8 cells a W16 operand holds. -/
def Loc16.isReg8 : Loc16 → Reg8 → Bool
  | .pair p, y => p.high == y || p.low == y
  | .reg _, _ | .pptr _ _, _ | .mem _, _ => false

/-- The Register16 a W16 operand is. -/
def Loc16.isReg16 : Loc16 → Reg16 → Bool
  | .reg x, y => x == y
  | .pair _, _ | .pptr _ _, _ | .mem _, _ => false

/-- Whether an operation writes flags as flags (40_flag_library.md R163: the ops of its table). -/
def Instr.writesFlags : Instr → Bool
  | .add8 _ _ | .adc8 _ _ | .sub8 _ _ | .sbc8 _ _ | .and8 _ _ | .xor8 _ _ | .or8 _ _ | .cp8 _ _ => true
  | .inc8 _ | .dec8 _ | .neg | .cpl | .daa | .scf | .ccf => true
  | .add16 _ _ | .adc16 _ _ | .sbc16 _ _ | .addspe _ | .ldhlspe _ => true
  | .rlc _ | .rrc _ | .rl _ | .rr _ | .sla _ | .sra _ | .srl _ | .swap _ | .rlca | .rrca | .rla | .rra => true
  | .bit _ _ => true
  | .nop | .ld8 _ _ | .ld16 _ _ | .push _ | .pop _ | .ex16 _ _ | .exx | .inc16 _ | .dec16 _ => false
  | .set _ _ | .res _ _ | .jp _ _ | .jr _ _ | .call _ _ | .ret _ | .djnz _ => false

/-- The Register8 cells an instruction may write as data: its destination, and the implicit ones its rule
writes. -/
def Instr.dest8 : Instr → Reg8 → Bool
  | .ld8 d _, x | .add8 d _, x | .adc8 d _, x | .sub8 d _, x | .sbc8 d _, x => d.isReg8 x
  | .and8 d _, x | .xor8 d _, x | .or8 d _, x | .inc8 d, x | .dec8 d, x => d.isReg8 x
  | .rlc d, x | .rrc d, x | .rl d, x | .rr d, x | .sla d, x | .sra d, x | .srl d, x | .swap d, x => d.isReg8 x
  | .set _ d, x | .res _ d, x => d.isReg8 x
  | .ld16 d _, x | .pop d, x | .add16 d _, x | .adc16 d _, x | .sbc16 d _, x => d.isReg8 x
  | .inc16 d, x | .dec16 d, x => d.isReg8 x
  | .ex16 d e, x => d.isReg8 x || e.isReg8 x
  | .exx, x => [Reg8.b, .c, .d, .e, .h, .l, .b', .c', .d', .e', .h', .l'].contains x
  | .neg, x | .cpl, x | .daa, x | .rlca, x | .rrca, x | .rla, x | .rra, x => x == .a
  | .ldhlspe _, x => x == .h || x == .l
  | .djnz _, x => x == .b
  | .nop, _ | .push _, _ | .cp8 _ _, _ | .scf, _ | .ccf, _ | .addspe _, _ | .bit _ _, _ => false
  | .jp _ _, _ | .jr _ _, _ | .call _ _, _ | .ret _, _ => false

/-- The Register8 cells an instruction may write at all: `dest8`, and F when it writes flags. -/
def Instr.mayWrite8 (i : Instr) (x : Reg8) : Bool := i.dest8 x || (i.writesFlags && x == .f)

/-- The Register16 cells an instruction may write (10_state.md R40, R41; 46_control.md R280). -/
def Instr.mayWrite16 : Instr → Reg16 → Bool
  | .ld16 d _, x | .add16 d _, x | .adc16 d _, x | .sbc16 d _, x => d.isReg16 x
  | .inc16 d, x | .dec16 d, x => d.isReg16 x
  | .ex16 d e, x => d.isReg16 x || e.isReg16 x
  | .push _, x | .addspe _, x => x == .sp
  | .pop d, x => x == .sp || d.isReg16 x
  | .call _ _, x | .ret _, x => x == .sp || x == .pc
  | .jp _ _, x | .jr _ _, x | .djnz _, x => x == .pc
  | .nop, _ | .ld8 _ _, _ | .exx, _ => false
  | .add8 _ _, _ | .adc8 _ _, _ | .sub8 _ _, _ | .sbc8 _ _, _ | .and8 _ _, _ | .xor8 _ _, _ | .or8 _ _, _ => false
  | .cp8 _ _, _ | .inc8 _, _ | .dec8 _, _ | .neg, _ | .cpl, _ | .daa, _ | .scf, _ | .ccf, _ => false
  | .ldhlspe _, _ => false
  | .rlc _, _ | .rrc _, _ | .rl _, _ | .rr _, _ | .sla _, _ | .sra _, _ | .srl _, _ | .swap _, _ => false
  | .rlca, _ | .rrca, _ | .rla, _ | .rra, _ | .bit _ _, _ | .set _ _, _ | .res _ _, _ => false

/-- The addresses of a word's two bytes (R67). -/
def wordAddrs (a : Addr) : List Addr := [a, a + 1]

/-- The bus addresses an 8-bit destination stores to, from state `s`. -/
def Machine.State.stores8 (s : State) (o : Loc8) : List Addr := (s.addr8 o).toList

/-- The bus addresses a 16-bit destination stores to, from state `s`. -/
def Machine.State.stores16 (s : State) (o : Loc16) : List Addr :=
  match s.addr16 o with
  | none => []
  | some a => wordAddrs a

/-- The bus addresses an instruction other than EX16 may store to when it runs from `s`: its destination
operand's, or the stack's (R183, and R284 when the call is taken). EX16 stores to its second operand too,
at the address that operand has once the first is written (R185). -/
def Instr.stores (i : Instr) (s : State) : List Addr :=
  match i with
  | .ld8 d _ | .add8 d _ | .adc8 d _ | .sub8 d _ | .sbc8 d _ | .and8 d _ | .xor8 d _ | .or8 d _ => s.stores8 d
  | .inc8 d | .dec8 d | .rlc d | .rrc d | .rl d | .rr d | .sla d | .sra d | .srl d | .swap d => s.stores8 d
  | .set _ d | .res _ d => s.stores8 d
  | .ld16 d _ | .pop d | .add16 d _ | .adc16 d _ | .sbc16 d _ | .inc16 d | .dec16 d => s.stores16 d
  | .push _ => wordAddrs (s.reg16 .sp - 2)
  | .call k _ => if s.holds k then wordAddrs (s.reg16 .sp - 2) else []
  | .ex16 d _ => s.stores16 d
  | .nop | .exx | .cp8 _ _ | .neg | .cpl | .daa | .scf | .ccf | .addspe _ | .ldhlspe _ => []
  | .rlca | .rrca | .rla | .rra | .bit _ _ | .jp _ _ | .jr _ _ | .ret _ | .djnz _ => []

/-- The flat-memory keys behind a list of bus addresses. -/
def Machine.State.keysOf (s : State) (as : List Addr) : List Nat := as.filterMap s.storeKey

/-- Which flags an operation writes, per variant: the cells of R163's table that are not `-`. -/
def Instr.writesFlag (v : Variant) (i : Instr) (f : Flag) : Bool :=
  match i with
  | .add8 _ _ | .adc8 _ _ | .sub8 _ _ | .sbc8 _ _ | .and8 _ _ | .xor8 _ _ | .or8 _ _ | .cp8 _ _ => true
  | .neg | .adc16 _ _ | .sbc16 _ _ | .addspe _ | .ldhlspe _ | .swap _ => true
  | .rlc _ | .rrc _ | .rl _ | .rr _ | .sla _ | .sra _ | .srl _ => true
  | .inc8 _ | .dec8 _ => f != .c
  | .cpl => f == .h || f == .n
  | .daa => f != .n
  | .scf | .ccf | .add16 _ _ => f == .h || f == .n || f == .c
  | .rlca | .rrca | .rla | .rra => f == .h || f == .n || f == .c || (v == .gb && f == .z)
  | .bit _ _ => f != .c
  | .nop | .ld8 _ _ | .ld16 _ _ | .push _ | .pop _ | .ex16 _ _ | .exx | .inc16 _ | .dec16 _ => false
  | .set _ _ | .res _ _ | .jp _ _ | .jr _ _ | .call _ _ | .ret _ | .djnz _ => false

/-! ## Where a command ends with an error (60_exceptions.md R305; the "Errors" of the operation rules) -/

/-- `i` run from `s` takes the error `e` in the state `t` its earlier accesses left: nothing more of the
command happens (R305), and the record takes the error and the command (R306). -/
def Instr.abortsWith (i : Instr) (s : State) (e : Error) (t : State) : Prop :=
  exec i s = .next (t.takeError e s.command)

/-- The errors of an operation that reads DST and SRC, writes DST and then writes flags, in their order. (An operand
that was read can be written: the write of DST raises nothing.) -/
def Instr.abortsBinary8 (i : Instr) (d : Loc8) (v : Val8) (r : Byte → Byte → Byte) : Prop :=
  ∀ (s s1 s2 s3 : State) (a b : Byte) (e : Error),
    (readLoc8 d s = .error e s1 → i.abortsWith s e s1) ∧
    (readLoc8 d s = .ok a s1 → readVal8 v s1 = .error e s2 → i.abortsWith s e s2) ∧
    (readLoc8 d s = .ok a s1 → readVal8 v s1 = .ok b s2 → writeLoc8 d (r a b) s2 = .ok () s3 →
      s3.written8 .f = false → i.abortsWith s (.unwritten (.reg8 .f)) s3)

/-- The same where the Carry flag is an input: F is read after the operands, before DST is written. -/
def Instr.abortsBinary8c (i : Instr) (d : Loc8) (v : Val8) : Prop :=
  ∀ (s s1 s2 : State) (a b : Byte) (e : Error),
    (readLoc8 d s = .error e s1 → i.abortsWith s e s1) ∧
    (readLoc8 d s = .ok a s1 → readVal8 v s1 = .error e s2 → i.abortsWith s e s2) ∧
    (readLoc8 d s = .ok a s1 → readVal8 v s1 = .ok b s2 → s2.written8 .f = false →
      i.abortsWith s (.unwritten (.reg8 .f)) s2)

/-- The errors of an operation that reads DST, writes it and then writes flags. -/
def Instr.abortsUnary8 (i : Instr) (d : Loc8) (r : Byte → Byte) : Prop :=
  ∀ (s s1 s2 : State) (a : Byte) (e : Error),
    (readLoc8 d s = .error e s1 → i.abortsWith s e s1) ∧
    (readLoc8 d s = .ok a s1 → writeLoc8 d (r a) s1 = .ok () s2 → s2.written8 .f = false →
      i.abortsWith s (.unwritten (.reg8 .f)) s2)

/-- The same where the Carry flag is an input. -/
def Instr.abortsUnary8c (i : Instr) (d : Loc8) : Prop :=
  ∀ (s s1 : State) (a : Byte) (e : Error),
    (readLoc8 d s = .error e s1 → i.abortsWith s e s1) ∧
    (readLoc8 d s = .ok a s1 → s1.written8 .f = false → i.abortsWith s (.unwritten (.reg8 .f)) s1)

/-- The errors of an operation that reads and writes an 8-bit DST and no flags. -/
def Instr.abortsModify8 (i : Instr) (d : Loc8) : Prop :=
  ∀ (s t : State) (e : Error), readLoc8 d s = .error e t → i.abortsWith s e t

/-- As `abortsBinary8`, 16 bits wide. -/
def Instr.abortsBinary16 (i : Instr) (d : Loc16) (v : Val16) (r : Word → Word → Word) : Prop :=
  ∀ (s s1 s2 s3 : State) (a b : Word) (e : Error),
    (readLoc16 d s = .error e s1 → i.abortsWith s e s1) ∧
    (readLoc16 d s = .ok a s1 → readVal16 v s1 = .error e s2 → i.abortsWith s e s2) ∧
    (readLoc16 d s = .ok a s1 → readVal16 v s1 = .ok b s2 → writeLoc16 d (r a b) s2 = .ok () s3 →
      s3.written8 .f = false → i.abortsWith s (.unwritten (.reg8 .f)) s3)

/-- As `abortsBinary8c`, 16 bits wide. -/
def Instr.abortsBinary16c (i : Instr) (d : Loc16) (v : Val16) : Prop :=
  ∀ (s s1 s2 : State) (a b : Word) (e : Error),
    (readLoc16 d s = .error e s1 → i.abortsWith s e s1) ∧
    (readLoc16 d s = .ok a s1 → readVal16 v s1 = .error e s2 → i.abortsWith s e s2) ∧
    (readLoc16 d s = .ok a s1 → readVal16 v s1 = .ok b s2 → s2.written8 .f = false →
      i.abortsWith s (.unwritten (.reg8 .f)) s2)

/-- As `abortsModify8`, 16 bits wide. -/
def Instr.abortsModify16 (i : Instr) (d : Loc16) : Prop :=
  ∀ (s t : State) (e : Error), readLoc16 d s = .error e t → i.abortsWith s e t

/-! ## Frames -/

/-- Every register outside what `i` may write keeps its value and whether it is written. -/
def Machine.State.RegistersFramed (s t : State) (i : Instr) : Prop :=
  (∀ x, i.mayWrite8 x = false → t.regs8.get x = s.regs8.get x) ∧
  (∀ x, i.mayWrite16 x = false → t.regs16.get x = s.regs16.get x)

/-- Every flat-memory byte outside the keys `ks` is as before, read in its store or through the bus. -/
def Machine.State.MemoryFramed (s t : State) (ks : List Nat) : Prop :=
  (∀ k, k ∉ ks → Memory.read t.mem k = Memory.read s.mem k) ∧
  (∀ a, (∀ k ∈ ks, s.storeKey a ≠ some k) → t.byteAt a = s.byteAt a)

/-- Everything that is no register and no flat memory: the parameters, the queue and the command stay, the log
only grows, and the fault record stays or takes this command's error (60_exceptions.md R306). -/
def Machine.State.RestFramed (s t : State) : Prop :=
  t.cfg = s.cfg ∧ t.inputs = s.inputs ∧ t.command = s.command ∧ s.busLog <:+ t.busLog ∧ s.draws ≤ t.draws ∧
  ∃ o, t.outputs = o :: s.outputs ∧
    ((∃ n, o = .cycles n) ∧ t.faultRecord = s.faultRecord ∨
      ∃ e, o = .error e ∧ t.faultRecord = some { error := e, command := s.command })

/-! ## Operations that touch no bus (60_exceptions.md R304) -/

def Loc8.onBus : Loc8 → Bool
  | .reg _ => false
  | .ptr _ | .pptr _ _ | .mem _ => true

def Val8.onBus : Val8 → Bool
  | .loc o => o.onBus
  | .imm _ => false

def Loc16.onBus : Loc16 → Bool
  | .reg _ | .pair _ => false
  | .pptr _ _ | .mem _ => true

def Val16.onBus : Val16 → Bool
  | .loc o => o.onBus
  | .imm _ => false

/-- An instruction with an operand of a bus kind, or an implicit stack access (R304). -/
def Instr.usesBus : Instr → Bool
  | .ld8 d s | .add8 d s | .adc8 d s | .sub8 d s | .sbc8 d s | .and8 d s | .xor8 d s | .or8 d s =>
    d.onBus || s.onBus
  | .cp8 d s => d.onBus || s.onBus
  | .ld16 d s | .add16 d s | .adc16 d s | .sbc16 d s => d.onBus || s.onBus
  | .ex16 d s => d.onBus || s.onBus
  | .inc8 d | .dec8 d | .rlc d | .rrc d | .rl d | .rr d | .sla d | .sra d | .srl d | .swap d => d.onBus
  | .set _ d | .res _ d => d.onBus
  | .inc16 d | .dec16 d => d.onBus
  | .addspe s | .ldhlspe s | .bit _ s | .jr _ s | .djnz s => s.onBus
  | .jp _ s => s.onBus
  | .push _ | .pop _ | .call _ _ | .ret _ => true
  | .nop | .exx | .neg | .cpl | .daa | .scf | .ccf | .rlca | .rrca | .rla | .rra => false

/-- An error of the bus (60_exceptions.md R301 codes 1 to 4). -/
def Machine.Error.isBus : Error → Bool
  | .unmappedAddress _ _ | .outOfRange _ _ _ _ => true
  | .illegalCommand _ _ | .unwritten _ => false

/-! ## EX16 -/

/-- What writing `v` to a 16-bit operand does to the registers. -/
def Machine.State.regWrite16 (s : State) (o : Loc16) (v : Word) : State :=
  match o with
  | .reg x => s.setReg16 x v
  | .pair p => s.setPair p v
  | .pptr _ _ | .mem _ => s

/-- The second write of EX16 succeeds: SRC can be written once DST holds SRC's old value (41_transfer.md R185). -/
def Machine.State.exchangeWrites (s : State) (d e : Loc16) : Prop :=
  ∀ va vb s1 s2, readLoc16 d s = .ok va s1 → readLoc16 e s1 = .ok vb s2 → (s2.regWrite16 d vb).writes16 e = true

/-! ## The invariant -/

/-- The error a command ended with, where an output is one (R335). -/
def Machine.Output.error? : Output → Option Error
  | .error e => some e
  | .cycles _ | .byte _ | .word _ | .hostError _ => none

/-- What a host access gives the host, as against what a command gives its driver (70_reset_and_hazards.md R335, R336;
log 8). -/
def Machine.Output.forHost : Output → Bool
  | .byte _ | .word _ | .hostError _ => true
  | .cycles _ | .error _ => false

/-- A register the Game Boy does not have is never written (10_state.md R21, R23). -/
def Machine.State.absentUnwritten (s : State) : Prop :=
  (∀ x : Reg8, x.inVariant s.cfg.variant = false → s.written8 x = false) ∧
  (∀ x : Reg16, x.inVariant s.cfg.variant = false → s.written16 x = false)

/-- Under `GB_F_LOW_MASK` the low nibble of the Game Boy's F is 0 once F is written (10_state.md R34). -/
def Machine.State.fMasked (s : State) : Prop :=
  s.cfg.variant = .gb → s.cfg.gbFLowMask = true → s.written8 .f = true → s.reg8 .f &&& 0x0F = 0

/-- Every access in the log went to the first listener that owns its address (20_memory.md R61). -/
def Machine.State.logRouted (s : State) : Prop :=
  ∀ ev ∈ s.busLog, (route s.cfg.listeners ev.addr).map Listener.device = some ev.device

/-- The fault record holds the last error a command ended with (60_exceptions.md R306; of several the last is the
model's choice, log 7), and no host access fills it (log 8). -/
def Machine.State.recordIsLast (s : State) : Prop :=
  s.faultRecord.map FaultRecord.error = s.outputs.findSome? Output.error?

/-- The invariant: the memory keeps its canonical form, absent registers stay unwritten, F keeps its mask, the
log is routed, the fault record is the last error of a command. -/
structure Machine.State.Inv (s : State) : Prop where
  memory : Memory.wf s.mem = true
  absent : s.absentUnwritten
  masked : s.fMasked
  routed : s.logRouted
  record : s.recordIsLast

end Sys2Proof
end

