-- ==== Sys2Proof/Certificates/Slice0/Obligations.lean ====
section
/-! DEFINITION. The statements about this model, each a rule of the spec or derived from its rules.

Reading them: `readLoc8 d s = .ok a s1` is `Read8(d)` giving `a` and leaving `s1` (20_memory.md R80), and
so on; `t.complete s` is `t` with the cycle count of a completed command reported (40_flag_library.md
R167); `FlagsSet` is the flag phase with the flags of the "Z80 flags" and "GB flags" lines (R163, R164,
with 10_state.md R33 and R34); the hypotheses say only which registers are written and which addresses
answer. -/

section

open Sys2Proof Sys2Proof.Machine

/-! ## Construction and the whole machine -/

/-- The model's choices, no rule of the spec: `RESET_STATE` and its values (log 1), the parameters (log 2).
A, F, SP and PC are R331's general-knowledge column (PRESUMED), the rest zero (DESIGN CHOICE). -/
def Obligations.ResetValues : Prop :=
  State.reset.cfg = Config.default ∧
  (∀ x, State.reset.written8 x = true) ∧ (∀ x, State.reset.written16 x = true) ∧
  State.reset.reg8 .a = 0xFF ∧ State.reset.reg8 .f = 0xFF ∧
  (∀ x, x ≠ .a → x ≠ .f → State.reset.reg8 x = 0x00) ∧
  State.reset.reg16 .sp = 0xFFFF ∧ State.reset.reg16 .pc = 0x0000 ∧
  State.reset.reg16 .ix = 0x0000 ∧ State.reset.reg16 .iy = 0x0000 ∧
  State.reset.mem = [] ∧ State.reset.faultRecord = none ∧ State.reset.busLog = [] ∧
  State.reset.outputs = [] ∧ State.reset.inputs = []

/-- 70_reset_and_hazards.md R331: at construction a cell is written exactly when `RESET_STATE` gives it a
value, and then holds it; the fault record is empty. The parameters are the ones given (R330). The model's
choices (log 15): an entry for a register the variant lacks gives nothing a value, and a value for the Game
Boy's F is stored through its mask. -/
def Obligations.ConstructionGivesResetState : Prop :=
  ∀ (cfg : Config) (rs : ResetState),
    (State.construct cfg rs).cfg = cfg ∧ (State.construct cfg rs).faultRecord = none ∧
    (∀ x, (∀ v, (x, v) ∉ rs.regs8) → (State.construct cfg rs).written8 x = false) ∧
    (∀ x v, x.inVariant cfg.variant = true → (x, v) ∈ rs.regs8 → (∀ w, (x, w) ∈ rs.regs8 → w = v) →
      (State.construct cfg rs).written8 x = true ∧ (State.construct cfg rs).reg8 x = stored8 cfg x v) ∧
    (∀ x, (∀ v, (x, v) ∉ rs.regs16) → (State.construct cfg rs).written16 x = false) ∧
    (∀ x v, x.inVariant cfg.variant = true → (x, v) ∈ rs.regs16 → (∀ w, (x, w) ∈ rs.regs16 → w = v) →
      (State.construct cfg rs).written16 x = true ∧ (State.construct cfg rs).reg16 x = v) ∧
    (∀ k, (∀ v, (k, v) ∉ rs.bytes) → Memory.read (State.construct cfg rs).mem k = none) ∧
    (∀ k v, (k, v) ∈ rs.bytes → (∀ w, (k, w) ∈ rs.bytes → w = v) →
      Memory.read (State.construct cfg rs).mem k = some v) ∧
    (State.construct cfg rs).Inv

/-- The invariant at reset. -/
def Obligations.ResetHasInvariant : Prop := State.reset.Inv

/-- The invariant (canonical memory, absent registers unwritten, F masked, the log routed, the fault record the last
error of a command) is kept by every step, from every state that meets it. The record's clause is the
model's choice: of two errors the record takes the later (log 7), and a host access's error leaves it as
it is (log 8). -/
def Obligations.StepKeepsInvariant : Prop := ∀ s t : State, s.Inv → step s = .next t → t.Inv

/-- What every step leaves alone or only adds to: the parameters are fixed (R330, R61), the fault record is
sticky (R306), the log and the outputs grow, a written cell stays written (10_state.md R44). -/
def Obligations.StepOnlyAdds : Prop :=
  ∀ s t : State, step s = .next t →
    t.cfg = s.cfg ∧ t.inputs = s.inputs.tail ∧
    (s.faultRecord.isSome = true → t.faultRecord.isSome = true) ∧
    s.outputs <:+ t.outputs ∧ s.busLog <:+ t.busLog ∧ s.draws ≤ t.draws ∧
    (∀ x, s.written8 x = true → t.written8 x = true) ∧
    (∀ x, s.written16 x = true → t.written16 x = true) ∧
    (∀ k, (Memory.read s.mem k).isSome = true → (Memory.read t.mem k).isSome = true)

/-- "Every operation … is available in every state for its VARIANT" (60_exceptions.md R315): no command stops the
machine; what a step refuses is a host access to a register the variant lacks (log 9), and it faults never. -/
def Obligations.EveryCommandAnswersNext : Prop :=
  (∀ (i : Instr) (s : State), ∃ t, exec i s = .next t) ∧
  (∀ (s : State) (f : Fault), step s ≠ .fault f) ∧
  (∀ (s : State) (r : Refusal), step s = .refused r ↔
    r = .hostRegisterAbsent ∧
      ((∃ x rest, s.inputs = .readReg8 x :: rest ∧ x.inVariant s.cfg.variant = false) ∨
       (∃ x v rest, s.inputs = .writeReg8 x v :: rest ∧ x.inVariant s.cfg.variant = false) ∨
       (∃ x rest, s.inputs = .readReg16 x :: rest ∧ x.inVariant s.cfg.variant = false) ∨
       (∃ x v rest, s.inputs = .writeReg16 x v :: rest ∧ x.inVariant s.cfg.variant = false)))

/-! ## Encoding -/

/-- Decoding the encoding of every well-formed command of either variant gives the command back. -/
def Obligations.DecodeOfEncode : Prop :=
  ∀ (v : Variant) (i : Instr), i.wellFormed v = true → decode v (encode i) = .ok i

/-- Every command word that decodes is the encoding of what it decodes to, and that is well formed: each command
has one encoding, and no bit of it is ignored. -/
def Obligations.EncodeOfDecode : Prop :=
  ∀ (v : Variant) (w : Command) (i : Instr), decode v w = .ok i → encode i = w ∧ i.wellFormed v = true

/-- An ill-formed term's encoding is refused, and by the check that `illFormed` names (30_encoding.md R111). -/
def Obligations.IllFormedIsRefusedByItsCheck : Prop :=
  ∀ (v : Variant) (i : Instr) (c : Check), i.illFormed v = some c → decode v (encode i) = .error c

/-- 30_encoding.md R113: no word that uses a reserved encoding decodes: OP, AUX, KIND, SEL by every row of R104, and
every reserved bit. -/
def Obligations.ReservedEncodingsRefused : Prop :=
  ∀ (v : Variant) (w : Command) (i : Instr), decode v w = .ok i →
    (cwOf w).extractLsb' 16 16 = 0 ∧
    (∃ o ∈ Op.all, o.code = (cwOf w).extractLsb' 0 8 ∧ o.inVariant v = true ∧
      o.auxLegal v ((cwOf w).extractLsb' 8 8) = true ∧
      (o = .nop → i = .nop) ∧ (i = .nop → o = .nop)) ∧
    (∀ d : BitVec 64, d = dstOf w ∨ d = srcOf w →
      d.extractLsb' 10 6 = 0 ∧ d.extractLsb' 24 8 = 0 ∧ d.extractLsb' 48 16 = 0 ∧
      (d.extractLsb' 0 4).toNat ≤ 10 ∧
      ((d.extractLsb' 0 4 = 1 ∨ ((d.extractLsb' 0 4 = 5 ∨ d.extractLsb' 0 4 = 6) ∧ d.getLsbD 9 = false)) →
        (d.extractLsb' 4 5).toNat ≤ (if v = .z80 then 17 else 7)) ∧
      (d.extractLsb' 0 4 = 2 → 8 ≤ (d.extractLsb' 4 5).toNat ∧
        (d.extractLsb' 4 5).toNat ≤ (if v = .z80 then 11 else 9)) ∧
      (d.extractLsb' 0 4 = 3 → (d.extractLsb' 4 5).toNat ≤ (if v = .z80 then 7 else 3)) ∧
      (d.extractLsb' 0 4 = 4 → (d.extractLsb' 4 5).toNat ≤ (if v = .z80 then 11 else 9) ∧
        (v = .gb → ¬(4 ≤ (d.extractLsb' 4 5).toNat ∧ (d.extractLsb' 4 5).toNat ≤ 7))) ∧
      ((d.extractLsb' 0 4 = 0 ∨ d.extractLsb' 0 4 = 7 ∨ d.extractLsb' 0 4 = 8 ∨ d.extractLsb' 0 4 = 9 ∨
          d.extractLsb' 0 4 = 10 ∨ ((d.extractLsb' 0 4 = 5 ∨ d.extractLsb' 0 4 = 6) ∧ d.getLsbD 9 = true)) →
        d.extractLsb' 4 5 = 0))

/-- The fields of an encoded command: OP and AUX of the control word (30_encoding.md R101, R107, R108, R109), and
KIND, SEL, OFFIMM, OFF8 and VALUE of a descriptor for each kind (R102 to R105). -/
def Obligations.CommandFields : Prop :=
  (∀ i : Instr, (cwOf (encode i)).extractLsb' 16 16 = 0 ∧ dstOf (encode i) = i.dstDesc.toBits ∧
    srcOf (encode i) = i.srcDesc.toBits) ∧
  (∀ (i : Instr) (o : Op) (n : Byte), i.op = o →
    (o, n) ∈ [(Op.nop, 0x00), (.ld8, 0x01), (.ld16, 0x02), (.push, 0x03), (.pop, 0x04), (.ex16, 0x05),
      (.exx, 0x06), (.add8, 0x10), (.adc8, 0x11), (.sub8, 0x12), (.sbc8, 0x13), (.and8, 0x14), (.xor8, 0x15),
      (.or8, 0x16), (.cp8, 0x17), (.inc8, 0x18), (.dec8, 0x19), (.neg, 0x1A), (.cpl, 0x1B), (.daa, 0x1C),
      (.scf, 0x1D), (.ccf, 0x1E)] ++
      [(Op.add16, 0x20), (.adc16, 0x21), (.sbc16, 0x22), (.inc16, 0x23), (.dec16, 0x24), (.addspe, 0x25),
      (.ldhlspe, 0x26), (.rlc, 0x30), (.rrc, 0x31), (.rl, 0x32), (.rr, 0x33), (.sla, 0x34), (.sra, 0x35),
      (.srl, 0x36), (.swap, 0x37), (.rlca, 0x38), (.rrca, 0x39), (.rla, 0x3A), (.rra, 0x3B), (.bit, 0x40),
      (.set, 0x41), (.res, 0x42), (.jp, 0x50), (.jr, 0x51), (.call, 0x52), (.ret, 0x53), (.djnz, 0x54)] →
    (cwOf (encode i)).extractLsb' 0 8 = n) ∧
  (∀ (b : Fin 8) (v : Val8) (d : Loc8), ∀ i ∈ [Instr.bit b v, .set b d, .res b d],
    ((cwOf (encode i)).extractLsb' 8 8).toNat = b.val) ∧
  (∀ (k : Cond) (n : Byte) (v : Val16) (w : Val8),
    (k, n) ∈ [(Cond.always, 0), (.nz, 1), (.z, 2), (.nc, 3), (.c, 4), (.po, 5), (.pe, 6), (.p, 7), (.m, 8)] →
    ∀ i ∈ [Instr.jp k v, .jr k w, .call k v, .ret k], (cwOf (encode i)).extractLsb' 8 8 = n) ∧
  (∀ i : Instr, i.op ∉ [Op.bit, .set, .res, .jp, .jr, .call, .ret] → (cwOf (encode i)).extractLsb' 8 8 = 0) ∧
  (∀ (x : Reg8) (n : Nat),
    (x, n) ∈ [(Reg8.b, 0), (.c, 1), (.d, 2), (.e, 3), (.h, 4), (.l, 5), (.f, 6), (.a, 7), (.b', 8), (.c', 9),
      (.d', 10), (.e', 11), (.h', 12), (.l', 13), (.f', 14), (.a', 15), (.i, 16), (.r, 17)] →
    (Loc8.reg x).desc.toBits = BitVec.ofNat 64 (16 * n + 1) ∧
    ∀ b : Word, (Loc8.pptr b (.reg x)).desc.toBits = BitVec.ofNat 64 (2 ^ 32 * b.toNat + 16 * n + 5) ∧
      (Loc16.pptr b (.reg x)).desc.toBits = BitVec.ofNat 64 (2 ^ 32 * b.toNat + 16 * n + 6)) ∧
  (∀ (y : Reg16) (n : Nat), (y, n) ∈ [(Reg16.sp, 8), (.pc, 9), (.ix, 10), (.iy, 11)] →
    (Loc16.reg y).desc.toBits = BitVec.ofNat 64 (16 * n + 2) ∧
    (Loc8.ptr (.reg y)).desc.toBits = BitVec.ofNat 64 (16 * n + 4)) ∧
  (∀ (p : Pair) (n : Nat),
    (p, n) ∈ [(Pair.bc, 0), (.de, 1), (.hl, 2), (.af, 3), (.bc', 4), (.de', 5), (.hl', 6), (.af', 7)] →
    (Loc16.pair p).desc.toBits = BitVec.ofNat 64 (16 * n + 3) ∧
    (Loc8.ptr (.pair p)).desc.toBits = BitVec.ofNat 64 (16 * n + 4)) ∧
  (∀ (b m v : Word) (o u : Byte),
    (Loc8.pptr b (.imm o)).desc.toBits = BitVec.ofNat 64 (2 ^ 32 * b.toNat + 2 ^ 16 * o.toNat + 2 ^ 9 + 5) ∧
    (Loc16.pptr b (.imm o)).desc.toBits = BitVec.ofNat 64 (2 ^ 32 * b.toNat + 2 ^ 16 * o.toNat + 2 ^ 9 + 6) ∧
    (Loc8.mem m).desc.toBits = BitVec.ofNat 64 (2 ^ 32 * m.toNat + 7) ∧
    (Loc16.mem m).desc.toBits = BitVec.ofNat 64 (2 ^ 32 * m.toNat + 8) ∧
    (Val8.imm u).desc.toBits = BitVec.ofNat 64 (2 ^ 32 * u.toNat + 9) ∧
    (Val16.imm v).desc.toBits = BitVec.ofNat 64 (2 ^ 32 * v.toNat + 10))

/-- Words written out from the spec's tables decode to what they stand for (30_encoding.md R117 and
95_test_vectors.md). A sanity check. -/
def Obligations.WrittenWordsDecode : Prop :=
  decode .z80 (command 0x00000010 0x0000000000000071 0x0000000000000024) =
    .ok (.add8 (.reg .a) (.loc (.ptr (.pair .hl)))) ∧
  decode .gb (command 0x00000001 0x0000FF0000FB0205 0x0000000000000071) =
    .ok (.ld8 (.pptr 0xFF00 (.imm 0xFB)) (.loc (.reg .a))) ∧
  decode .z80 (command 0x00000820 0 0) = .error .auxLegal ∧
  decode .z80 (command 0x00000352 0 0x000012340000000A) = .ok (.call .nc (.imm 0x1234)) ∧
  decode .gb (command 0x00000037 0x0000000000000071 0) = .ok (.swap (.reg .a)) ∧
  decode .z80 (command 0x00000037 0x0000000000000071 0) = .error .opVariant

/-- 30_encoding.md R112: a command that fails a check raises IllegalCommand with the command bits and the check's
name, before any access, and has no other effect. -/
def Obligations.IllegalCommandHasNoOtherEffect : Prop :=
  ∀ (s : State) (bits : Command) (rest : List Input) (c : Check), s.inputs = .command bits :: rest →
    decode s.cfg.variant bits = .error c →
    step s = .next { s with
      inputs := rest
      command := bits
      outputs := .error (.illegalCommand bits c) :: s.outputs
      faultRecord := some { error := .illegalCommand bits c, command := bits } }

/-- When the next input is a command whose word decodes to `i`, the step is `exec i` with the command taken from
the queue and latched. `withFetchWord` puts such an input first. -/
def Obligations.StepRunsDecodedCommand : Prop :=
  (∀ (s : State) (bits : Command) (rest : List Input) (i : Instr), s.inputs = .command bits :: rest →
    decode s.cfg.variant bits = .ok i →
    step s = exec i { s with inputs := rest, command := bits }) ∧
  (∀ (s : State) (nbits w : Nat) (i : Instr),
    decode s.cfg.variant (BitVec.ofNat 160 (w % 2 ^ nbits)) = .ok i →
    step (s.withFetchWord nbits w) = exec i { s with command := BitVec.ofNat 160 (w % 2 ^ nbits) })

/-- What the host may do between commands (70_reset_and_hazards.md R336, 20_memory.md R71): read and write
registers, and read and write bytes and words through a view of the bus or of one flat block, the word as its
two bytes, low first. A value or an error goes to the host; the fault record, the latched command and what
commands have handed out are as before, so nothing of it is observable as a command. The model's choices: an
empty queue idles (log 4), an error is handed to the host as such (log 8), the block of a view is the one the
host names (log 19), and its second address wraps (log 20). -/
def Obligations.HostAccessBetweenCommands : Prop :=
  ∀ (s u : State) (rest : List Input), u = { s with inputs := rest } →
    (s.inputs = [] → step s = .next s) ∧
    (∀ x v, s.inputs = .writeReg8 x v :: rest → x.inVariant s.cfg.variant = true →
      step s = .next (u.setReg8 x v)) ∧
    (∀ x v, s.inputs = .writeReg16 x v :: rest → x.inVariant s.cfg.variant = true →
      step s = .next (u.setReg16 x v)) ∧
    (∀ x, s.inputs = .readReg8 x :: rest → x.inVariant s.cfg.variant = true →
      (s.written8 x = true → step s = .next (u.emit (.byte (s.reg8 x)))) ∧
      (s.written8 x = false → step s = .next (u.emit (.hostError (.unwritten (.reg8 x)))))) ∧
    (∀ x, s.inputs = .readReg16 x :: rest → x.inVariant s.cfg.variant = true →
      (s.written16 x = true → step s = .next (u.emit (.word (s.reg16 x)))) ∧
      (s.written16 x = false → step s = .next (u.emit (.hostError (.unwritten (.reg16 x)))))) ∧
    (∀ base b t e, s.inputs = .viewRead8 .bus base :: rest →
      (busRead8 base u = .ok b t → step s = .next (t.emit (.byte b))) ∧
      (busRead8 base u = .error e t → step s = .next (t.emit (.hostError e)))) ∧
    (∀ base w t e, s.inputs = .viewRead16 .bus base :: rest →
      (memRead16 base u = .ok w t → step s = .next (t.emit (.word w))) ∧
      (memRead16 base u = .error e t → step s = .next (t.emit (.hostError e)))) ∧
    (∀ base b t e, s.inputs = .viewWrite8 .bus base b :: rest →
      (busWrite8 base b u = .ok () t → step s = .next t) ∧
      (busWrite8 base b u = .error e t → step s = .next (t.emit (.hostError e)))) ∧
    (∀ base w t e, s.inputs = .viewWrite16 .bus base w :: rest →
      (memWrite16 base w u = .ok () t → step s = .next t) ∧
      (memWrite16 base w u = .error e t → step s = .next (t.emit (.hostError e)))) ∧
    (∀ fb base b e, s.inputs = .viewRead8 (.block fb) base :: rest →
      (flatRead fb base u = .ok b u → step s = .next (u.emit (.byte b))) ∧
      (flatRead fb base u = .error e u → step s = .next (u.emit (.hostError e)))) ∧
    (∀ fb base lo hi e, s.inputs = .viewRead16 (.block fb) base :: rest →
      (flatRead fb base u = .ok lo u → flatRead fb (base + 1) u = .ok hi u →
        step s = .next (u.emit (.word (BitVec.ofNat 16 (hi.toNat * 256 + lo.toNat))))) ∧
      (flatRead fb base u = .error e u → step s = .next (u.emit (.hostError e))) ∧
      (flatRead fb base u = .ok lo u → flatRead fb (base + 1) u = .error e u →
        step s = .next (u.emit (.hostError e)))) ∧
    (∀ fb base b t e, s.inputs = .viewWrite8 (.block fb) base b :: rest →
      (flatWrite fb base b u = .ok () t → step s = .next t) ∧
      (flatWrite fb base b u = .error e u → step s = .next (u.emit (.hostError e)))) ∧
    (∀ fb base w t v e, s.inputs = .viewWrite16 (.block fb) base w :: rest →
      (flatWrite fb base (BitVec.ofNat 8 w.toNat) u = .ok () t →
        (flatWrite fb (base + 1) (BitVec.ofNat 8 (w.toNat / 256)) t = .ok () v → step s = .next v) ∧
        (flatWrite fb (base + 1) (BitVec.ofNat 8 (w.toNat / 256)) t = .error e t →
          step s = .next (t.emit (.hostError e)))) ∧
      (flatWrite fb base (BitVec.ofNat 8 w.toNat) u = .error e u → step s = .next (u.emit (.hostError e))) ∧
      (base = fb.last → fb.first ≤ base → (base = 0xFFFF → fb.first ≠ 0x0000) → step s = .next (State.emit
        { u with mem := Memory.write s.mem (fb.key base) (BitVec.ofNat 8 w.toNat) }
        (.hostError (.outOfRange (base + 1) fb.first fb.last .write))))) ∧
    (∀ x t, s.inputs = x :: rest → (∀ bits, x ≠ .command bits) → step s = .next t →
      t.faultRecord = s.faultRecord ∧ t.command = s.command ∧
      (t.outputs = s.outputs ∨ ∃ o : Output, o.forHost = true ∧ t.outputs = o :: s.outputs))

/-! ## The bus and memory -/

/-- 20_memory.md R60 and R61: a listener owns the addresses from first to last, both inclusive, and the route is the
first listener in list order that owns the address, or none. -/
def Obligations.RouteIsFirstOwner : Prop :=
  (∀ (l : Listener) (a : Addr), l.owns a = true ↔ l.first.toNat ≤ a.toNat ∧ a.toNat ≤ l.last.toNat) ∧
  (∀ (ls : List Listener) (a : Addr) (l : Listener), route ls a = some l ↔
    ∃ pre post, ls = pre ++ l :: post ∧ l.owns a = true ∧ ∀ m ∈ pre, m.owns a = false) ∧
  (∀ (ls : List Listener) (a : Addr), route ls a = none ↔ ∀ m ∈ ls, m.owns a = false)

/-- 20_memory.md R62, R63, R64 and R66: an access no listener owns raises UnmappedAddress and changes nothing; an
access a peripheral owns never fails, a read giving the next free value (the form of the free value is the
model's, log 5); an access a flat block owns is the block's own access, at the full address. Each access that
succeeds is delivered once, as one event; that one with no owner, or that the block refuses, is no event is
the model's choice (log 17). -/
def Obligations.BusAccessFollowsRoute : Prop :=
  ∀ (s : State) (a : Addr) (v : Byte),
    (route s.cfg.listeners a = none →
      busRead8 a s = .error (.unmappedAddress a .read) s ∧
      busWrite8 a v s = .error (.unmappedAddress a .write) s) ∧
    (∀ l n, route s.cfg.listeners a = some l → l.device = .peripheral n →
      busRead8 a s = .ok (Config.drawByte s.draws) { s with
        draws := s.draws + 1
        busLog := { device := .peripheral n, kind := .read, addr := a,
                    value := Config.drawByte s.draws } :: s.busLog } ∧
      busWrite8 a v s = .ok () { s with
        busLog := { device := .peripheral n, kind := .write, addr := a, value := v } :: s.busLog }) ∧
    (∀ l fb, route s.cfg.listeners a = some l → l.device = .flat fb →
      (∀ b t, flatRead fb a s = .ok b t → busRead8 a s = .ok b { t with
        busLog := { device := .flat fb, kind := .read, addr := a, value := b } :: s.busLog }) ∧
      (∀ e t, flatRead fb a s = .error e t → busRead8 a s = .error e t) ∧
      (∀ t, flatWrite fb a v s = .ok () t → busWrite8 a v s = .ok () { t with
        busLog := { device := .flat fb, kind := .write, addr := a, value := v } :: s.busLog }) ∧
      (∀ e t, flatWrite fb a v s = .error e t → busWrite8 a v s = .error e t))

/-- 20_memory.md R65 and 10_state.md R44: inside its window a flat block reads and writes byte a − first, an
unwritten byte raising Unwritten; outside it every access raises OutOfRange. An access that fails changes
nothing, and a read never does. -/
def Obligations.FlatBlockAccess : Prop :=
  ∀ (s : State) (fb : FlatBlock) (a : Addr) (v : Byte),
    (fb.first.toNat ≤ a.toNat → a.toNat ≤ fb.last.toNat →
      fb.key a = 65536 * fb.store + (a.toNat - fb.first.toNat) ∧
      flatWrite fb a v s = .ok () { s with mem := Memory.write s.mem (fb.key a) v } ∧
      (∀ b, Memory.read s.mem (fb.key a) = some b → flatRead fb a s = .ok b s) ∧
      (Memory.read s.mem (fb.key a) = none → flatRead fb a s = .error (.unwritten (.byte a)) s)) ∧
    (¬(fb.first.toNat ≤ a.toNat ∧ a.toNat ≤ fb.last.toNat) →
      flatRead fb a s = .error (.outOfRange a fb.first fb.last .read) s ∧
      flatWrite fb a v s = .error (.outOfRange a fb.first fb.last .write) s)

/-- "A byte read of flat memory returns the value of the most recent byte write to that address"
(20_memory.md R92): a write that succeeds is what the next read at the address gives, every other address
reads as before, and no register changes. -/
def Obligations.FlatByteReadsLastWrite : Prop :=
  ∀ (s t : State) (a : Addr) (v : Byte) (k : Nat), s.storeKey a = some k → busWrite8 a v s = .ok () t →
    t.byteAt a = some v ∧
    (∀ b, s.storeKey b ≠ some k → t.byteAt b = s.byteAt b) ∧
    (∃ u, busRead8 a t = .ok v u ∧ u.mem = t.mem ∧ u.regs8 = s.regs8 ∧ u.regs16 = s.regs16)

/-- The canonical form: two flat memories in it that read alike everywhere are equal, and a write keeps it. -/
def Obligations.CanonicalMemoryIsExtensional : Prop :=
  (∀ m n : Memory, Memory.wf m = true → Memory.wf n = true →
    (∀ k, Memory.read m k = Memory.read n k) → m = n) ∧
  (∀ (m : Memory) (k : Nat) (v : Byte), Memory.wf m = true → Memory.wf (Memory.write m k v) = true)

/-- 20_memory.md R67, R73, R74 and R69: a word is two byte accesses, the low byte at `a` and then the high byte at
a + 1 mod 2^16, each routed on its own. A failed first access is the end; a failed second leaves the first
done. -/
def Obligations.WordIsTwoBytesLowFirst : Prop :=
  ∀ (s : State) (a : Addr) (v : Word),
    (∀ lo hi s1 s2, busRead8 a s = .ok lo s1 → busRead8 (a + 1) s1 = .ok hi s2 →
      memRead16 a s = .ok (BitVec.ofNat 16 (hi.toNat * 256 + lo.toNat)) s2) ∧
    (∀ s1 s2, busWrite8 a (BitVec.ofNat 8 v.toNat) s = .ok () s1 →
      busWrite8 (a + 1) (BitVec.ofNat 8 (v.toNat / 256)) s1 = .ok () s2 → memWrite16 a v s = .ok () s2) ∧
    (∀ e t, busRead8 a s = .error e t → memRead16 a s = .error e t) ∧
    (∀ lo e s1 t, busRead8 a s = .ok lo s1 → busRead8 (a + 1) s1 = .error e t → memRead16 a s = .error e t) ∧
    (∀ e t, busWrite8 a (BitVec.ofNat 8 v.toNat) s = .error e t → memWrite16 a v s = .error e t) ∧
    (∀ e s1 t, busWrite8 a (BitVec.ofNat 8 v.toNat) s = .ok () s1 →
      busWrite8 (a + 1) (BitVec.ofNat 8 (v.toNat / 256)) s1 = .error e t → memWrite16 a v s = .error e t) ∧
    (∀ k j t, s.storeKey a = some k → s.storeKey (a + 1) = some j → k ≠ j → memWrite16 a v s = .ok () t →
      t.byteAt a = some (v.extractLsb' 0 8) ∧ t.byteAt (a + 1) = some (v.extractLsb' 8 8))

/-- The 8-bit operand kinds (20_memory.md R81 to R84, R86 to R88): registers, Pointers on a pair or a Register16,
PseudoPointers with a register or an immediate offset, memory at a fixed address, immediates. Reading an
unwritten register, and a read or a write at an address that depends on one, raises Unwritten (10_state.md
R44); for a Pointer on a pair it names an unwritten half. -/
def Obligations.OperandForms8 : Prop :=
  ∀ (s : State) (x : Reg8) (p : Pair) (y : Reg16) (base m : Word) (o v : Byte),
    (s.written8 x = true → readLoc8 (.reg x) s = .ok (s.reg8 x) s) ∧
    writeLoc8 (.reg x) v s = .ok () (s.setReg8 x v) ∧
    (s.written8 p.high = true → s.written8 p.low = true →
      readLoc8 (.ptr (.pair p)) s = busRead8 (s.reg8 p.high ++ s.reg8 p.low) s ∧
      writeLoc8 (.ptr (.pair p)) v s = busWrite8 (s.reg8 p.high ++ s.reg8 p.low) v s) ∧
    (s.written16 y = true →
      readLoc8 (.ptr (.reg y)) s = busRead8 (s.reg16 y) s ∧
      writeLoc8 (.ptr (.reg y)) v s = busWrite8 (s.reg16 y) v s) ∧
    (s.written8 x = true →
      readLoc8 (.pptr base (.reg x)) s = busRead8 (BitVec.ofInt 16 (base.toInt + (s.reg8 x).toInt)) s ∧
      writeLoc8 (.pptr base (.reg x)) v s = busWrite8 (BitVec.ofInt 16 (base.toInt + (s.reg8 x).toInt)) v s) ∧
    readLoc8 (.pptr base (.imm o)) s = busRead8 (BitVec.ofInt 16 (base.toInt + o.toInt)) s ∧
    writeLoc8 (.pptr base (.imm o)) v s = busWrite8 (BitVec.ofInt 16 (base.toInt + o.toInt)) v s ∧
    readLoc8 (.mem m) s = busRead8 m s ∧ writeLoc8 (.mem m) v s = busWrite8 m v s ∧
    readVal8 (.imm v) s = .ok v s ∧
    (s.written8 x = false → readLoc8 (.reg x) s = .error (.unwritten (.reg8 x)) s ∧
      readLoc8 (.pptr base (.reg x)) s = .error (.unwritten (.reg8 x)) s ∧
      writeLoc8 (.pptr base (.reg x)) v s = .error (.unwritten (.reg8 x)) s) ∧
    (s.written16 y = false → readLoc8 (.ptr (.reg y)) s = .error (.unwritten (.reg16 y)) s ∧
      writeLoc8 (.ptr (.reg y)) v s = .error (.unwritten (.reg16 y)) s) ∧
    (s.writtenPair p = false → ∃ q, (q = p.high ∨ q = p.low) ∧ s.written8 q = false ∧
      readLoc8 (.ptr (.pair p)) s = .error (.unwritten (.reg8 q)) s ∧
      writeLoc8 (.ptr (.pair p)) v s = .error (.unwritten (.reg8 q)) s)

/-- The 16-bit operand kinds (20_memory.md R81, R83, R85 to R88). Which half of a pair an Unwritten names when both
are unwritten, the high one, is the model's choice (log 12). -/
def Obligations.OperandForms16 : Prop :=
  ∀ (s : State) (x : Reg8) (p : Pair) (y : Reg16) (base m v : Word) (o : Byte),
    (s.written16 y = true → readLoc16 (.reg y) s = .ok (s.reg16 y) s) ∧
    writeLoc16 (.reg y) v s = .ok () (s.setReg16 y v) ∧
    (s.written8 p.high = true → s.written8 p.low = true →
      readLoc16 (.pair p) s = .ok (s.reg8 p.high ++ s.reg8 p.low) s) ∧
    writeLoc16 (.pair p) v s =
      .ok () ((s.setReg8 p.high (v.extractLsb' 8 8)).setReg8 p.low (v.extractLsb' 0 8)) ∧
    (s.written8 x = true →
      readLoc16 (.pptr base (.reg x)) s = memRead16 (BitVec.ofInt 16 (base.toInt + (s.reg8 x).toInt)) s ∧
      writeLoc16 (.pptr base (.reg x)) v s = memWrite16 (BitVec.ofInt 16 (base.toInt + (s.reg8 x).toInt)) v s) ∧
    readLoc16 (.pptr base (.imm o)) s = memRead16 (BitVec.ofInt 16 (base.toInt + o.toInt)) s ∧
    writeLoc16 (.pptr base (.imm o)) v s = memWrite16 (BitVec.ofInt 16 (base.toInt + o.toInt)) v s ∧
    readLoc16 (.mem m) s = memRead16 m s ∧ writeLoc16 (.mem m) v s = memWrite16 m v s ∧
    readVal16 (.imm v) s = .ok v s ∧
    (s.written16 y = false → readLoc16 (.reg y) s = .error (.unwritten (.reg16 y)) s) ∧
    (s.written8 x = false → readLoc16 (.pptr base (.reg x)) s = .error (.unwritten (.reg8 x)) s ∧
      writeLoc16 (.pptr base (.reg x)) v s = .error (.unwritten (.reg8 x)) s) ∧
    (s.written8 p.high = false → readLoc16 (.pair p) s = .error (.unwritten (.reg8 p.high)) s) ∧
    (s.written8 p.high = true → s.written8 p.low = false →
      readLoc16 (.pair p) s = .error (.unwritten (.reg8 p.low)) s)

/-! ## Registers and flag views -/

/-- 10_state.md R20, R23, R34 and R44: a write is unconditional, makes the cell written and is what the next read gives (the
Game Boy's F under `GB_F_LOW_MASK` keeps its upper nibble only); no other cell changes. -/
def Obligations.RegisterWriteThenRead : Prop :=
  ∀ (s : State) (x y : Reg8) (z w : Reg16) (v : Byte) (u : Word),
    (s.setReg8 x v).written8 x = true ∧
    (s.setReg8 x v).reg8 x =
      (if x = .f ∧ s.cfg.variant = .gb ∧ s.cfg.gbFLowMask = true then v &&& 0xF0 else v) ∧
    (y ≠ x → (s.setReg8 x v).regs8.get y = s.regs8.get y) ∧ (s.setReg8 x v).regs16 = s.regs16 ∧
    (s.setReg16 z u).written16 z = true ∧ (s.setReg16 z u).reg16 z = u ∧
    (w ≠ z → (s.setReg16 z u).regs16.get w = s.regs16.get w) ∧ (s.setReg16 z u).regs8 = s.regs8

/-- 10_state.md R25, R26 and R27: a pair is its two halves. -/
def Obligations.PairIsItsHalves : Prop :=
  ∀ (s : State) (p : Pair) (w : Word) (v : Byte),
    s.pair p = BitVec.ofNat 16 ((s.reg8 p.high).toNat * 256 + (s.reg8 p.low).toNat) ∧
    (s.setPair p w).reg8 p.high = BitVec.ofNat 8 (w.toNat / 256) ∧
    (s.setPair p w).reg8 p.low = stored8 s.cfg p.low (BitVec.ofNat 8 (w.toNat % 256)) ∧
    (p ≠ .af → (s.setPair p w).pair p = w) ∧
    (s.setPair p w).writtenPair p = true ∧
    (∀ x, x ≠ p.high → x ≠ p.low → (s.setPair p w).regs8.get x = s.regs8.get x) ∧
    ((s.setReg8 p.high v).pair p).extractLsb' 8 8 = v ∧
    ((s.setReg8 p.low v).pair p).extractLsb' 0 8 = stored8 s.cfg p.low v

/-- 10_state.md R30 with R29, R31 and R32: after a write of a flag view the view reads what was written and the
seven sibling bits are unchanged, and the two variants' flags sit at the bits of their tables. -/
def Obligations.FlagViewWritesOneBit : Prop :=
  (∀ (v : Byte) (n m : Nat) (b : Bool), n < 8 →
    flagRead (flagWrite v n b) n = b ∧ (m ≠ n → flagRead (flagWrite v n b) m = flagRead v m)) ∧
  (∀ (v : Byte) (n : Nat), flagRead v n = decide (v.toNat / 2 ^ n % 2 = 1)) ∧
  (∀ v : Byte, [Flag.s, .z, .h, .pv, .n, .c].map (fun f => flagOf .z80 f v) =
    [flagRead v 7, flagRead v 6, flagRead v 4, flagRead v 2, flagRead v 1, flagRead v 0]) ∧
  (∀ v : Byte, [Flag.z, .n, .h, .c].map (fun f => flagOf .gb f v) =
    [flagRead v 7, flagRead v 6, flagRead v 5, flagRead v 4])

/-! ## The flag-condition library -/

/-- What the predicates mean as arithmetic: the overflow tests are the two's-complement results that do not fit, the
carries and borrows the bits that leave the width, each with and without a carry-in. The two-operand forms are
the three-operand ones at carry 0. -/
def Obligations.CarryAndOverflowAreArithmetic : Prop :=
  (∀ (a b : Byte) (c : Bool),
    (addOverflow a b (a + b + BitVec.ofNat 8 (bit c)) = true ↔
      (a + b + BitVec.ofNat 8 (bit c)).toInt ≠ a.toInt + b.toInt + (bit c : Int)) ∧
    (subOverflow a b (a - b - BitVec.ofNat 8 (bit c)) = true ↔
      (a - b - BitVec.ofNat 8 (bit c)).toInt ≠ a.toInt - b.toInt - (bit c : Int)) ∧
    (a.toNat + b.toNat + bit c =
      256 * bit (addCarry8c a b c) + (a + b + BitVec.ofNat 8 (bit c)).toNat) ∧
    (a.toNat + 256 * bit (subBorrowC a b c) =
      b.toNat + bit c + (a - b - BitVec.ofNat 8 (bit c)).toNat)) ∧
  (∀ a b : Byte, addCarry8 a b = addCarry8c a b false ∧ subBorrow a b = subBorrowC a b false ∧
    subHalfBorrow a b = subHalfBorrowC a b false ∧
    addHalfCarry8 a b = decide (a.toNat % 16 + b.toNat % 16 ≥ 16) ∧
    subHalfBorrow a b = decide (a.toNat % 16 < b.toNat % 16)) ∧
  (∀ h a b : Word, addCarry16 a b = addCarry16c a b false ∧ addHalfCarry16 h a b = addHalfCarry16c h a b false) ∧
  (∀ (a b : Word) (c : Bool),
    (addOverflow16 a b (a + b + BitVec.ofNat 16 (bit c)) = true ↔
      (a + b + BitVec.ofNat 16 (bit c)).toInt ≠ a.toInt + b.toInt + (bit c : Int)) ∧
    (subOverflow16 a b (a - b - BitVec.ofNat 16 (bit c)) = true ↔
      (a - b - BitVec.ofNat 16 (bit c)).toInt ≠ a.toInt - b.toInt - (bit c : Int)) ∧
    (a.toNat + b.toNat + bit c =
      65536 * bit (addCarry16c a b c) + (a + b + BitVec.ofNat 16 (bit c)).toNat) ∧
    (a.toNat + 65536 * bit (subBorrow16 a b c) =
      b.toNat + bit c + (a - b - BitVec.ofNat 16 (bit c)).toNat))

/-- 40_flag_library.md R142 and R146: parity is true exactly when the number of set bits is even, and the
three-operand half-carry's two forms differ exactly when the nibble sum is 0x0F and the carry-in 1, the `Or`
form never seeing the carry-in. -/
def Obligations.ParityAndHalfCarryCombine : Prop :=
  (∀ v : Byte, parity v = decide (((List.range 8).countP (fun n => v.toNat / 2 ^ n % 2 = 1)) % 2 = 0)) ∧
  (∀ (a b : Byte) (c : Bool),
    addHalfCarry8c .or a b c = addHalfCarry8 a b ∧
    addHalfCarry8c .add a b c = decide (a.toNat % 16 + b.toNat % 16 + bit c ≥ 16) ∧
    (addHalfCarry8c .or a b c ≠ addHalfCarry8c .add a b c ↔
      a.toNat % 16 + b.toNat % 16 = 15 ∧ c = true))

/-- 40_flag_library.md R155 to R158: the shifts as numbers, and the rotates, which lose no bit. -/
def Obligations.ShiftsAndRotates : Prop :=
  ∀ x : Byte,
    (shiftLeft x).toNat = x.toNat * 2 % 256 ∧
    (logicalShiftRight x).toNat = x.toNat / 2 ∧
    (arithmeticShiftRight x).toInt = x.toInt / 2 ∧
    (rotateLeft x).toNat = x.toNat * 2 % 256 + x.toNat / 128 ∧
    (rotateRight x).toNat = x.toNat / 2 + x.toNat % 2 * 128 ∧
    rotateRight (rotateLeft x) = x ∧ rotateLeft (rotateRight x) = x

/-! ## Results, flags and errors: transfer -/

/-- 41_transfer.md R180, R181 and R182: NOP changes nothing; LD8 and LD16 read SRC and then write DST; no flag is written as a
flag. The first access that fails ends the command; LD8's failed write of DST changes nothing. -/
def Obligations.NopAndLoads : Prop :=
  (∀ s : State, exec .nop s = .next (s.complete s)) ∧
  (∀ (s : State) (d : Loc8) (v : Val8), s.readsVal8 v = true → s.writes8 d = true →
    ∃ a s1 t, readVal8 v s = .ok a s1 ∧ writeLoc8 d a s1 = .ok () t ∧
      exec (.ld8 d v) s = .next (t.complete s)) ∧
  (∀ (s : State) (d : Loc16) (v : Val16), s.readsVal16 v = true → s.writes16 d = true →
    ∃ a s1 t, readVal16 v s = .ok a s1 ∧ writeLoc16 d a s1 = .ok () t ∧
      exec (.ld16 d v) s = .next (t.complete s)) ∧
  (∀ (s s1 t : State) (d : Loc8) (v : Val8) (a : Byte) (e : Error),
    (readVal8 v s = .error e t → (Instr.ld8 d v).abortsWith s e t) ∧
    (readVal8 v s = .ok a s1 → writeLoc8 d a s1 = .error e t → (Instr.ld8 d v).abortsWith s e t ∧ t = s1)) ∧
  (∀ (s s1 t : State) (d : Loc16) (v : Val16) (a : Word) (e : Error),
    (readVal16 v s = .error e t → (Instr.ld16 d v).abortsWith s e t) ∧
    (readVal16 v s = .ok a s1 → writeLoc16 d a s1 = .error e t → (Instr.ld16 d v).abortsWith s e t))

/-- 41_transfer.md R183 and R184: PUSH reads SRC, then decrements SP by 2 and writes the word there, low byte first;
POP reads the word at SP, then increments SP by 2, then writes DST. A PUSH whose stack write fails leaves SP
decremented; a POP whose stack read fails leaves SP unchanged. -/
def Obligations.PushAndPop : Prop :=
  (∀ (s : State) (v : Val16), s.readsVal16 v = true → s.written16 .sp = true →
    s.busWrites16 (s.reg16 .sp - 2) = true →
    ∃ a s1 t, readVal16 v s = .ok a s1 ∧
      memWrite16 (s.reg16 .sp - 2) a (s1.setReg16 .sp (s.reg16 .sp - 2)) = .ok () t ∧
      t.reg16 .sp = s.reg16 .sp - 2 ∧ exec (.push v) s = .next (t.complete s)) ∧
  (∀ (s : State) (d : Loc16), s.written16 .sp = true → s.busReads16 (s.reg16 .sp) = true →
    s.writes16 d = true →
    ∃ a s1 t, memRead16 (s.reg16 .sp) s = .ok a s1 ∧
      writeLoc16 d a (s1.setReg16 .sp (s.reg16 .sp + 2)) = .ok () t ∧
      exec (.pop d) s = .next (t.complete s)) ∧
  (∀ (s s1 t : State) (v : Val16) (a : Word) (e : Error),
    (readVal16 v s = .error e t → (Instr.push v).abortsWith s e t) ∧
    (readVal16 v s = .ok a s1 → s1.written16 .sp = false →
      (Instr.push v).abortsWith s (.unwritten (.reg16 .sp)) s1) ∧
    (readVal16 v s = .ok a s1 → s1.written16 .sp = true →
      memWrite16 (s1.reg16 .sp - 2) a (s1.setReg16 .sp (s1.reg16 .sp - 2)) = .error e t →
      (Instr.push v).abortsWith s e t ∧ t.reg16 .sp = s.reg16 .sp - 2)) ∧
  (∀ (s s1 t : State) (d : Loc16) (a : Word) (e : Error),
    (s.written16 .sp = false → (Instr.pop d).abortsWith s (.unwritten (.reg16 .sp)) s) ∧
    (s.written16 .sp = true → memRead16 (s.reg16 .sp) s = .error e t →
      (Instr.pop d).abortsWith s e t ∧ t.reg16 .sp = s.reg16 .sp) ∧
    (s.written16 .sp = true → memRead16 (s.reg16 .sp) s = .ok a s1 →
      writeLoc16 d a (s1.setReg16 .sp (s.reg16 .sp + 2)) = .error e t → (Instr.pop d).abortsWith s e t))

/-- 41_transfer.md R185: EX16 reads DST and SRC, then writes DST, then SRC. The hypothesis `exchangeWrites` says that the
second write succeeds at the address SRC has once DST is written. -/
def Obligations.ExchangeWords : Prop :=
  (∀ (s : State) (d e : Loc16), s.reads16 d = true → s.reads16 e = true →
    s.exchangeWrites d e →
    ∃ va vb s1 s2 s3 t, readLoc16 d s = .ok va s1 ∧ readLoc16 e s1 = .ok vb s2 ∧
      writeLoc16 d vb s2 = .ok () s3 ∧ writeLoc16 e va s3 = .ok () t ∧
      exec (.ex16 d e) s = .next (t.complete s)) ∧
  (∀ (s s1 s2 s3 t : State) (d e : Loc16) (va vb : Word) (err : Error),
    (readLoc16 d s = .error err t → (Instr.ex16 d e).abortsWith s err t) ∧
    (readLoc16 d s = .ok va s1 → readLoc16 e s1 = .error err t → (Instr.ex16 d e).abortsWith s err t) ∧
    (readLoc16 d s = .ok va s1 → readLoc16 e s1 = .ok vb s2 → writeLoc16 d vb s2 = .ok () s3 →
      writeLoc16 e va s3 = .error err t → (Instr.ex16 d e).abortsWith s err t))

/-- 41_transfer.md R186: EXX exchanges BC, DE and HL with BC', DE' and HL', changes nothing else, and two in a row
restore every register; with one of the twelve halves unwritten it ends with Unwritten of one of them and has exchanged nothing: that it reads them all before it
writes (40_flag_library.md R161) is read beside R186's loop (DEDUCED, log 18). Refused on the Game Boy. -/
def Obligations.ExchangeSets : Prop :=
  (∀ s : State, s.writtenPair .bc = true → s.writtenPair .bc' = true → s.writtenPair .de = true →
    s.writtenPair .de' = true → s.writtenPair .hl = true → s.writtenPair .hl' = true →
    ∃ t : State, exec .exx s = .next (t.complete s) ∧
      t = { s with regs8 := { s.regs8 with
        b := s.regs8.b', c := s.regs8.c', d := s.regs8.d', e := s.regs8.e', h := s.regs8.h', l := s.regs8.l',
        b' := s.regs8.b, c' := s.regs8.c, d' := s.regs8.d, e' := s.regs8.e, h' := s.regs8.h,
        l' := s.regs8.l } } ∧
      ∃ u : State, exec .exx (t.complete s) = .next u ∧ u.regs8 = s.regs8 ∧ u.regs16 = s.regs16 ∧
        u.mem = s.mem) ∧
  (∀ (s : State) (x : Reg8), x ∈ [Reg8.b, .c, .b', .c', .d, .e, .d', .e', .h, .l, .h', .l'] →
    s.written8 x = false →
    ∃ y ∈ [Reg8.b, .c, .b', .c', .d, .e, .d', .e', .h, .l, .h', .l'],
      s.written8 y = false ∧ (Instr.exx).abortsWith s (.unwritten (.reg8 y)) s) ∧
  decode .gb (encode .exx) = .error .opVariant

/-! ## Results, flags and errors: 8-bit arithmetic and logic -/

/-- 42_alu8.md R200 and R202: ADD8 and SUB8. An unwritten F ends either at the flag phase, after DST is
written (40_flag_library.md R160, 10_state.md R44, 60_exceptions.md R305; vector V15; log 16). -/
def Obligations.AddAndSubtract8 : Prop :=
  (∀ (s : State) (d : Loc8) (v : Val8), s.reads8 d = true → s.readsVal8 v = true →
    s.written8 .f = true →
    (∃ a b s1 s2 s3 t, readLoc8 d s = .ok a s1 ∧ readVal8 v s1 = .ok b s2 ∧
      writeLoc8 d (a + b) s2 = .ok () s3 ∧
      s3.FlagsSet t
        { s := some (isNegative8 (a + b)), z := some (isZero8 (a + b)), h := some (addHalfCarry8 a b),
          pv := some (addOverflow a b (a + b)), n := some false, c := some (addCarry8 a b) }
        { z := some (isZero8 (a + b)), n := some false, h := some (addHalfCarry8 a b),
          c := some (addCarry8 a b) } ∧
      exec (.add8 d v) s = .next (t.complete s)) ∧
    (∃ a b s1 s2 s3 t, readLoc8 d s = .ok a s1 ∧ readVal8 v s1 = .ok b s2 ∧
      writeLoc8 d (a - b) s2 = .ok () s3 ∧
      s3.FlagsSet t
        { s := some (isNegative8 (a - b)), z := some (isZero8 (a - b)), h := some (subHalfBorrow a b),
          pv := some (subOverflow a b (a - b)), n := some true, c := some (subBorrow a b) }
        { z := some (isZero8 (a - b)), n := some true, h := some (subHalfBorrow a b),
          c := some (subBorrow a b) } ∧
      exec (.sub8 d v) s = .next (t.complete s))) ∧
  (∀ (d : Loc8) (v : Val8), (Instr.add8 d v).abortsBinary8 d v (fun a b => a + b) ∧
    (Instr.sub8 d v).abortsBinary8 d v (fun a b => a - b))

/-- 42_alu8.md R201 and R203: ADC8 and SBC8; `c` is the Carry flag at the start of the command (R162). -/
def Obligations.AddAndSubtractWithCarry8 : Prop :=
  (∀ (s : State) (d : Loc8) (v : Val8), s.reads8 d = true → s.readsVal8 v = true →
    s.written8 .f = true →
    (∃ a b r c s1 s2 s3 t, c = s.flag .c ∧ readLoc8 d s = .ok a s1 ∧ readVal8 v s1 = .ok b s2 ∧
      r = a + b + BitVec.ofNat 8 (bit c) ∧ writeLoc8 d r s2 = .ok () s3 ∧
      s3.FlagsSet t
        { s := some (isNegative8 r), z := some (isZero8 r),
          h := some (addHalfCarry8c s.cfg.hc8Combine a b c),
          pv := some (addOverflow a b r), n := some false, c := some (addCarry8c a b c) }
        { z := some (isZero8 r), n := some false, h := some (addHalfCarry8c s.cfg.hc8Combine a b c),
          c := some (addCarry8c a b c) } ∧
      exec (.adc8 d v) s = .next (t.complete s)) ∧
    (∃ a b r c s1 s2 s3 t, c = s.flag .c ∧ readLoc8 d s = .ok a s1 ∧ readVal8 v s1 = .ok b s2 ∧
      r = a - b - BitVec.ofNat 8 (bit c) ∧ writeLoc8 d r s2 = .ok () s3 ∧
      s3.FlagsSet t
        { s := some (isNegative8 r), z := some (isZero8 r), h := some (subHalfBorrowC a b c),
          pv := some (subOverflow a b r), n := some true, c := some (subBorrowC a b c) }
        { z := some (isZero8 r), n := some true, h := some (subHalfBorrowC a b c),
          c := some (subBorrowC a b c) } ∧
      exec (.sbc8 d v) s = .next (t.complete s))) ∧
  (∀ (d : Loc8) (v : Val8),
    (Instr.adc8 d v).abortsBinary8c d v ∧
    (Instr.sbc8 d v).abortsBinary8c d v)

/-- 42_alu8.md R204, R205 and R206: AND8, XOR8 and OR8. An unwritten F ends each at the flag phase, after DST is
written (40_flag_library.md R160, 10_state.md R44, 60_exceptions.md R305; vector V15; log 16). -/
def Obligations.BitwiseLogic8 : Prop :=
  (∀ (s : State) (d : Loc8) (v : Val8), s.reads8 d = true → s.readsVal8 v = true →
    s.written8 .f = true →
    (∃ a b s1 s2 s3 t, readLoc8 d s = .ok a s1 ∧ readVal8 v s1 = .ok b s2 ∧
      writeLoc8 d (a &&& b) s2 = .ok () s3 ∧
      s3.FlagsSet t
        { s := some (isNegative8 (a &&& b)), z := some (isZero8 (a &&& b)), h := some true,
          pv := some (parity (a &&& b)), n := some false, c := some false }
        { z := some (isZero8 (a &&& b)), n := some false, h := some true, c := some false } ∧
      exec (.and8 d v) s = .next (t.complete s)) ∧
    (∃ a b s1 s2 s3 t, readLoc8 d s = .ok a s1 ∧ readVal8 v s1 = .ok b s2 ∧
      writeLoc8 d (a ^^^ b) s2 = .ok () s3 ∧
      s3.FlagsSet t
        { s := some (isNegative8 (a ^^^ b)), z := some (isZero8 (a ^^^ b)), h := some false,
          pv := some (parity (a ^^^ b)), n := some false, c := some false }
        { z := some (isZero8 (a ^^^ b)), n := some false, h := some false, c := some false } ∧
      exec (.xor8 d v) s = .next (t.complete s)) ∧
    (∃ a b s1 s2 s3 t, readLoc8 d s = .ok a s1 ∧ readVal8 v s1 = .ok b s2 ∧
      writeLoc8 d (a ||| b) s2 = .ok () s3 ∧
      s3.FlagsSet t
        { s := some (isNegative8 (a ||| b)), z := some (isZero8 (a ||| b)), h := some false,
          pv := some (parity (a ||| b)), n := some false, c := some false }
        { z := some (isZero8 (a ||| b)), n := some false, h := some false, c := some false } ∧
      exec (.or8 d v) s = .next (t.complete s))) ∧
  (∀ (d : Loc8) (v : Val8), (Instr.and8 d v).abortsBinary8 d v (fun a b => a &&& b) ∧
    (Instr.xor8 d v).abortsBinary8 d v (fun a b => a ^^^ b) ∧
    (Instr.or8 d v).abortsBinary8 d v (fun a b => a ||| b))

/-- 42_alu8.md R207: CP8 sets SUB8's flags and writes no operand. -/
def Obligations.Compare8 : Prop :=
  (∀ (s : State) (d v : Val8), s.readsVal8 d = true → s.readsVal8 v = true → s.written8 .f = true →
    ∃ a b s1 s2 t, readVal8 d s = .ok a s1 ∧ readVal8 v s1 = .ok b s2 ∧
      s2.FlagsSet t
        { s := some (isNegative8 (a - b)), z := some (isZero8 (a - b)), h := some (subHalfBorrow a b),
          pv := some (subOverflow a b (a - b)), n := some true, c := some (subBorrow a b) }
        { z := some (isZero8 (a - b)), n := some true, h := some (subHalfBorrow a b),
          c := some (subBorrow a b) } ∧
      exec (.cp8 d v) s = .next (t.complete s)) ∧
  (∀ (s s1 s2 : State) (d v : Val8) (a b : Byte) (e : Error),
    (readVal8 d s = .error e s1 → (Instr.cp8 d v).abortsWith s e s1) ∧
    (readVal8 d s = .ok a s1 → readVal8 v s1 = .error e s2 → (Instr.cp8 d v).abortsWith s e s2) ∧
    (readVal8 d s = .ok a s1 → readVal8 v s1 = .ok b s2 → s2.written8 .f = false →
      (Instr.cp8 d v).abortsWith s (.unwritten (.reg8 .f)) s2))

/-- 42_alu8.md R208 and R209: INC8 and DEC8, which leave C unaffected. An unwritten F ends either at the flag phase, after DST is
written (40_flag_library.md R160, 10_state.md R44, 60_exceptions.md R305; vector V15; log 16). -/
def Obligations.IncrementAndDecrement8 : Prop :=
  (∀ (s : State) (d : Loc8), s.reads8 d = true → s.written8 .f = true →
    (∃ a s1 s2 t, readLoc8 d s = .ok a s1 ∧ writeLoc8 d (a + 1) s1 = .ok () s2 ∧
      s2.FlagsSet t
        { s := some (isNegative8 (a + 1)), z := some (isZero8 (a + 1)), h := some (addHalfCarry8 a 1),
          pv := some (addOverflow a 1 (a + 1)), n := some false }
        { z := some (isZero8 (a + 1)), n := some false, h := some (addHalfCarry8 a 1) } ∧
      exec (.inc8 d) s = .next (t.complete s)) ∧
    (∃ a s1 s2 t, readLoc8 d s = .ok a s1 ∧ writeLoc8 d (a - 1) s1 = .ok () s2 ∧
      s2.FlagsSet t
        { s := some (isNegative8 (a - 1)), z := some (isZero8 (a - 1)), h := some (subHalfBorrow a 1),
          pv := some (subOverflow a 1 (a - 1)), n := some true }
        { z := some (isZero8 (a - 1)), n := some true, h := some (subHalfBorrow a 1) } ∧
      exec (.dec8 d) s = .next (t.complete s))) ∧
  (∀ d : Loc8, (Instr.inc8 d).abortsUnary8 d (fun a => a + 1) ∧ (Instr.dec8 d).abortsUnary8 d (fun a => a - 1))

/-- 42_alu8.md R210 and R211: NEG (Z80) and CPL act on A. NEG is refused on the Game Boy. An unwritten F ends either
at the flag phase, after A is written (40_flag_library.md R160, 10_state.md R44, 60_exceptions.md R305;
vector V15; log 16). -/
def Obligations.NegateAndComplement : Prop :=
  (∀ s : State, s.written8 .a = true → s.written8 .f = true →
    (s.cfg.variant = .z80 → ∃ t,
      (s.setReg8 .a (0 - s.reg8 .a)).FlagsSet t
        { s := some (isNegative8 (0 - s.reg8 .a)), z := some (isZero8 (0 - s.reg8 .a)),
          h := some (subHalfBorrow 0 (s.reg8 .a)), pv := some (subOverflow 0 (s.reg8 .a) (0 - s.reg8 .a)),
          n := some true, c := some (subBorrow 0 (s.reg8 .a)) } {} ∧
      exec .neg s = .next (t.complete s)) ∧
    (∃ t, (s.setReg8 .a (s.reg8 .a ^^^ 0xFF)).FlagsSet t
        { h := some true, n := some true } { n := some true, h := some true } ∧
      exec .cpl s = .next (t.complete s))) ∧
  (∀ s : State,
    (s.written8 .a = false → (Instr.neg).abortsWith s (.unwritten (.reg8 .a)) s ∧
      (Instr.cpl).abortsWith s (.unwritten (.reg8 .a)) s) ∧
    (s.written8 .a = true → s.written8 .f = false →
      (s.cfg.variant = .z80 →
        (Instr.neg).abortsWith s (.unwritten (.reg8 .f)) (s.setReg8 .a (0 - s.reg8 .a))) ∧
      (Instr.cpl).abortsWith s (.unwritten (.reg8 .f)) (s.setReg8 .a (s.reg8 .a ^^^ 0xFF)))) ∧
  decode .gb (encode .neg) = .error .opVariant

/-- 42_alu8.md R212: DAA by the two variants' pseudocode, on numbers; N is unaffected. An unwritten A or F ends it
with nothing changed. -/
def Obligations.DecimalAdjust : Prop :=
  (∀ s : State, s.written8 .a = true → s.written8 .f = true →
    (s.cfg.variant = .z80 → ∃ (r : Byte) (h2 c2 : Bool) (diff : Nat) (t : State),
      diff = (if s.flag .h = true ∨ (s.reg8 .a).toNat % 16 > 9 then 0x06 else 0) +
        (if s.flag .c = true ∨ (s.reg8 .a).toNat > 0x99 then 0x60 else 0) ∧
      c2 = (s.flag .c || decide ((s.reg8 .a).toNat > 0x99)) ∧
      (s.flag .n = false → r = s.reg8 .a + BitVec.ofNat 8 diff ∧ h2 = decide ((s.reg8 .a).toNat % 16 > 9)) ∧
      (s.flag .n = true → r = s.reg8 .a - BitVec.ofNat 8 diff ∧
        h2 = (s.flag .h && decide ((s.reg8 .a).toNat % 16 < 6))) ∧
      (s.setReg8 .a r).FlagsSet t
        { s := some (isNegative8 r), z := some (isZero8 r), h := some h2, pv := some (parity r), c := some c2 }
        {} ∧
      exec .daa s = .next (t.complete s)) ∧
    (s.cfg.variant = .gb → ∃ (r : Byte) (c2 : Bool) (t : State),
      (s.flag .n = false →
        c2 = (s.flag .c || decide ((s.reg8 .a).toNat > 0x99)) ∧
        r = s.reg8 .a + (if c2 = true then 0x60 else 0) +
          (if s.flag .h = true ∨ (s.reg8 .a).toNat % 16 > 9 then 0x06 else 0)) ∧
      (s.flag .n = true → c2 = s.flag .c ∧
        r = s.reg8 .a - (if s.flag .c = true then 0x60 else 0) - (if s.flag .h = true then 0x06 else 0)) ∧
      (s.setReg8 .a r).FlagsSet t {} { z := some (isZero8 r), h := some false, c := some c2 } ∧
      exec .daa s = .next (t.complete s))) ∧
  (∀ s : State,
    (s.written8 .a = false → (Instr.daa).abortsWith s (.unwritten (.reg8 .a)) s) ∧
    (s.written8 .a = true → s.written8 .f = false → (Instr.daa).abortsWith s (.unwritten (.reg8 .f)) s))

/-- 42_alu8.md R213 and R214: SCF sets the carry, CCF complements it; H after CCF is the old carry on the Z80 and 0
on the Game Boy. An unwritten F ends either with nothing changed. -/
def Obligations.SetAndComplementCarry : Prop :=
  (∀ s : State, s.written8 .f = true →
    (∃ t, s.FlagsSet t { h := some false, n := some false, c := some true }
        { n := some false, h := some false, c := some true } ∧
      exec .scf s = .next (t.complete s)) ∧
    (∃ t, s.FlagsSet t { h := some (s.flag .c), n := some false, c := some (!s.flag .c) }
        { n := some false, h := some false, c := some (!s.flag .c) } ∧
      exec .ccf s = .next (t.complete s))) ∧
  (∀ s : State, s.written8 .f = false → (Instr.scf).abortsWith s (.unwritten (.reg8 .f)) s ∧
    (Instr.ccf).abortsWith s (.unwritten (.reg8 .f)) s)

/-! ## Results, flags and errors: 16-bit arithmetic -/

/-- 43_alu16.md R230: ADD16; S, Z and PV are unaffected, H is tested at `HC16_THRESHOLD`
(40_flag_library.md R147). An unwritten F ends it at the flag phase, after DST is written (R160, 10_state.md
R44, 60_exceptions.md R305; vector V15; log 16). -/
def Obligations.Add16 : Prop :=
  (∀ (s : State) (d : Loc16) (v : Val16), s.reads16 d = true → s.readsVal16 v = true →
    s.written8 .f = true →
    ∃ a b s1 s2 s3 t, readLoc16 d s = .ok a s1 ∧ readVal16 v s1 = .ok b s2 ∧
      writeLoc16 d (a + b) s2 = .ok () s3 ∧
      s3.FlagsSet t
        { h := some (decide (a.toNat % 4096 + b.toNat % 4096 ≥ s.cfg.hc16Threshold.toNat)), n := some false,
          c := some (decide (a.toNat + b.toNat > 0xFFFF)) }
        { n := some false, h := some (decide (a.toNat % 4096 + b.toNat % 4096 ≥ s.cfg.hc16Threshold.toNat)),
          c := some (decide (a.toNat + b.toNat > 0xFFFF)) } ∧
      exec (.add16 d v) s = .next (t.complete s)) ∧
  (∀ (d : Loc16) (v : Val16), (Instr.add16 d v).abortsBinary16 d v (fun a b => a + b))

/-- 43_alu16.md R231 and R232: ADC16 and SBC16, on the Z80. Refused on the Game Boy. -/
def Obligations.AddAndSubtractWithCarry16 : Prop :=
  (∀ (s : State) (d : Loc16) (v : Val16), s.cfg.variant = .z80 → s.reads16 d = true →
    s.readsVal16 v = true → s.written8 .f = true →
    (∃ a b r c s1 s2 s3 t, c = s.flag .c ∧ readLoc16 d s = .ok a s1 ∧ readVal16 v s1 = .ok b s2 ∧
      r = a + b + BitVec.ofNat 16 (bit c) ∧ writeLoc16 d r s2 = .ok () s3 ∧
      s3.FlagsSet t
        { s := some (isNegative16 r), z := some (isZero16 r),
          h := some (addHalfCarry16c s.cfg.hc16Threshold a b c),
          pv := some (addOverflow16 a b r), n := some false, c := some (addCarry16c a b c) } {} ∧
      exec (.adc16 d v) s = .next (t.complete s)) ∧
    (∃ a b r c s1 s2 s3 t, c = s.flag .c ∧ readLoc16 d s = .ok a s1 ∧ readVal16 v s1 = .ok b s2 ∧
      r = a - b - BitVec.ofNat 16 (bit c) ∧ writeLoc16 d r s2 = .ok () s3 ∧
      s3.FlagsSet t
        { s := some (isNegative16 r), z := some (isZero16 r), h := some (subHalfBorrow16 a b c),
          pv := some (subOverflow16 a b r), n := some true, c := some (subBorrow16 a b c) } {} ∧
      exec (.sbc16 d v) s = .next (t.complete s))) ∧
  (∀ (d : Loc16) (v : Val16),
    (Instr.adc16 d v).abortsBinary16c d v ∧
    (Instr.sbc16 d v).abortsBinary16c d v) ∧
  (∀ (d : Loc16) (v : Val16), decode .gb (encode (.adc16 d v)) = .error .opVariant ∧
    decode .gb (encode (.sbc16 d v)) = .error .opVariant)

/-- 43_alu16.md R233 and R234: INC16 and DEC16 write no flag. -/
def Obligations.IncrementAndDecrement16 : Prop :=
  (∀ (s : State) (d : Loc16), s.reads16 d = true →
    (∃ a s1 t, readLoc16 d s = .ok a s1 ∧ writeLoc16 d (a + 1) s1 = .ok () t ∧
      exec (.inc16 d) s = .next (t.complete s)) ∧
    (∃ a s1 t, readLoc16 d s = .ok a s1 ∧ writeLoc16 d (a - 1) s1 = .ok () t ∧
      exec (.dec16 d) s = .next (t.complete s))) ∧
  (∀ d : Loc16, (Instr.inc16 d).abortsModify16 d ∧
    (Instr.dec16 d).abortsModify16 d)

/-- 43_alu16.md R235 and R236: ADDSPE writes SP + e to SP and LDHLSPE to HL, on the Game Boy; H and C come from the
low byte of SP and e as an unsigned byte. Refused on the Z80. An unwritten F ends either at the flag phase,
after SP or HL is written (40_flag_library.md R160, 10_state.md R44, 60_exceptions.md R305; vector V15;
log 16). -/
def Obligations.AddSignedToStackPointer : Prop :=
  (∀ (s : State) (v : Val8), s.cfg.variant = .gb → s.readsVal8 v = true → s.written16 .sp = true →
    s.written8 .f = true →
    (∃ e s1 t, readVal8 v s = .ok e s1 ∧
      (s1.setReg16 .sp (s.reg16 .sp + BitVec.ofInt 16 e.toInt)).FlagsSet t {}
        { z := some false, n := some false,
          h := some (decide ((s.reg16 .sp).toNat % 16 + e.toNat % 16 ≥ 16)),
          c := some (decide ((s.reg16 .sp).toNat % 256 + e.toNat > 0xFF)) } ∧
      exec (.addspe v) s = .next (t.complete s)) ∧
    (∃ e s1 t, readVal8 v s = .ok e s1 ∧
      (s1.setPair .hl (s.reg16 .sp + BitVec.ofInt 16 e.toInt)).FlagsSet t {}
        { z := some false, n := some false,
          h := some (decide ((s.reg16 .sp).toNat % 16 + e.toNat % 16 ≥ 16)),
          c := some (decide ((s.reg16 .sp).toNat % 256 + e.toNat > 0xFF)) } ∧
      exec (.ldhlspe v) s = .next (t.complete s))) ∧
  (∀ (s s1 : State) (v : Val8) (e : Byte) (err : Error),
    (readVal8 v s = .error err s1 → (Instr.addspe v).abortsWith s err s1 ∧
      (Instr.ldhlspe v).abortsWith s err s1) ∧
    (readVal8 v s = .ok e s1 → s1.written16 .sp = false →
      (Instr.addspe v).abortsWith s (.unwritten (.reg16 .sp)) s1 ∧
      (Instr.ldhlspe v).abortsWith s (.unwritten (.reg16 .sp)) s1) ∧
    (readVal8 v s = .ok e s1 → s1.written16 .sp = true → s1.written8 .f = false → s.cfg.variant = .gb →
      (Instr.addspe v).abortsWith s (.unwritten (.reg8 .f)) (s1.setReg16 .sp (s.reg16 .sp + sext16 e)) ∧
      (Instr.ldhlspe v).abortsWith s (.unwritten (.reg8 .f)) (s1.setPair .hl (s.reg16 .sp + sext16 e)))) ∧
  (∀ v : Val8, decode .z80 (encode (.addspe v)) = .error .opVariant ∧
    decode .z80 (encode (.ldhlspe v)) = .error .opVariant)

/-! ## Results, flags and errors: shifts, rotates and bits -/

/-- 44_shift_rotate.md R250, R251, R254, R255, R256 and R257: the shifts and rotates that take no carry in, with their
carry-out, and SWAP (Game Boy). SWAP is refused on the Z80. An unwritten F ends each at the flag phase, after DST is
written (40_flag_library.md R160, 10_state.md R44, 60_exceptions.md R305; vector V15; log 16). -/
def Obligations.ShiftAndRotate8 : Prop :=
  (∀ (s : State) (d : Loc8), s.reads8 d = true → s.written8 .f = true →
    (∃ x s1 s2 t, readLoc8 d s = .ok x s1 ∧ writeLoc8 d (rotateLeft x) s1 = .ok () s2 ∧
      s2.FlagsSet t (cbFlagsZ80 (rotateLeft x) (x.getLsbD 7)) (cbFlagsGb (rotateLeft x) (x.getLsbD 7)) ∧
      exec (.rlc d) s = .next (t.complete s)) ∧
    (∃ x s1 s2 t, readLoc8 d s = .ok x s1 ∧ writeLoc8 d (rotateRight x) s1 = .ok () s2 ∧
      s2.FlagsSet t (cbFlagsZ80 (rotateRight x) (x.getLsbD 0)) (cbFlagsGb (rotateRight x) (x.getLsbD 0)) ∧
      exec (.rrc d) s = .next (t.complete s)) ∧
    (∃ x s1 s2 t, readLoc8 d s = .ok x s1 ∧ writeLoc8 d (shiftLeft x) s1 = .ok () s2 ∧
      s2.FlagsSet t (cbFlagsZ80 (shiftLeft x) (x.getLsbD 7)) (cbFlagsGb (shiftLeft x) (x.getLsbD 7)) ∧
      exec (.sla d) s = .next (t.complete s)) ∧
    (∃ x s1 s2 t, readLoc8 d s = .ok x s1 ∧ writeLoc8 d (arithmeticShiftRight x) s1 = .ok () s2 ∧
      s2.FlagsSet t (cbFlagsZ80 (arithmeticShiftRight x) (x.getLsbD 0))
        (cbFlagsGb (arithmeticShiftRight x) (x.getLsbD 0)) ∧
      exec (.sra d) s = .next (t.complete s)) ∧
    (∃ x s1 s2 t, readLoc8 d s = .ok x s1 ∧ writeLoc8 d (logicalShiftRight x) s1 = .ok () s2 ∧
      s2.FlagsSet t (cbFlagsZ80 (logicalShiftRight x) (x.getLsbD 0))
        (cbFlagsGb (logicalShiftRight x) (x.getLsbD 0)) ∧
      exec (.srl d) s = .next (t.complete s)) ∧
    (s.cfg.variant = .gb → ∃ x r s1 s2 t, readLoc8 d s = .ok x s1 ∧
      r = BitVec.ofNat 8 (x.toNat % 16 * 16 + x.toNat / 16) ∧ writeLoc8 d r s1 = .ok () s2 ∧
      s2.FlagsSet t {} (cbFlagsGb r false) ∧ exec (.swap d) s = .next (t.complete s))) ∧
  (∀ d : Loc8, (Instr.rlc d).abortsUnary8 d rotateLeft ∧ (Instr.rrc d).abortsUnary8 d rotateRight ∧
    (Instr.sla d).abortsUnary8 d shiftLeft ∧ (Instr.sra d).abortsUnary8 d arithmeticShiftRight ∧
    (Instr.srl d).abortsUnary8 d logicalShiftRight) ∧
  (∀ (s s1 s2 : State) (d : Loc8) (x r : Byte) (e : Error),
    r = BitVec.ofNat 8 (x.toNat % 16 * 16 + x.toNat / 16) → s.cfg.variant = .gb →
    (readLoc8 d s = .error e s1 → (Instr.swap d).abortsWith s e s1) ∧
    (readLoc8 d s = .ok x s1 → writeLoc8 d r s1 = .ok () s2 → s2.written8 .f = false →
      (Instr.swap d).abortsWith s (.unwritten (.reg8 .f)) s2)) ∧
  (∀ d : Loc8, decode .z80 (encode (.swap d)) = .error .opVariant)

/-- 44_shift_rotate.md R252 and R253: RL and RR shift the old carry in. -/
def Obligations.RotateThroughCarry8 : Prop :=
  (∀ (s : State) (d : Loc8), s.reads8 d = true → s.written8 .f = true →
    (∃ x r s1 s2 t, readLoc8 d s = .ok x s1 ∧
      r = shiftLeft x ||| BitVec.ofNat 8 (bit (s.flag .c)) ∧ writeLoc8 d r s1 = .ok () s2 ∧
      s2.FlagsSet t (cbFlagsZ80 r (x.getLsbD 7)) (cbFlagsGb r (x.getLsbD 7)) ∧
      exec (.rl d) s = .next (t.complete s)) ∧
    (∃ x r s1 s2 t, readLoc8 d s = .ok x s1 ∧
      r = logicalShiftRight x ||| BitVec.ofNat 8 (128 * bit (s.flag .c)) ∧ writeLoc8 d r s1 = .ok () s2 ∧
      s2.FlagsSet t (cbFlagsZ80 r (x.getLsbD 0)) (cbFlagsGb r (x.getLsbD 0)) ∧
      exec (.rr d) s = .next (t.complete s))) ∧
  (∀ d : Loc8,
    (Instr.rl d).abortsUnary8c d ∧
    (Instr.rr d).abortsUnary8c d)

/-- 44_shift_rotate.md R258 to R261: the rotates of A, whose flags differ from the CB forms. An unwritten F ends RLCA
and RRCA at the flag phase, after A is written, and RLA and RRA where the carry is read, with nothing
written (40_flag_library.md R160, R161, 10_state.md R44, 60_exceptions.md R305; vector V15; log 16). -/
def Obligations.RotateAccumulator : Prop :=
  (∀ s : State, s.written8 .a = true → s.written8 .f = true →
    (∃ t, (s.setReg8 .a (rotateLeft (s.reg8 .a))).FlagsSet t
        (aFlagsZ80 ((s.reg8 .a).getLsbD 7)) (aFlagsGb ((s.reg8 .a).getLsbD 7)) ∧
      exec .rlca s = .next (t.complete s)) ∧
    (∃ t, (s.setReg8 .a (rotateRight (s.reg8 .a))).FlagsSet t
        (aFlagsZ80 ((s.reg8 .a).getLsbD 0)) (aFlagsGb ((s.reg8 .a).getLsbD 0)) ∧
      exec .rrca s = .next (t.complete s)) ∧
    (∃ t, (s.setReg8 .a (shiftLeft (s.reg8 .a) ||| BitVec.ofNat 8 (bit (s.flag .c)))).FlagsSet t
        (aFlagsZ80 ((s.reg8 .a).getLsbD 7)) (aFlagsGb ((s.reg8 .a).getLsbD 7)) ∧
      exec .rla s = .next (t.complete s)) ∧
    (∃ t, (s.setReg8 .a
          (logicalShiftRight (s.reg8 .a) ||| BitVec.ofNat 8 (128 * bit (s.flag .c)))).FlagsSet t
        (aFlagsZ80 ((s.reg8 .a).getLsbD 0)) (aFlagsGb ((s.reg8 .a).getLsbD 0)) ∧
      exec .rra s = .next (t.complete s))) ∧
  (Instr.rlca).abortsUnary8 (.reg .a) rotateLeft ∧ (Instr.rrca).abortsUnary8 (.reg .a) rotateRight ∧
  (Instr.rla).abortsUnary8c (.reg .a) ∧
  (Instr.rra).abortsUnary8c (.reg .a)

/-- 45_bit.md R270: BIT tests a bit of SRC. On the Z80 S and PV take draws: the statement holds for every value of
the two and of the counter they come from (log 5). -/
def Obligations.TestBit : Prop :=
  (∀ (s : State) (b : Fin 8) (v : Val8), s.readsVal8 v = true → s.written8 .f = true →
    ∃ x s1 t sgn pv n, readVal8 v s = .ok x s1 ∧ s1.draws ≤ n ∧
      ({ s1 with draws := n } : State).FlagsSet t
        { s := some sgn, z := some (decide (x.toNat / 2 ^ b.val % 2 = 0)), h := some true, pv := some pv,
          n := some false }
        { z := some (decide (x.toNat / 2 ^ b.val % 2 = 0)), n := some false, h := some true } ∧
      exec (.bit b v) s = .next (t.complete s)) ∧
  (∀ (s s1 : State) (b : Fin 8) (v : Val8) (x : Byte) (e : Error),
    (readVal8 v s = .error e s1 → (Instr.bit b v).abortsWith s e s1) ∧
    (readVal8 v s = .ok x s1 → s1.written8 .f = false →
      ∃ n, (Instr.bit b v).abortsWith s (.unwritten (.reg8 .f)) { s1 with draws := n }))

/-- 45_bit.md R271 and R272: SET and RES write DST with the bit set or cleared, and no flag as a flag. -/
def Obligations.SetAndResetBit : Prop :=
  (∀ (s : State) (b : Fin 8) (d : Loc8), s.reads8 d = true →
    (∃ x s1 t, readLoc8 d s = .ok x s1 ∧ writeLoc8 d (flagWrite x b.val true) s1 = .ok () t ∧
      exec (.set b d) s = .next (t.complete s)) ∧
    (∃ x s1 t, readLoc8 d s = .ok x s1 ∧ writeLoc8 d (flagWrite x b.val false) s1 = .ok () t ∧
      exec (.res b d) s = .next (t.complete s))) ∧
  (∀ (b : Fin 8) (d : Loc8), (Instr.set b d).abortsModify8 d ∧
    (Instr.res b d).abortsModify8 d)

/-! ## Results and errors: control transfer -/

/-- 46_control.md R281, R282 and R283: the conditions, and JP and JR. Not taken, nothing is read but F and nothing
changes. JR on S or PV is refused. -/
def Obligations.Jumps : Prop :=
  (∀ s : State, [Cond.always, .nz, .z, .nc, .c, .po, .pe, .p, .m].map s.holds =
    [true, !s.flag .z, s.flag .z, !s.flag .c, s.flag .c, !s.flag .pv, s.flag .pv, !s.flag .s, s.flag .s]) ∧
  (∀ (s : State) (k : Cond) (v : Val16), s.condReads k = true →
    (s.holds k = false → exec (.jp k v) s = .next (s.complete s)) ∧
    (s.holds k = true → s.readsVal16 v = true →
      ∃ a s1, readVal16 v s = .ok a s1 ∧ exec (.jp k v) s = .next ((s1.setReg16 .pc a).complete s))) ∧
  (∀ (s : State) (k : Cond) (v : Val8), s.condReads k = true →
    (s.holds k = false → exec (.jr k v) s = .next (s.complete s)) ∧
    (s.holds k = true → s.readsVal8 v = true → s.written16 .pc = true →
      ∃ e s1, readVal8 v s = .ok e s1 ∧
        exec (.jr k v) s = .next ((s1.setReg16 .pc (s.reg16 .pc + BitVec.ofInt 16 e.toInt)).complete s))) ∧
  (∀ (s t : State) (k : Cond) (v : Val16) (w : Val8) (x : Byte) (e : Error),
    (s.condReads k = false → (Instr.jp k v).abortsWith s (.unwritten (.reg8 .f)) s ∧
      (Instr.jr k w).abortsWith s (.unwritten (.reg8 .f)) s) ∧
    (s.condReads k = true → s.holds k = true → readVal16 v s = .error e t → (Instr.jp k v).abortsWith s e t) ∧
    (s.condReads k = true → s.holds k = true → readVal8 w s = .error e t → (Instr.jr k w).abortsWith s e t) ∧
    (s.condReads k = true → s.holds k = true → readVal8 w s = .ok x t → t.written16 .pc = false →
      (Instr.jr k w).abortsWith s (.unwritten (.reg16 .pc)) t)) ∧
  (∀ (x : Variant) (k : Cond) (w : Val8), k ∈ [Cond.po, .pe, .p, .m] →
    decode x (encode (.jr k w)) = .error .auxLegal)

/-- 46_control.md R284 and R285: CALL pushes PC, the return address, and goes to SRC; RET pops it. Not taken, nothing
changes. A CALL whose stack write fails leaves SP decremented and PC unchanged. -/
def Obligations.CallAndReturn : Prop :=
  (∀ (s : State) (k : Cond) (v : Val16), s.condReads k = true →
    (s.holds k = false → exec (.call k v) s = .next (s.complete s)) ∧
    (s.holds k = true → s.readsVal16 v = true → s.written16 .pc = true → s.written16 .sp = true →
      s.busWrites16 (s.reg16 .sp - 2) = true →
      ∃ a s1 t, readVal16 v s = .ok a s1 ∧
        memWrite16 (s.reg16 .sp - 2) (s.reg16 .pc) (s1.setReg16 .sp (s.reg16 .sp - 2)) = .ok () t ∧
        exec (.call k v) s = .next ((t.setReg16 .pc a).complete s))) ∧
  (∀ (s : State) (k : Cond), s.condReads k = true →
    (s.holds k = false → exec (.ret k) s = .next (s.complete s)) ∧
    (s.holds k = true → s.written16 .sp = true → s.busReads16 (s.reg16 .sp) = true →
      ∃ a s1, memRead16 (s.reg16 .sp) s = .ok a s1 ∧
        exec (.ret k) s = .next (((s1.setReg16 .sp (s.reg16 .sp + 2)).setReg16 .pc a).complete s))) ∧
  (∀ (s s1 t : State) (k : Cond) (v : Val16) (a : Word) (e : Error),
    (s.condReads k = false → (Instr.call k v).abortsWith s (.unwritten (.reg8 .f)) s ∧
      (Instr.ret k).abortsWith s (.unwritten (.reg8 .f)) s) ∧
    (s.condReads k = true → s.holds k = true →
      (readVal16 v s = .error e t → (Instr.call k v).abortsWith s e t) ∧
      (readVal16 v s = .ok a s1 → s1.written16 .pc = false →
        (Instr.call k v).abortsWith s (.unwritten (.reg16 .pc)) s1) ∧
      (readVal16 v s = .ok a s1 → s1.written16 .pc = true → s1.written16 .sp = false →
        (Instr.call k v).abortsWith s (.unwritten (.reg16 .sp)) s1) ∧
      (readVal16 v s = .ok a s1 → s1.written16 .pc = true → s1.written16 .sp = true →
        memWrite16 (s.reg16 .sp - 2) (s.reg16 .pc) (s1.setReg16 .sp (s.reg16 .sp - 2)) = .error e t →
        (Instr.call k v).abortsWith s e t ∧ t.reg16 .sp = s.reg16 .sp - 2 ∧ t.reg16 .pc = s.reg16 .pc) ∧
      (s.written16 .sp = false → (Instr.ret k).abortsWith s (.unwritten (.reg16 .sp)) s) ∧
      (s.written16 .sp = true → memRead16 (s.reg16 .sp) s = .error e t →
        (Instr.ret k).abortsWith s e t ∧ t.reg16 .sp = s.reg16 .sp ∧ t.reg16 .pc = s.reg16 .pc)))

/-- 46_control.md R286: DJNZ decrements B and jumps when it is not zero. B = 1 ends the loop, reading no SRC; B = 0
wraps to 0xFF and jumps. A failed read of SRC leaves B unchanged. Refused on the Game Boy. That an unwritten PC
leaves B unchanged too is 40_flag_library.md R161 and the table of 60_exceptions.md R305, read beside the
pseudocode (DEDUCED, log 18). -/
def Obligations.DecrementAndJump : Prop :=
  (∀ (s : State) (v : Val8), s.written8 .b = true →
    (s.reg8 .b = 1 → exec (.djnz v) s = .next ((s.setReg8 .b 0).complete s)) ∧
    (s.reg8 .b ≠ 1 → s.readsVal8 v = true → s.written16 .pc = true →
      ∃ e s1, readVal8 v s = .ok e s1 ∧
        exec (.djnz v) s = .next (((s1.setReg8 .b (s.reg8 .b - 1)).setReg16 .pc
          (s.reg16 .pc + BitVec.ofInt 16 e.toInt)).complete s))) ∧
  (∀ (s t : State) (v : Val8) (x : Byte) (e : Error),
    (s.written8 .b = false → (Instr.djnz v).abortsWith s (.unwritten (.reg8 .b)) s) ∧
    (s.written8 .b = true → s.reg8 .b ≠ 1 → readVal8 v s = .error e t →
      (Instr.djnz v).abortsWith s e t ∧ t.reg8 .b = s.reg8 .b) ∧
    (s.written8 .b = true → s.reg8 .b ≠ 1 → readVal8 v s = .ok x t → t.written16 .pc = false →
      (Instr.djnz v).abortsWith s (.unwritten (.reg16 .pc)) t ∧ t.reg8 .b = s.reg8 .b)) ∧
  (∀ v : Val8, decode .gb (encode (.djnz v)) = .error .opVariant)

/-! ## Frames: what an instruction leaves unchanged, completed or ended by an error -/

/-- The transfers but EX16: NOP, LD8, LD16, PUSH, POP and EXX. -/
def Obligations.FrameOfTransfers : Prop :=
  ∀ (i : Instr) (s t : State), i.op ∈ [Op.nop, .ld8, .ld16, .push, .pop, .exx] → exec i s = .next t →
    s.RegistersFramed t i ∧ s.MemoryFramed t (s.keysOf (i.stores s)) ∧ s.RestFramed t

/-- EX16: its second store goes where SRC points once DST is written; when its reads or its first write fail it
stores to DST at most. -/
def Obligations.FrameOfExchange : Prop :=
  ∀ (d e : Loc16) (s t : State), exec (.ex16 d e) s = .next t →
    s.RegistersFramed t (.ex16 d e) ∧ s.RestFramed t ∧
    (∀ va vb s1 s2 s3, readLoc16 d s = .ok va s1 → readLoc16 e s1 = .ok vb s2 →
      writeLoc16 d vb s2 = .ok () s3 →
      s.MemoryFramed t (s.keysOf (s.stores16 d ++ s3.stores16 e))) ∧
    ((∀ va vb s1 s2 s3, readLoc16 d s = .ok va s1 → readLoc16 e s1 = .ok vb s2 →
        writeLoc16 d vb s2 ≠ .ok () s3) →
      s.MemoryFramed t (s.keysOf (s.stores16 d)))

/-- The 8-bit operations: ADD8 to CCF, the shifts and rotates, BIT, SET and RES. -/
def Obligations.FrameOf8BitOperations : Prop :=
  ∀ (i : Instr) (s t : State),
    i.op ∈ [Op.add8, .adc8, .sub8, .sbc8, .and8, .xor8, .or8, .cp8, .inc8, .dec8, .neg, .cpl, .daa, .scf, .ccf,
      .rlc, .rrc, .rl, .rr, .sla, .sra, .srl, .swap, .rlca, .rrca, .rla, .rra, .bit, .set, .res] →
    exec i s = .next t →
    s.RegistersFramed t i ∧ s.MemoryFramed t (s.keysOf (i.stores s)) ∧ s.RestFramed t

/-- The 16-bit operations: ADD16, ADC16, SBC16, INC16, DEC16, ADDSPE and LDHLSPE. -/
def Obligations.FrameOf16BitOperations : Prop :=
  ∀ (i : Instr) (s t : State),
    i.op ∈ [Op.add16, .adc16, .sbc16, .inc16, .dec16, .addspe, .ldhlspe] → exec i s = .next t →
    s.RegistersFramed t i ∧ s.MemoryFramed t (s.keysOf (i.stores s)) ∧ s.RestFramed t

/-- Control transfer: JP, JR, CALL, RET and DJNZ. A CALL that is not taken stores nothing. -/
def Obligations.FrameOfControlTransfer : Prop :=
  ∀ (i : Instr) (s t : State), i.op ∈ [Op.jp, .jr, .call, .ret, .djnz] → exec i s = .next t →
    s.RegistersFramed t i ∧ s.MemoryFramed t (s.keysOf (i.stores s)) ∧ s.RestFramed t

/-- The flags of 40_flag_library.md R163: where F is no destination, a flag whose cell in the table is "-" keeps its
value, an operation absent from the table leaves F as it is, and the bits that are no flag keep theirs under
`XY_POLICY = Preserve` (10_state.md R33) and on the Game Boy (R34). -/
def Obligations.UnlistedFlagsUnchanged : Prop :=
  ∀ (i : Instr) (s t : State), i.dest8 .f = false → exec i s = .next t →
    (∀ f, i.writesFlag s.cfg.variant f = false → t.flag f = s.flag f) ∧
    (i.writesFlags = false → t.regs8.get .f = s.regs8.get .f) ∧
    (s.cfg.variant = .z80 → s.cfg.xyPolicy = .preserve → t.reg8 .f &&& 0x28 = s.reg8 .f &&& 0x28) ∧
    (s.cfg.variant = .gb → s.fMasked → s.written8 .f = true → t.reg8 .f &&& 0x0F = s.reg8 .f &&& 0x0F)

/-- 60_exceptions.md R304: an operation with no operand of a bus kind and no implicit stack access makes no bus
access, changes no memory and ends with no bus error. -/
def Obligations.RegisterOperationsUseNoBus : Prop :=
  ∀ (i : Instr) (s t : State), i.usesBus = false → exec i s = .next t →
    t.busLog = s.busLog ∧ t.mem = s.mem ∧
    ∀ e, t.outputs = .error e :: s.outputs → e.isBus = false

end
end

