-- ==== Sys2Proof/Laws/Encoding.lean ====
section
/-! SUPPORT. The code tables read back what they write, descriptors survive their 64 bits, and each operand form is
what its descriptor resolves to (spec/30_encoding.md R101 to R110). -/

namespace Sys2Proof

/-! ## Tables -/

@[simp] theorem Op.ofCode_code (o : Op) : Op.ofCode o.code = some o := by cases o <;> decide

@[simp] theorem Kind.ofCode_code (k : Kind) : Kind.ofCode k.code = some k := by cases k <;> decide

@[simp] theorem Reg8.ofId_id (x : Reg8) : Reg8.ofId x.id = some x := by cases x <;> decide

@[simp] theorem Reg16.ofId_id (x : Reg16) : Reg16.ofId x.id = some x := by cases x <;> decide

@[simp] theorem Pair.ofId_id (p : Pair) : Pair.ofId p.id = some p := by cases p <;> decide

@[simp] theorem Src16.ofId_id (s : Src16) : Src16.ofId s.id = some s := by
  rcases s with p | x
  · cases p <;> decide
  · cases x <;> decide

@[simp] theorem Cond.ofCode_code (k : Cond) : Cond.ofCode k.code = some k := by cases k <;> decide

theorem find_beq_some {α β : Type} [BEq β] [LawfulBEq β] {l : List α} {f : α → β} {b : β} {a : α}
    (h : l.find? (fun x => f x == b) = some a) : f a = b := by
  have := List.find?_some h
  simpa using this

theorem Op.code_of_ofCode {n : Byte} {o : Op} (h : Op.ofCode n = some o) : o.code = n := find_beq_some h

theorem Kind.code_of_ofCode {n : BitVec 4} {k : Kind} (h : Kind.ofCode n = some k) : k.code = n := find_beq_some h

theorem Reg8.id_of_ofId {n : BitVec 5} {x : Reg8} (h : Reg8.ofId n = some x) : x.id = n := find_beq_some h

theorem Reg16.id_of_ofId {n : BitVec 5} {x : Reg16} (h : Reg16.ofId n = some x) : x.id = n := find_beq_some h

theorem Pair.id_of_ofId {n : BitVec 5} {p : Pair} (h : Pair.ofId n = some p) : p.id = n := find_beq_some h

theorem Cond.code_of_ofCode {n : Byte} {k : Cond} (h : Cond.ofCode n = some k) : k.code = n := find_beq_some h

theorem Src16.id_of_ofId {n : BitVec 5} {s : Src16} (h : Src16.ofId n = some s) : s.id = n := by
  unfold Src16.ofId at h
  cases hp : Pair.ofId n with
  | some p =>
    rw [hp] at h
    obtain rfl := Option.some.inj h
    exact Pair.id_of_ofId hp
  | none =>
    rw [hp] at h
    obtain ⟨x, hx, rfl⟩ := Option.map_eq_some_iff.1 h
    exact Reg16.id_of_ofId hx

theorem bitIndex?_ofNat (b : Fin 8) : bitIndex? (BitVec.ofNat 8 b.val) = some b := by revert b; decide

theorem aux_of_bitIndex? {n : Byte} {b : Fin 8} (h : bitIndex? n = some b) : BitVec.ofNat 8 b.val = n := by
  unfold bitIndex? at h
  split at h
  · obtain rfl := Option.some.inj h; simp
  · exact nomatch h

/-! ## Descriptors (R102) -/

@[simp] theorem Desc.ofBits_toBits (d : Desc) : Desc.ofBits d.toBits = d := by
  obtain ⟨kind, sel, offImm, off8, value⟩ := d
  simp only [Desc.ofBits, Desc.toBits, Desc.mk.injEq]
  refine ⟨?_, ?_, ?_, ?_, ?_⟩
  · apply BitVec.eq_of_getLsbD_eq; intro i hi
    rw [BitVec.getLsbD_extractLsb']
    simp only [BitVec.getLsbD_append, BitVec.getLsbD_ofBool]
    simp [hi]
  · apply BitVec.eq_of_getLsbD_eq; intro i hi
    rw [BitVec.getLsbD_extractLsb']
    simp only [BitVec.getLsbD_append, BitVec.getLsbD_ofBool]
    simp [hi]
  · simp only [BitVec.getLsbD_append, BitVec.getLsbD_ofBool]
    simp
  · apply BitVec.eq_of_getLsbD_eq; intro i hi
    rw [BitVec.getLsbD_extractLsb']
    simp only [BitVec.getLsbD_append, BitVec.getLsbD_ofBool]
    simp [hi, show ¬ 16 + i < 4 by omega, show ¬ 16 + i - 4 < 5 by omega, show ¬ 16 + i - 4 - 5 < 1 by omega,
      show ¬ 16 + i - 4 - 5 - 1 < 6 by omega, show 16 + i - 4 - 5 - 1 - 6 = i by omega]
  · apply BitVec.eq_of_getLsbD_eq; intro i hi
    rw [BitVec.getLsbD_extractLsb']
    simp only [BitVec.getLsbD_append, BitVec.getLsbD_ofBool]
    simp [hi, show ¬ 32 + i < 4 by omega, show ¬ 32 + i - 4 < 5 by omega, show ¬ 32 + i - 4 - 5 < 1 by omega,
      show ¬ 32 + i - 4 - 5 - 1 < 6 by omega, show ¬ 32 + i - 4 - 5 - 1 - 6 < 8 by omega,
      show ¬ 32 + i - 4 - 5 - 1 - 6 - 8 < 8 by omega, show 32 + i - 4 - 5 - 1 - 6 - 8 - 8 = i by omega]

theorem extract_zero_bit {n k m : Nat} {w : BitVec n} (h : w.extractLsb' k m = 0) {i : Nat} (hi : k ≤ i) (hm : i < k + m) :
    w.getLsbD i = false := by
  have := congrArg (fun v : BitVec m => v.getLsbD (i - k)) h
  simp only [BitVec.getLsbD_extractLsb'] at this
  rw [show k + (i - k) = i by omega] at this
  simpa [show i - k < m by omega] using this

@[simp] theorem reservedClear_toBits (d : Desc) : reservedClear d.toBits = true := by
  obtain ⟨kind, sel, offImm, off8, value⟩ := d
  simp only [reservedClear, Bool.and_eq_true, beq_iff_eq]
  refine ⟨⟨?_, ?_⟩, ?_⟩
  all_goals
    apply BitVec.eq_of_getLsbD_eq; intro i hi
    rw [BitVec.getLsbD_extractLsb']
    simp only [Desc.toBits, BitVec.getLsbD_append, BitVec.getLsbD_ofBool]
  · simp [show ¬ 10 + i < 4 by omega, show ¬ 10 + i - 4 < 5 by omega, show ¬ 10 + i - 4 - 5 < 1 by omega,
      show 10 + i - 4 - 5 - 1 < 6 by omega]
  · simp [show ¬ 24 + i < 4 by omega, show ¬ 24 + i - 4 < 5 by omega, show ¬ 24 + i - 4 - 5 < 1 by omega,
      show ¬ 24 + i - 4 - 5 - 1 < 6 by omega, show ¬ 24 + i - 4 - 5 - 1 - 6 < 8 by omega,
      show 24 + i - 4 - 5 - 1 - 6 - 8 < 8 by omega]
  · simp [show ¬ 48 + i < 4 by omega, show ¬ 48 + i - 4 < 5 by omega, show ¬ 48 + i - 4 - 5 < 1 by omega,
      show ¬ 48 + i - 4 - 5 - 1 < 6 by omega, show ¬ 48 + i - 4 - 5 - 1 - 6 < 8 by omega,
      show ¬ 48 + i - 4 - 5 - 1 - 6 - 8 < 8 by omega, show ¬ 48 + i - 4 - 5 - 1 - 6 - 8 - 8 < 16 by omega]

/-- A descriptor with its reserved bits clear is its fields. -/
theorem Desc.toBits_ofBits {w : BitVec 64} (h : reservedClear w = true) : (Desc.ofBits w).toBits = w := by
  simp only [reservedClear, Bool.and_eq_true, beq_iff_eq] at h
  obtain ⟨⟨h1, h2⟩, h3⟩ := h
  apply BitVec.eq_of_getLsbD_eq; intro i hi
  simp only [Desc.ofBits, Desc.toBits, BitVec.getLsbD_append, BitVec.getLsbD_ofBool, BitVec.getLsbD_extractLsb']
  by_cases c1 : i < 4
  · simp [c1]
  by_cases c2 : i < 9
  · simp [c1, show i - 4 < 5 by omega, show 4 + (i - 4) = i by omega]
  by_cases c3 : i < 10
  · obtain rfl : i = 9 := by omega
    simp
  by_cases c4 : i < 16
  · have z : w.getLsbD i = false := extract_zero_bit h1 (by omega) (by omega)
    simp [z, c1, show ¬ i - 4 < 5 by omega, show ¬ i - 4 - 5 < 1 by omega, show i - 4 - 5 - 1 < 6 by omega]
  by_cases c5 : i < 24
  · simp [c1, show ¬ i - 4 < 5 by omega, show ¬ i - 4 - 5 < 1 by omega, show ¬ i - 4 - 5 - 1 < 6 by omega,
      show i - 4 - 5 - 1 - 6 < 8 by omega, show 16 + (i - 4 - 5 - 1 - 6) = i by omega]
  by_cases c6 : i < 32
  · have z : w.getLsbD i = false := extract_zero_bit h2 (by omega) (by omega)
    simp [z, c1, show ¬ i - 4 < 5 by omega, show ¬ i - 4 - 5 < 1 by omega, show ¬ i - 4 - 5 - 1 < 6 by omega,
      show ¬ i - 4 - 5 - 1 - 6 < 8 by omega, show i - 4 - 5 - 1 - 6 - 8 < 8 by omega]
  by_cases c7 : i < 48
  · simp [c1, show ¬ i - 4 < 5 by omega, show ¬ i - 4 - 5 < 1 by omega, show ¬ i - 4 - 5 - 1 < 6 by omega,
      show ¬ i - 4 - 5 - 1 - 6 < 8 by omega, show ¬ i - 4 - 5 - 1 - 6 - 8 < 8 by omega,
      show i - 4 - 5 - 1 - 6 - 8 - 8 < 16 by omega, show 32 + (i - 4 - 5 - 1 - 6 - 8 - 8) = i by omega]
  · have z : w.getLsbD i = false := extract_zero_bit h3 (by omega) (by omega)
    simp [z, c1, show ¬ i - 4 < 5 by omega, show ¬ i - 4 - 5 < 1 by omega, show ¬ i - 4 - 5 - 1 < 6 by omega,
      show ¬ i - 4 - 5 - 1 - 6 < 8 by omega, show ¬ i - 4 - 5 - 1 - 6 - 8 < 8 by omega,
      show ¬ i - 4 - 5 - 1 - 6 - 8 - 8 < 16 by omega]

/-! ## Commands (R100) -/

theorem cwOf_command (cw : BitVec 32) (dst src : BitVec 64) : cwOf (command cw dst src) = cw := by
  apply BitVec.eq_of_getLsbD_eq; intro i hi
  simp only [cwOf, command]
  rw [BitVec.getLsbD_extractLsb']
  simp only [BitVec.getLsbD_append]
  simp [hi]

theorem dstOf_command (cw : BitVec 32) (dst src : BitVec 64) : dstOf (command cw dst src) = dst := by
  apply BitVec.eq_of_getLsbD_eq; intro i hi
  simp only [dstOf, command]
  rw [BitVec.getLsbD_extractLsb']
  simp only [BitVec.getLsbD_append]
  simp [hi, show ¬ 32 + i < 32 by omega, show 32 + i - 32 = i by omega]

theorem srcOf_command (cw : BitVec 32) (dst src : BitVec 64) : srcOf (command cw dst src) = src := by
  apply BitVec.eq_of_getLsbD_eq; intro i hi
  simp only [srcOf, command]
  rw [BitVec.getLsbD_extractLsb']
  simp only [BitVec.getLsbD_append]
  simp [hi, show ¬ 96 + i < 32 by omega, show ¬ 96 + i - 32 < 64 by omega, show 96 + i - 32 - 64 = i by omega]

/-- A command is its three words. -/
theorem command_words (w : Command) : command (cwOf w) (dstOf w) (srcOf w) = w := by
  apply BitVec.eq_of_getLsbD_eq; intro i hi
  simp only [command, cwOf, dstOf, srcOf, BitVec.getLsbD_append, BitVec.getLsbD_extractLsb']
  by_cases c1 : i < 32
  · simp [c1]
  by_cases c2 : i < 96
  · simp [c1, show i - 32 < 64 by omega, show 32 + (i - 32) = i by omega]
  · simp [c1, show ¬ i - 32 < 64 by omega, show i - 32 - 64 < 64 by omega, show 96 + (i - 32 - 64) = i by omega]

theorem encode_eq (i : Instr) : encode i = command i.cw i.dstDesc.toBits i.srcDesc.toBits := rfl

theorem cw_op (i : Instr) : i.cw.extractLsb' 0 8 = i.op.code := by
  apply BitVec.eq_of_getLsbD_eq; intro j hj
  rw [BitVec.getLsbD_extractLsb']
  simp only [Instr.cw, BitVec.getLsbD_append]
  simp [hj]

theorem cw_aux (i : Instr) : i.cw.extractLsb' 8 8 = i.aux := by
  apply BitVec.eq_of_getLsbD_eq; intro j hj
  rw [BitVec.getLsbD_extractLsb']
  simp only [Instr.cw, BitVec.getLsbD_append]
  simp [hj, show ¬ 8 + j < 8 by omega, show 8 + j - 8 = j by omega]

theorem cw_reserved (i : Instr) : i.cw.extractLsb' 16 16 = 0 := by
  apply BitVec.eq_of_getLsbD_eq; intro j hj
  rw [BitVec.getLsbD_extractLsb']
  simp only [Instr.cw, BitVec.getLsbD_append]
  simp [show ¬ 16 + j < 8 by omega, show ¬ 16 + j - 8 < 8 by omega]

/-- A command word with its reserved half clear is its two fields (R101). -/
theorem cw_eq {w : BitVec 32} (h : w.extractLsb' 16 16 = 0) :
    (0 : BitVec 16) ++ w.extractLsb' 8 8 ++ w.extractLsb' 0 8 = w := by
  apply BitVec.eq_of_getLsbD_eq; intro i hi
  simp only [BitVec.getLsbD_append, BitVec.getLsbD_extractLsb']
  by_cases c1 : i < 8
  · simp [c1]
  by_cases c2 : i < 16
  · simp [c1, show i - 8 < 8 by omega, show 8 + (i - 8) = i by omega]
  · have z : w.getLsbD i = false := extract_zero_bit h (by omega) (by omega)
    simp [z, c1, show ¬ i - 8 < 8 by omega]

/-! ## Operands (R104 to R106, R110) -/

theorem pptr_offset? (k : Kind) (base : Word) (o : Offset) : (Desc.ofPptr k base o).offset? = some o := by
  cases o <;> simp [Desc.ofPptr, Desc.offset?, Desc.empty]

theorem Loc8.desc_loc8? (o : Loc8) : o.desc.loc8? = some o := by
  cases o with
  | pptr b f =>
    have hk : Kind.ofCode (Desc.ofPptr .pptr8 b f).kind = some .pptr8 := by cases f <;> exact Kind.ofCode_code .pptr8
    have hv : (Desc.ofPptr .pptr8 b f).value = b := by cases f <;> rfl
    simp [Loc8.desc, Desc.loc8?, hk, pptr_offset?, hv]
  | reg | ptr | mem => simp [Loc8.desc, Desc.loc8?, Desc.ofSel, Desc.ofValue]

theorem Val8.desc_val8? (o : Val8) : o.desc.val8? = some o := by
  cases o with
  | imm v =>
    simp only [Val8.desc, Desc.val8?, Desc.ofValue, Kind.ofCode_code, BitVec.truncate_eq_setWidth]
    congr 2
    apply BitVec.eq_of_getLsbD_eq; intro i hi
    rw [BitVec.getLsbD_extractLsb']
    simp [hi, show i < 16 by omega]
  | loc o =>
    have hk : Kind.ofCode o.desc.kind ≠ some .imm8 := by
      rcases o with x | p | ⟨b, f⟩ | m
      · simp [Loc8.desc, Desc.ofSel]
      · simp [Loc8.desc, Desc.ofSel]
      · cases f <;> simp [Loc8.desc, Desc.ofPptr]
      · simp [Loc8.desc, Desc.ofValue]
    unfold Desc.val8?
    split
    · rename_i h; exact absurd h hk
    · simp [Val8.desc, Loc8.desc_loc8?]

theorem Loc16.desc_loc16? (o : Loc16) : o.desc.loc16? = some o := by
  cases o with
  | pptr b f =>
    have hk : Kind.ofCode (Desc.ofPptr .pptr16 b f).kind = some .pptr16 := by cases f <;> exact Kind.ofCode_code .pptr16
    have hv : (Desc.ofPptr .pptr16 b f).value = b := by cases f <;> rfl
    simp [Loc16.desc, Desc.loc16?, hk, pptr_offset?, hv]
  | reg | pair | mem => simp [Loc16.desc, Desc.loc16?, Desc.ofSel, Desc.ofValue]

theorem Val16.desc_val16? (o : Val16) : o.desc.val16? = some o := by
  cases o with
  | imm v => simp [Val16.desc, Desc.val16?, Desc.ofValue]
  | loc o =>
    have hk : Kind.ofCode o.desc.kind ≠ some .imm16 := by
      rcases o with x | p | ⟨b, f⟩ | m
      · simp [Loc16.desc, Desc.ofSel]
      · simp [Loc16.desc, Desc.ofSel]
      · cases f <;> simp [Loc16.desc, Desc.ofPptr]
      · simp [Loc16.desc, Desc.ofValue]
    unfold Desc.val16?
    split
    · rename_i h; exact absurd h hk
    · simp [Val16.desc, Loc16.desc_loc16?]

/-- Every operand's descriptor is legal for its class and in its unused fields, and legal in `SEL` exactly when the
operand's registers exist on the variant. -/
def Desc.Fits (d : Desc) (c : OperandClass) (v : Variant) (present : Bool) : Prop :=
  d.kindLegal c = true ∧ d.fieldsLegal = true ∧ d.selLegal v = present

theorem Desc.empty_fits (v : Variant) : Desc.empty.Fits .none v true := by
  refine ⟨?_, ?_, ?_⟩ <;> simp [Desc.empty, Desc.kindLegal, Desc.fieldsLegal, Desc.selLegal, OperandClass.has]

theorem pptr_fits (k : Kind) (hk : k = .pptr8 ∨ k = .pptr16) (v : Variant) (b : Word) (f : Offset) :
    (Desc.ofPptr k b f).fieldsLegal = true ∧ (Desc.ofPptr k b f).selLegal v = f.inVariant v := by
  rcases hk with rfl | rfl <;> cases f <;>
    simp [Desc.ofPptr, Desc.fieldsLegal, Desc.selLegal, Desc.empty, Offset.inVariant]

theorem Loc8.desc_fits (o : Loc8) (v : Variant) (c : OperandClass) (hc : c = .w8 ∨ c = .r8) :
    o.desc.Fits c v (o.inVariant v) := by
  rcases o with x | p | ⟨b, f⟩ | m
  · rcases hc with rfl | rfl <;> refine ⟨?_, ?_, ?_⟩ <;>
      simp [Loc8.desc, Desc.ofSel, Desc.empty, Desc.kindLegal, Desc.fieldsLegal, Desc.selLegal, OperandClass.has,
        Loc8.inVariant]
  · rcases hc with rfl | rfl <;> refine ⟨?_, ?_, ?_⟩ <;>
      simp [Loc8.desc, Desc.ofSel, Desc.empty, Desc.kindLegal, Desc.fieldsLegal, Desc.selLegal, OperandClass.has,
        Loc8.inVariant]
  · refine ⟨?_, (pptr_fits .pptr8 (.inl rfl) v b f).1, (pptr_fits .pptr8 (.inl rfl) v b f).2⟩
    rcases hc with rfl | rfl <;> cases f <;> simp [Loc8.desc, Desc.ofPptr, Desc.kindLegal, OperandClass.has]
  · rcases hc with rfl | rfl <;> refine ⟨?_, ?_, ?_⟩ <;>
      simp [Loc8.desc, Desc.ofValue, Desc.empty, Desc.kindLegal, Desc.fieldsLegal, Desc.selLegal, OperandClass.has,
        Loc8.inVariant]

theorem Val8.desc_fits (o : Val8) (v : Variant) : o.desc.Fits .r8 v (o.inVariant v) := by
  cases o with
  | loc o => exact Loc8.desc_fits o v .r8 (.inr rfl)
  | imm w =>
    refine ⟨?_, ?_, ?_⟩
    · simp [Val8.desc, Desc.ofValue, Desc.kindLegal, OperandClass.has]
    · simp only [Val8.desc, Desc.ofValue, Desc.fieldsLegal, Kind.ofCode_code, Desc.empty]
      have : (BitVec.zeroExtend 16 w).extractLsb' 8 8 = 0 := by
        apply BitVec.eq_of_getLsbD_eq; intro i hi
        rw [BitVec.getLsbD_extractLsb']
        simp
      rw [this]; decide
    · simp [Val8.desc, Desc.ofValue, Desc.selLegal, Desc.empty, Val8.inVariant]

theorem Loc16.desc_fits (o : Loc16) (v : Variant) (c : OperandClass) (hc : c = .w16 ∨ c = .r16) :
    o.desc.Fits c v (o.inVariant v) := by
  rcases o with x | p | ⟨b, f⟩ | m
  · rcases hc with rfl | rfl <;> refine ⟨?_, ?_, ?_⟩ <;>
      simp [Loc16.desc, Desc.ofSel, Desc.empty, Desc.kindLegal, Desc.fieldsLegal, Desc.selLegal, OperandClass.has,
        Loc16.inVariant]
  · rcases hc with rfl | rfl <;> refine ⟨?_, ?_, ?_⟩ <;>
      simp [Loc16.desc, Desc.ofSel, Desc.empty, Desc.kindLegal, Desc.fieldsLegal, Desc.selLegal, OperandClass.has,
        Loc16.inVariant]
  · refine ⟨?_, (pptr_fits .pptr16 (.inr rfl) v b f).1, (pptr_fits .pptr16 (.inr rfl) v b f).2⟩
    rcases hc with rfl | rfl <;> cases f <;> simp [Loc16.desc, Desc.ofPptr, Desc.kindLegal, OperandClass.has]
  · rcases hc with rfl | rfl <;> refine ⟨?_, ?_, ?_⟩ <;>
      simp [Loc16.desc, Desc.ofValue, Desc.empty, Desc.kindLegal, Desc.fieldsLegal, Desc.selLegal, OperandClass.has,
        Loc16.inVariant]

theorem Val16.desc_fits (o : Val16) (v : Variant) : o.desc.Fits .r16 v (o.inVariant v) := by
  cases o with
  | loc o => exact Loc16.desc_fits o v .r16 (.inr rfl)
  | imm w =>
    refine ⟨?_, ?_, ?_⟩ <;>
      simp [Val16.desc, Desc.ofValue, Desc.empty, Desc.kindLegal, Desc.fieldsLegal, Desc.selLegal, OperandClass.has,
        Val16.inVariant]

/-! ## What a command that decodes has passed (R111) -/

/-- The checks 3 to 8 all pass. -/
theorem Op.refusal_eq_none {o : Op} {v : Variant} {aux : Byte} {dst src : BitVec 64}
    (h : o.refusal v aux dst src = none) :
    o.inVariant v = true ∧ o.auxLegal v aux = true ∧ reservedClear dst = true ∧ reservedClear src = true ∧
    (Desc.ofBits dst).kindLegal o.dstClass = true ∧ (Desc.ofBits src).kindLegal o.srcClass = true ∧
    (Desc.ofBits dst).selLegal v = true ∧ (Desc.ofBits src).selLegal v = true ∧
    (Desc.ofBits dst).fieldsLegal = true ∧ (Desc.ofBits src).fieldsLegal = true := by
  simp only [Op.refusal] at h
  repeat (split at h; exact nomatch h)
  simp_all

/-- What the decoder has established when it answers an instruction. -/
theorem decode_eq_ok {v : Variant} {w : Command} {i : Instr} (h : decode v w = .ok i) :
    ∃ o, Op.ofCode ((cwOf w).extractLsb' 0 8) = some o ∧ (cwOf w).extractLsb' 16 16 = 0 ∧
      o.refusal v ((cwOf w).extractLsb' 8 8) (dstOf w) (srcOf w) = none ∧
      o.build ((cwOf w).extractLsb' 8 8) (Desc.ofBits (dstOf w)) (Desc.ofBits (srcOf w)) = some i := by
  unfold decode at h
  split at h
  · exact nomatch h
  · rename_i hz
    split at h
    · exact nomatch h
    · rename_i o ho
      split at h
      · exact nomatch h
      · rename_i hr
        split at h
        · rename_i j hb
          injection h with h
          subst h
          exact ⟨o, ho, by simpa using hz, hr, hb⟩
        · exact nomatch h

/-- A legal descriptor of class W8 resolves. -/
theorem Desc.loc8?_isSome {d : Desc} {v : Variant} (hk : d.kindLegal .w8 = true) (hs : d.selLegal v = true) :
    ∃ o, d.loc8? = some o := by
  unfold Desc.kindLegal at hk
  unfold Desc.selLegal at hs
  unfold Desc.loc8? Desc.offset?
  cases hh : Kind.ofCode d.kind with
  | none => simp [hh] at hk
  | some k =>
    simp only [hh] at hk hs ⊢
    cases k <;> first
      | exact absurd hk (by decide)
      | exact ⟨_, rfl⟩
      | (simp only [Option.any_eq_true] at hs
         obtain ⟨x, hx, -⟩ := hs
         rw [hx]; exact ⟨_, rfl⟩)
      | (cases ho : d.offImm
         · simp only [ho, Bool.false_eq_true, if_false, Option.any_eq_true] at hs
           obtain ⟨x, hx, -⟩ := hs
           simp [hx]
         · simp)

/-- A legal descriptor of class W16 resolves. -/
theorem Desc.loc16?_isSome {d : Desc} {v : Variant} (hk : d.kindLegal .w16 = true) (hs : d.selLegal v = true) :
    ∃ o, d.loc16? = some o := by
  unfold Desc.kindLegal at hk
  unfold Desc.selLegal at hs
  unfold Desc.loc16? Desc.offset?
  cases hh : Kind.ofCode d.kind with
  | none => simp [hh] at hk
  | some k =>
    simp only [hh] at hk hs ⊢
    cases k <;> first
      | exact absurd hk (by decide)
      | exact ⟨_, rfl⟩
      | (simp only [Option.any_eq_true] at hs
         obtain ⟨x, hx, -⟩ := hs
         rw [hx]; exact ⟨_, rfl⟩)
      | (cases ho : d.offImm
         · simp only [ho, Bool.false_eq_true, if_false, Option.any_eq_true] at hs
           obtain ⟨x, hx, -⟩ := hs
           simp [hx]
         · simp)

theorem Desc.val8?_isSome {d : Desc} {v : Variant} (hk : d.kindLegal .r8 = true) (hs : d.selLegal v = true) :
    ∃ o, d.val8? = some o := by
  unfold Desc.val8?
  split
  · exact ⟨_, rfl⟩
  · rename_i hn
    have hw : d.kindLegal .w8 = true := by
      unfold Desc.kindLegal at hk ⊢
      cases hh : Kind.ofCode d.kind with
      | none => simp [hh] at hk
      | some k => rw [hh] at hk; cases k <;> first | rfl | exact absurd hk (by decide) | exact absurd hh hn
    obtain ⟨o, ho⟩ := Desc.loc8?_isSome hw hs
    exact ⟨.loc o, by simp [ho]⟩

theorem Desc.val16?_isSome {d : Desc} {v : Variant} (hk : d.kindLegal .r16 = true) (hs : d.selLegal v = true) :
    ∃ o, d.val16? = some o := by
  unfold Desc.val16?
  split
  · exact ⟨_, rfl⟩
  · rename_i hn
    have hw : d.kindLegal .w16 = true := by
      unfold Desc.kindLegal at hk ⊢
      cases hh : Kind.ofCode d.kind with
      | none => simp [hh] at hk
      | some k => rw [hh] at hk; cases k <;> first | rfl | exact absurd hk (by decide) | exact absurd hh hn
    obtain ⟨o, ho⟩ := Desc.loc16?_isSome hw hs
    exact ⟨.loc o, by simp [ho]⟩

theorem bind_isSome {α β : Type} {m : Option α} {f : α → Option β} (hm : ∃ a, m = some a)
    (hf : ∀ a, ∃ b, f a = some b) : ∃ b, m.bind f = some b := by
  obtain ⟨a, rfl⟩ := hm
  exact hf a

/-- Once every check has passed the operands resolve: the decoder's last arm is never taken. -/
theorem Op.build_isSome {o : Op} {v : Variant} {aux : Byte} {dst src : BitVec 64}
    (h : o.refusal v aux dst src = none) : ∃ i, o.build aux (Desc.ofBits dst) (Desc.ofBits src) = some i := by
  obtain ⟨-, ha, -, -, hd, hs, sd, ss, -, -⟩ := Op.refusal_eq_none h
  have hcond : o.auxUse = .cond → ∃ k, Cond.ofCode aux = some k := by
    intro hu
    rw [Op.auxLegal, hu] at ha
    simp only [Option.any_eq_true] at ha
    obtain ⟨k, hk, -⟩ := ha
    exact ⟨k, hk⟩
  have hshort : o.auxUse = .shortCond → ∃ k, Cond.ofCode aux = some k := by
    intro hu
    rw [Op.auxLegal, hu] at ha
    simp only [Option.any_eq_true] at ha
    obtain ⟨k, hk, -⟩ := ha
    exact ⟨k, hk⟩
  have hbit : o.auxUse = .bitIndex → ∃ b, bitIndex? aux = some b := by
    intro hu
    rw [Op.auxLegal, hu] at ha
    exact ⟨_, dif_pos (of_decide_eq_true ha)⟩
  have dl8 : o.dstClass = .w8 → ∃ a, (Desc.ofBits dst).loc8? = some a := fun e => Desc.loc8?_isSome (e ▸ hd) sd
  have dl16 : o.dstClass = .w16 → ∃ a, (Desc.ofBits dst).loc16? = some a := fun e => Desc.loc16?_isSome (e ▸ hd) sd
  have dv8 : o.dstClass = .r8 → ∃ a, (Desc.ofBits dst).val8? = some a := fun e => Desc.val8?_isSome (e ▸ hd) sd
  have sl16 : o.srcClass = .w16 → ∃ a, (Desc.ofBits src).loc16? = some a := fun e => Desc.loc16?_isSome (e ▸ hs) ss
  have sv8 : o.srcClass = .r8 → ∃ a, (Desc.ofBits src).val8? = some a := fun e => Desc.val8?_isSome (e ▸ hs) ss
  have sv16 : o.srcClass = .r16 → ∃ a, (Desc.ofBits src).val16? = some a := fun e => Desc.val16?_isSome (e ▸ hs) ss
  cases o <;> simp only [Op.build, Option.bind_eq_bind, Option.pure_def] <;> first
    | exact ⟨_, rfl⟩
    | exact bind_isSome (dl8 rfl) fun _ => ⟨_, rfl⟩
    | exact bind_isSome (dl16 rfl) fun _ => ⟨_, rfl⟩
    | exact bind_isSome (sv8 rfl) fun _ => ⟨_, rfl⟩
    | exact bind_isSome (sv16 rfl) fun _ => ⟨_, rfl⟩
    | exact bind_isSome (hcond rfl) fun _ => ⟨_, rfl⟩
    | exact bind_isSome (dl8 rfl) fun _ => bind_isSome (sv8 rfl) fun _ => ⟨_, rfl⟩
    | exact bind_isSome (dv8 rfl) fun _ => bind_isSome (sv8 rfl) fun _ => ⟨_, rfl⟩
    | exact bind_isSome (dl16 rfl) fun _ => bind_isSome (sv16 rfl) fun _ => ⟨_, rfl⟩
    | exact bind_isSome (dl16 rfl) fun _ => bind_isSome (sl16 rfl) fun _ => ⟨_, rfl⟩
    | exact bind_isSome (hbit rfl) fun _ => bind_isSome (sv8 rfl) fun _ => ⟨_, rfl⟩
    | exact bind_isSome (hbit rfl) fun _ => bind_isSome (dl8 rfl) fun _ => ⟨_, rfl⟩
    | exact bind_isSome (hcond rfl) fun _ => bind_isSome (sv16 rfl) fun _ => ⟨_, rfl⟩
    | exact bind_isSome (hshort rfl) fun _ => bind_isSome (sv8 rfl) fun _ => ⟨_, rfl⟩

end Sys2Proof
end

