-- ==== Sys2Proof/Laws/State.lean ====
section
/-! SUPPORT. Each update of a state, field by field, and the register files: reads after writes. -/

namespace Sys2Proof.Machine

/-! ## Register files -/

theorem Regs8.get_put (g : Regs8) (x y : Reg8) (k : Cell8) :
    (g.put x k).get y = if x = y then k else g.get y := by
  cases x <;> cases y <;> rfl

@[simp] theorem Regs8.get_put_self (g : Regs8) (x : Reg8) (k : Cell8) : (g.put x k).get x = k := by
  cases x <;> rfl

@[simp] theorem Regs8.get_put_ne (g : Regs8) {x y : Reg8} (k : Cell8) (h : x ≠ y) :
    (g.put x k).get y = g.get y := by
  simp [Regs8.get_put, h]

@[simp] theorem Regs8.put_get_self (g : Regs8) (x : Reg8) : g.put x (g.get x) = g := by
  cases x <;> rfl

@[simp] theorem Regs8.put_put_self (g : Regs8) (x : Reg8) (k m : Cell8) : (g.put x k).put x m = g.put x m := by
  cases x <;> rfl

theorem Regs8.put_comm (g : Regs8) {x y : Reg8} (k m : Cell8) (h : x ≠ y) :
    (g.put x k).put y m = (g.put y m).put x k := by
  cases x <;> cases y <;> first | rfl | exact absurd rfl h

/-- Two register files with the same cells are equal. -/
theorem Regs8.ext_get {g g' : Regs8} (h : ∀ x, g.get x = g'.get x) : g = g' := by
  obtain ⟨b, c, d, e, hh, l, f, a, b', c', d', e', h', l', f', a', i, r⟩ := g
  have := h .b; have := h .c; have := h .d; have := h .e; have := h .h; have := h .l; have := h .f; have := h .a
  have := h .b'; have := h .c'; have := h .d'; have := h .e'; have := h .h'; have := h .l'; have := h .f'
  have := h .a'; have := h .i; have := h .r
  simp only [Regs8.get] at *
  subst_vars
  rfl

theorem Regs16.get_put (g : Regs16) (x y : Reg16) (k : Cell16) :
    (g.put x k).get y = if x = y then k else g.get y := by
  cases x <;> cases y <;> rfl

@[simp] theorem Regs16.get_put_self (g : Regs16) (x : Reg16) (k : Cell16) : (g.put x k).get x = k := by
  cases x <;> rfl

@[simp] theorem Regs16.get_put_ne (g : Regs16) {x y : Reg16} (k : Cell16) (h : x ≠ y) :
    (g.put x k).get y = g.get y := by
  simp [Regs16.get_put, h]

@[simp] theorem Regs16.put_get_self (g : Regs16) (x : Reg16) : g.put x (g.get x) = g := by
  cases x <;> rfl

/-- The two halves of a pair are different registers (10_state.md R24). -/
theorem high_ne_low (p : Pair) : p.high ≠ p.low := by
  cases p <;> decide

/-! ## Fields after an update -/

/-! ### setReg8 -/

@[simp] theorem State.setReg8_cfg (s : State) (x : Reg8) (v : Byte) :
    (s.setReg8 x v).cfg = s.cfg := rfl

@[simp] theorem State.setReg8_regs8 (s : State) (x : Reg8) (v : Byte) :
    (s.setReg8 x v).regs8 = s.regs8.put x ⟨stored8 s.cfg x v, true⟩ := rfl

@[simp] theorem State.setReg8_regs16 (s : State) (x : Reg8) (v : Byte) :
    (s.setReg8 x v).regs16 = s.regs16 := rfl

@[simp] theorem State.setReg8_mem (s : State) (x : Reg8) (v : Byte) :
    (s.setReg8 x v).mem = s.mem := rfl

@[simp] theorem State.setReg8_faultRecord (s : State) (x : Reg8) (v : Byte) :
    (s.setReg8 x v).faultRecord = s.faultRecord := rfl

@[simp] theorem State.setReg8_busLog (s : State) (x : Reg8) (v : Byte) :
    (s.setReg8 x v).busLog = s.busLog := rfl

@[simp] theorem State.setReg8_outputs (s : State) (x : Reg8) (v : Byte) :
    (s.setReg8 x v).outputs = s.outputs := rfl

@[simp] theorem State.setReg8_inputs (s : State) (x : Reg8) (v : Byte) :
    (s.setReg8 x v).inputs = s.inputs := rfl

@[simp] theorem State.setReg8_command (s : State) (x : Reg8) (v : Byte) :
    (s.setReg8 x v).command = s.command := rfl

@[simp] theorem State.setReg8_draws (s : State) (x : Reg8) (v : Byte) :
    (s.setReg8 x v).draws = s.draws := rfl

/-! ### setReg16 -/

@[simp] theorem State.setReg16_cfg (s : State) (x : Reg16) (v : Word) :
    (s.setReg16 x v).cfg = s.cfg := rfl

@[simp] theorem State.setReg16_regs8 (s : State) (x : Reg16) (v : Word) :
    (s.setReg16 x v).regs8 = s.regs8 := rfl

@[simp] theorem State.setReg16_regs16 (s : State) (x : Reg16) (v : Word) :
    (s.setReg16 x v).regs16 = s.regs16.put x ⟨v, true⟩ := rfl

@[simp] theorem State.setReg16_mem (s : State) (x : Reg16) (v : Word) :
    (s.setReg16 x v).mem = s.mem := rfl

@[simp] theorem State.setReg16_faultRecord (s : State) (x : Reg16) (v : Word) :
    (s.setReg16 x v).faultRecord = s.faultRecord := rfl

@[simp] theorem State.setReg16_busLog (s : State) (x : Reg16) (v : Word) :
    (s.setReg16 x v).busLog = s.busLog := rfl

@[simp] theorem State.setReg16_outputs (s : State) (x : Reg16) (v : Word) :
    (s.setReg16 x v).outputs = s.outputs := rfl

@[simp] theorem State.setReg16_inputs (s : State) (x : Reg16) (v : Word) :
    (s.setReg16 x v).inputs = s.inputs := rfl

@[simp] theorem State.setReg16_command (s : State) (x : Reg16) (v : Word) :
    (s.setReg16 x v).command = s.command := rfl

@[simp] theorem State.setReg16_draws (s : State) (x : Reg16) (v : Word) :
    (s.setReg16 x v).draws = s.draws := rfl

/-! ### setPair -/

@[simp] theorem State.setPair_cfg (s : State) (p : Pair) (w : Word) :
    (s.setPair p w).cfg = s.cfg := rfl

@[simp] theorem State.setPair_regs8 (s : State) (p : Pair) (w : Word) :
    (s.setPair p w).regs8 = (s.regs8.put p.high ⟨stored8 s.cfg p.high (w.extractLsb' 8 8), true⟩).put p.low
      ⟨stored8 s.cfg p.low (w.extractLsb' 0 8), true⟩ := rfl

@[simp] theorem State.setPair_regs16 (s : State) (p : Pair) (w : Word) :
    (s.setPair p w).regs16 = s.regs16 := rfl

@[simp] theorem State.setPair_mem (s : State) (p : Pair) (w : Word) :
    (s.setPair p w).mem = s.mem := rfl

@[simp] theorem State.setPair_faultRecord (s : State) (p : Pair) (w : Word) :
    (s.setPair p w).faultRecord = s.faultRecord := rfl

@[simp] theorem State.setPair_busLog (s : State) (p : Pair) (w : Word) :
    (s.setPair p w).busLog = s.busLog := rfl

@[simp] theorem State.setPair_outputs (s : State) (p : Pair) (w : Word) :
    (s.setPair p w).outputs = s.outputs := rfl

@[simp] theorem State.setPair_inputs (s : State) (p : Pair) (w : Word) :
    (s.setPair p w).inputs = s.inputs := rfl

@[simp] theorem State.setPair_command (s : State) (p : Pair) (w : Word) :
    (s.setPair p w).command = s.command := rfl

@[simp] theorem State.setPair_draws (s : State) (p : Pair) (w : Word) :
    (s.setPair p w).draws = s.draws := rfl

/-! ### takeError -/

@[simp] theorem State.takeError_cfg (s : State) (e : Error) (k : Command) :
    (s.takeError e k).cfg = s.cfg := rfl

@[simp] theorem State.takeError_regs8 (s : State) (e : Error) (k : Command) :
    (s.takeError e k).regs8 = s.regs8 := rfl

@[simp] theorem State.takeError_regs16 (s : State) (e : Error) (k : Command) :
    (s.takeError e k).regs16 = s.regs16 := rfl

@[simp] theorem State.takeError_mem (s : State) (e : Error) (k : Command) :
    (s.takeError e k).mem = s.mem := rfl

@[simp] theorem State.takeError_faultRecord (s : State) (e : Error) (k : Command) :
    (s.takeError e k).faultRecord = some { error := e, command := k } := rfl

@[simp] theorem State.takeError_busLog (s : State) (e : Error) (k : Command) :
    (s.takeError e k).busLog = s.busLog := rfl

@[simp] theorem State.takeError_outputs (s : State) (e : Error) (k : Command) :
    (s.takeError e k).outputs = .error e :: s.outputs := rfl

@[simp] theorem State.takeError_inputs (s : State) (e : Error) (k : Command) :
    (s.takeError e k).inputs = s.inputs := rfl

@[simp] theorem State.takeError_command (s : State) (e : Error) (k : Command) :
    (s.takeError e k).command = s.command := rfl

@[simp] theorem State.takeError_draws (s : State) (e : Error) (k : Command) :
    (s.takeError e k).draws = s.draws := rfl

/-! ### complete -/

@[simp] theorem State.complete_cfg (s : State) (before : State) :
    (s.complete before).cfg = s.cfg := rfl

@[simp] theorem State.complete_regs8 (s : State) (before : State) :
    (s.complete before).regs8 = s.regs8 := rfl

@[simp] theorem State.complete_regs16 (s : State) (before : State) :
    (s.complete before).regs16 = s.regs16 := rfl

@[simp] theorem State.complete_mem (s : State) (before : State) :
    (s.complete before).mem = s.mem := rfl

@[simp] theorem State.complete_faultRecord (s : State) (before : State) :
    (s.complete before).faultRecord = s.faultRecord := rfl

@[simp] theorem State.complete_busLog (s : State) (before : State) :
    (s.complete before).busLog = s.busLog := rfl

@[simp] theorem State.complete_outputs (s : State) (before : State) :
    (s.complete before).outputs = .cycles (Config.cycles s.command (before, s)) :: s.outputs := rfl

@[simp] theorem State.complete_inputs (s : State) (before : State) :
    (s.complete before).inputs = s.inputs := rfl

@[simp] theorem State.complete_command (s : State) (before : State) :
    (s.complete before).command = s.command := rfl

@[simp] theorem State.complete_draws (s : State) (before : State) :
    (s.complete before).draws = s.draws := rfl

/-! ### emit -/

@[simp] theorem State.emit_cfg (s : State) (o : Output) :
    (s.emit o).cfg = s.cfg := rfl

@[simp] theorem State.emit_regs8 (s : State) (o : Output) :
    (s.emit o).regs8 = s.regs8 := rfl

@[simp] theorem State.emit_regs16 (s : State) (o : Output) :
    (s.emit o).regs16 = s.regs16 := rfl

@[simp] theorem State.emit_mem (s : State) (o : Output) :
    (s.emit o).mem = s.mem := rfl

@[simp] theorem State.emit_faultRecord (s : State) (o : Output) :
    (s.emit o).faultRecord = s.faultRecord := rfl

@[simp] theorem State.emit_busLog (s : State) (o : Output) :
    (s.emit o).busLog = s.busLog := rfl

@[simp] theorem State.emit_outputs (s : State) (o : Output) :
    (s.emit o).outputs = o :: s.outputs := rfl

@[simp] theorem State.emit_inputs (s : State) (o : Output) :
    (s.emit o).inputs = s.inputs := rfl

@[simp] theorem State.emit_command (s : State) (o : Output) :
    (s.emit o).command = s.command := rfl

@[simp] theorem State.emit_draws (s : State) (o : Output) :
    (s.emit o).draws = s.draws := rfl

/-! ## Registers after a write -/

@[simp] theorem State.setReg8_reg8_self (s : State) (x : Reg8) (v : Byte) :
    (s.setReg8 x v).reg8 x = stored8 s.cfg x v := by
  simp [State.reg8]

@[simp] theorem State.setReg8_reg8_ne (s : State) {x y : Reg8} (v : Byte) (h : x ≠ y) :
    (s.setReg8 x v).reg8 y = s.reg8 y := by
  simp [State.reg8, h]

@[simp] theorem State.setReg8_written8_self (s : State) (x : Reg8) (v : Byte) :
    (s.setReg8 x v).written8 x = true := by
  simp [State.written8]

@[simp] theorem State.setReg8_written8_ne (s : State) {x y : Reg8} (v : Byte) (h : x ≠ y) :
    (s.setReg8 x v).written8 y = s.written8 y := by
  simp [State.written8, h]

/-- Writing a register never makes another unwritten. -/
theorem State.setReg8_written8_mono (s : State) (x y : Reg8) (v : Byte) (h : s.written8 y = true) :
    (s.setReg8 x v).written8 y = true := by
  by_cases hxy : x = y
  · subst hxy; simp
  · simp [hxy, h]

@[simp] theorem State.setReg8_reg16 (s : State) (x : Reg8) (v : Byte) (y : Reg16) :
    (s.setReg8 x v).reg16 y = s.reg16 y := rfl

@[simp] theorem State.setReg8_written16 (s : State) (x : Reg8) (v : Byte) (y : Reg16) :
    (s.setReg8 x v).written16 y = s.written16 y := rfl

@[simp] theorem State.setReg16_reg16_self (s : State) (x : Reg16) (v : Word) : (s.setReg16 x v).reg16 x = v := by
  simp [State.reg16]

@[simp] theorem State.setReg16_reg16_ne (s : State) {x y : Reg16} (v : Word) (h : x ≠ y) :
    (s.setReg16 x v).reg16 y = s.reg16 y := by
  simp [State.reg16, h]

@[simp] theorem State.setReg16_written16_self (s : State) (x : Reg16) (v : Word) :
    (s.setReg16 x v).written16 x = true := by
  simp [State.written16]

@[simp] theorem State.setReg16_written16_ne (s : State) {x y : Reg16} (v : Word) (h : x ≠ y) :
    (s.setReg16 x v).written16 y = s.written16 y := by
  simp [State.written16, h]

@[simp] theorem State.setReg16_reg8 (s : State) (x : Reg16) (v : Word) (y : Reg8) :
    (s.setReg16 x v).reg8 y = s.reg8 y := rfl

@[simp] theorem State.setReg16_written8 (s : State) (x : Reg16) (v : Word) (y : Reg8) :
    (s.setReg16 x v).written8 y = s.written8 y := rfl

/-- A write of a register other than F stores the value (10_state.md R20). -/
@[simp] theorem stored8_of_ne (cfg : Config) {x : Reg8} (v : Byte) (h : x ≠ .f) : stored8 cfg x v = v := by
  simp [stored8, h]

/-- On the Z80 every write stores the value. -/
@[simp] theorem stored8_z80 {cfg : Config} (x : Reg8) (v : Byte) (h : cfg.variant = .z80) : stored8 cfg x v = v := by
  simp [stored8, h]

end Sys2Proof.Machine
end

