-- ==== Sys2Proof/Laws/Memory.lean ====
section
/-! SUPPORT. The flat memory: reads after writes, and the canonical form that every write keeps. -/

namespace Sys2Proof.Machine

@[simp] theorem Memory.read_nil (k : Nat) : Memory.read [] k = none := rfl

/-- A read after a write of the same byte gives the value written (20_memory.md R92). -/
@[simp] theorem Memory.read_write_self (m : Memory) (k : Nat) (v : Byte) :
    Memory.read (Memory.write m k v) k = some v := by
  induction m with
  | nil => simp [Memory.write, Memory.read]
  | cons e rest ih =>
    obtain ⟨k', w⟩ := e
    simp only [Memory.write]
    split
    · simp [Memory.read]
    · split
      · simp [Memory.read]
      · rename_i h; simp [Memory.read, h, ih]

/-- A write leaves every other byte alone. -/
@[simp] theorem Memory.read_write_ne (m : Memory) {k j : Nat} (v : Byte) (h : k ≠ j) :
    Memory.read (Memory.write m k v) j = Memory.read m j := by
  induction m with
  | nil => simp [Memory.write, Memory.read, h]
  | cons e rest ih =>
    obtain ⟨k', w⟩ := e
    simp only [Memory.write]
    split
    · simp [Memory.read, h]
    · split
      · rename_i hk; subst hk; simp [Memory.read, h]
      · simp [Memory.read, ih]

/-- A byte listed stays listed. -/
theorem Memory.read_write_isSome (m : Memory) (k j : Nat) (v : Byte) (h : (Memory.read m j).isSome = true) :
    (Memory.read (Memory.write m k v) j).isSome = true := by
  by_cases hkj : k = j
  · subst hkj; simp
  · simp [hkj, h]

/-- The canonical form, as a chain of keys. -/
theorem Memory.wf_iff_pairwise (m : Memory) : Memory.wf m = true ↔ (m.map Prod.fst).Pairwise (· < ·) := by
  induction m with
  | nil => simp [Memory.wf]
  | cons e rest ih =>
    cases rest with
    | nil => simp [Memory.wf]
    | cons e' rest' =>
      simp only [Memory.wf, Bool.and_eq_true, decide_eq_true_eq, ih, List.map_cons, List.pairwise_cons]
      constructor
      · rintro ⟨hlt, hall, hp⟩
        refine ⟨?_, hall, hp⟩
        intro b hb
        rcases List.mem_cons.1 hb with rfl | hb
        · exact hlt
        · exact Nat.lt_trans hlt (hall b hb)
      · rintro ⟨hall, hall', hp⟩
        exact ⟨hall _ (List.mem_cons_self ..), hall', hp⟩

/-- A key of the memory after a write is the written one or was there before. -/
theorem Memory.key_of_write (m : Memory) (k : Nat) (v : Byte) (j : Nat)
    (h : j ∈ (Memory.write m k v).map Prod.fst) : j = k ∨ j ∈ m.map Prod.fst := by
  induction m with
  | nil => simpa [Memory.write] using h
  | cons e rest ih =>
    obtain ⟨k', w⟩ := e
    simp only [Memory.write] at h
    split at h
    · simpa using h
    · split at h
      · rename_i hk; subst hk
        simp only [List.map_cons, List.mem_cons] at h ⊢
        tauto
      · simp only [List.map_cons, List.mem_cons] at h ⊢
        rcases h with rfl | h
        · tauto
        · rcases ih h with h | h <;> tauto

/-- Every write keeps the canonical form. -/
theorem Memory.write_wf (m : Memory) (k : Nat) (v : Byte) (h : Memory.wf m = true) :
    Memory.wf (Memory.write m k v) = true := by
  rw [Memory.wf_iff_pairwise] at h ⊢
  induction m with
  | nil => simp [Memory.write]
  | cons e rest ih =>
    obtain ⟨k', w⟩ := e
    simp only [List.map_cons, List.pairwise_cons] at h
    simp only [Memory.write]
    split
    · rename_i hlt
      simp only [List.map_cons, List.pairwise_cons, List.mem_cons]
      refine ⟨?_, h.1, h.2⟩
      rintro b (rfl | hb)
      · exact hlt
      · exact Nat.lt_trans hlt (h.1 b hb)
    · split
      · rename_i hk; subst hk
        simpa [List.pairwise_cons] using h
      · simp only [List.map_cons, List.pairwise_cons]
        refine ⟨?_, ih h.2⟩
        intro b hb
        rcases Memory.key_of_write rest k v b hb with rfl | hb
        · omega
        · exact h.1 b hb

/-- Below the first key of a canonical memory nothing is listed. -/
theorem Memory.read_of_lt (m : Memory) (k : Nat) (h : ∀ j ∈ m.map Prod.fst, k < j) : Memory.read m k = none := by
  induction m with
  | nil => rfl
  | cons e rest ih =>
    obtain ⟨k', w⟩ := e
    simp only [List.map_cons, List.mem_cons, forall_eq_or_imp] at h
    simp [Memory.read, Nat.ne_of_gt h.1, ih h.2]

end Sys2Proof.Machine
end

