-- ==== Sys2Proof/Laws/Run.lean ====
section
/-! SUPPORT. Running the parts of a command: what a sequence answers, and the two ways a command ends. -/

namespace Sys2Proof.Machine

variable {α β : Type} {s t : State}

@[simp] theorem M.pure_run (a : α) (s : State) : (pure a : M α) s = .ok a s := rfl

theorem M.bind_run (m : M α) (f : α → M β) (s : State) :
    (m >>= f) s = match m s with
      | .ok a t => f a t
      | .error e t => .error e t := by
  simp only [bind, EStateM.bind]
  cases m s <;> rfl

@[simp] theorem M.map_run (f : α → β) (m : M α) (s : State) :
    (f <$> m) s = match m s with
      | .ok a t => .ok (f a) t
      | .error e t => .error e t := by
  simp only [Functor.map, EStateM.map]
  cases m s <;> rfl

@[simp] theorem getState_run (s : State) : getState s = .ok s s := rfl

/-- Looking at the state and going on. -/
@[simp] theorem getState_bind (f : State → M β) (s : State) : (getState >>= f) s = f s s := by
  simp [M.bind_run]

@[simp] theorem raise_run (e : Error) (s : State) : (raise e : M α) s = .error e s := rfl

theorem M.bind_ok {m : M α} {f : α → M β} {a : α} (h : m s = .ok a t) : (m >>= f) s = f a t := by
  simp [M.bind_run, h]

theorem M.bind_error {m : M α} {f : α → M β} {e : Error} (h : m s = .error e t) : (m >>= f) s = .error e t := by
  simp [M.bind_run, h]

/-- A sequence succeeds exactly when both parts do. -/
theorem M.bind_eq_ok {m : M α} {f : α → M β} {b : β} :
    (m >>= f) s = .ok b t ↔ ∃ a u, m s = .ok a u ∧ f a u = .ok b t := by
  rw [M.bind_run]
  cases h : m s with
  | ok a u => simp
  | error e u => simp

/-- A sequence fails when its first part does, or when the second does after the first succeeded. -/
theorem M.bind_eq_error {m : M α} {f : α → M β} {e : Error} :
    (m >>= f) s = .error e t ↔ m s = .error e t ∨ ∃ a u, m s = .ok a u ∧ f a u = .error e t := by
  rw [M.bind_run]
  cases h : m s with
  | ok a u => simp
  | error e' u => simp

/-- A command answers a next state: completed, or with its error taken (60_exceptions.md R305). -/
theorem runCommand_cases (m : M Unit) (s : State) :
    (∃ t, m s = .ok () t ∧ runCommand m s = .next (t.complete s)) ∨
    (∃ e t, m s = .error e t ∧ runCommand m s = .next (t.takeError e t.command)) := by
  cases h : m s with
  | ok u t => exact .inl ⟨t, rfl, by simp [runCommand, h]⟩
  | error e t => exact .inr ⟨e, t, rfl, by simp [runCommand, h]⟩

theorem runCommand_ok {m : M Unit} (h : m s = .ok () t) : runCommand m s = .next (t.complete s) := by
  simp [runCommand, h]

theorem runCommand_error {m : M Unit} {e : Error} (h : m s = .error e t) :
    runCommand m s = .next (t.takeError e t.command) := by
  simp [runCommand, h]

/-! ## The state a part ends in, whichever way it ends -/

/-- The state a part ends in. -/
def M.final (m : M α) (s : State) : State :=
  match m s with
  | .ok _ t => t
  | .error _ t => t

theorem M.final_ok {m : M α} {a : α} (h : m s = .ok a t) : M.final m s = t := by simp [M.final, h]

theorem M.final_error {m : M α} {e : Error} (h : m s = .error e t) : M.final m s = t := by simp [M.final, h]

theorem M.final_congr {m n : M α} (h : m s = n s) : M.final m s = M.final n s := by simp [M.final, h]

@[simp] theorem M.final_raise (e : Error) (s : State) : M.final (raise e : M α) s = s := rfl

@[simp] theorem M.final_getState_bind (f : State → M β) (s : State) :
    M.final (getState >>= f) s = M.final (f s) s := M.final_congr (getState_bind f s)

@[simp] theorem M.final_pure (a : α) (s : State) : M.final (pure a : M α) s = s := rfl

/-- A reflexive-transitive account of a sequence: what relates `s` to the end of its first part, and a state
the first part reached to the end of the second, relates `s` to the end of the whole. -/
theorem M.final_bind {R : State → State → Prop} (htrans : ∀ {a b c}, R a b → R b c → R a c)
    {m : M α} {f : α → M β} (hm : R s (M.final m s)) (hf : ∀ a t, m s = .ok a t → R t (M.final (f a) t)) :
    R s (M.final (m >>= f) s) := by
  unfold M.final at hm ⊢
  rw [M.bind_run]
  cases h : m s with
  | ok a t =>
    simp only [h] at hm ⊢
    exact htrans hm (hf a t h)
  | error e t => simpa [h] using hm

end Sys2Proof.Machine
end

