-- ==== Sys2Proof/Laws/Within.lean ====
section
/-! SUPPORT. One relation that says everything a part of a command can do: which registers and which flat-memory
bytes may differ, that every other piece of state is as before, and that each clause of the invariant
is kept. One lemma per shared operation; frames and invariants are read off it. -/

namespace Sys2Proof.Machine

/-- From `s` to `t`, at most the Register8 cells of `w8`, the Register16 cells of `w16` and the flat bytes of
`ks` change; accesses are added to the log, draws are taken, and nothing else moves. -/
structure Within (w8 : Reg8 → Bool) (w16 : Reg16 → Bool) (ks : Nat → Prop) (s t : State) : Prop where
  cfg : t.cfg = s.cfg
  regs8 : ∀ x, w8 x = false → t.regs8.get x = s.regs8.get x
  regs16 : ∀ x, w16 x = false → t.regs16.get x = s.regs16.get x
  written8 : ∀ x, s.written8 x = true → t.written8 x = true
  written16 : ∀ x, s.written16 x = true → t.written16 x = true
  mem : ∀ k, ¬ ks k → Memory.read t.mem k = Memory.read s.mem k
  memEq : (∀ k, ¬ ks k) → t.mem = s.mem
  listed : ∀ k, (Memory.read s.mem k).isSome = true → (Memory.read t.mem k).isSome = true
  wf : Memory.wf s.mem = true → Memory.wf t.mem = true
  faultRecord : t.faultRecord = s.faultRecord
  outputs : t.outputs = s.outputs
  inputs : t.inputs = s.inputs
  command : t.command = s.command
  busLog : s.busLog <:+ t.busLog
  draws : s.draws ≤ t.draws
  routed : s.logRouted → t.logRouted
  masked : s.fMasked → t.fMasked

/-- No register and no flat byte changes. -/
abbrev ReadsOnly : State → State → Prop := Within (fun _ => false) (fun _ => false) (fun _ => False)

variable {w8 v8 : Reg8 → Bool} {w16 v16 : Reg16 → Bool} {ks js : Nat → Prop} {s t u : State}

/-- A state that differs in its log and its draws only, the log growing by routed accesses. -/
theorem readsOnly_log (s : State) (log : List BusEvent) (n : Nat) (hl : s.busLog <:+ log) (hn : s.draws ≤ n)
    (hr : s.logRouted → ({ s with busLog := log, draws := n } : State).logRouted) :
    ReadsOnly s { s with busLog := log, draws := n } where
  cfg := rfl
  regs8 _ _ := rfl
  regs16 _ _ := rfl
  written8 _ h := h
  written16 _ h := h
  mem _ _ := rfl
  memEq _ := rfl
  listed _ h := h
  wf h := h
  faultRecord := rfl
  outputs := rfl
  inputs := rfl
  command := rfl
  busLog := hl
  draws := hn
  routed := hr
  masked h := h

theorem Within.refl (w8 : Reg8 → Bool) (w16 : Reg16 → Bool) (ks : Nat → Prop) (s : State) : Within w8 w16 ks s s where
  cfg := rfl
  regs8 _ _ := rfl
  regs16 _ _ := rfl
  written8 _ h := h
  written16 _ h := h
  mem _ _ := rfl
  memEq _ := rfl
  listed _ h := h
  wf h := h
  faultRecord := rfl
  outputs := rfl
  inputs := rfl
  command := rfl
  busLog := List.suffix_refl _
  draws := Nat.le_refl _
  routed h := h
  masked h := h

theorem Within.trans (h : Within w8 w16 ks s t) (g : Within w8 w16 ks t u) : Within w8 w16 ks s u where
  cfg := g.cfg.trans h.cfg
  regs8 x hx := (g.regs8 x hx).trans (h.regs8 x hx)
  regs16 x hx := (g.regs16 x hx).trans (h.regs16 x hx)
  written8 x hx := g.written8 x (h.written8 x hx)
  written16 x hx := g.written16 x (h.written16 x hx)
  mem k hk := (g.mem k hk).trans (h.mem k hk)
  memEq hk := (g.memEq hk).trans (h.memEq hk)
  listed k hk := g.listed k (h.listed k hk)
  wf hk := g.wf (h.wf hk)
  faultRecord := g.faultRecord.trans h.faultRecord
  outputs := g.outputs.trans h.outputs
  inputs := g.inputs.trans h.inputs
  command := g.command.trans h.command
  busLog := h.busLog.trans g.busLog
  draws := h.draws.trans g.draws
  routed hr := g.routed (h.routed hr)
  masked hr := g.masked (h.masked hr)

/-- A tighter account is a looser one. -/
theorem Within.mono (h : Within w8 w16 ks s t) (h8 : ∀ x, v8 x = false → w8 x = false)
    (h16 : ∀ x, v16 x = false → w16 x = false) (hk : ∀ k, ks k → js k) : Within v8 v16 js s t where
  cfg := h.cfg
  regs8 x hx := h.regs8 x (h8 x hx)
  regs16 x hx := h.regs16 x (h16 x hx)
  written8 := h.written8
  written16 := h.written16
  mem k hj := h.mem k (fun hh => hj (hk k hh))
  memEq hj := h.memEq (fun k hh => hj k (hk k hh))
  listed := h.listed
  wf := h.wf
  faultRecord := h.faultRecord
  outputs := h.outputs
  inputs := h.inputs
  command := h.command
  busLog := h.busLog
  draws := h.draws
  routed := h.routed
  masked := h.masked

theorem ReadsOnly.within (h : ReadsOnly s t) : Within w8 w16 ks s t :=
  h.mono (fun _ _ => rfl) (fun _ _ => rfl) (fun _ hf => hf.elim)

/-- A sequence stays within what both its parts stay within. -/
theorem Within.bind {α β : Type} {m : M α} {f : α → M β} (hm : Within w8 w16 ks s (M.final m s))
    (hf : ∀ a t, m s = .ok a t → Within w8 w16 ks t (M.final (f a) t)) :
    Within w8 w16 ks s (M.final (m >>= f) s) :=
  M.final_bind (R := Within w8 w16 ks) Within.trans hm hf

theorem Within.of_ok {α : Type} {m : M α} {a : α} (h : Within w8 w16 ks s (M.final m s)) (hm : m s = .ok a t) :
    Within w8 w16 ks s t := by
  rwa [M.final_ok hm] at h

theorem Within.of_error {α : Type} {m : M α} {e : Error} (h : Within w8 w16 ks s (M.final m s))
    (hm : m s = .error e t) : Within w8 w16 ks s t := by
  rwa [M.final_error hm] at h

/-! ## What reads leave (read off `ReadsOnly`) -/

theorem ReadsOnly.get8 (h : ReadsOnly s t) (x : Reg8) : t.regs8.get x = s.regs8.get x := h.regs8 x rfl
theorem ReadsOnly.get16 (h : ReadsOnly s t) (x : Reg16) : t.regs16.get x = s.regs16.get x := h.regs16 x rfl
theorem ReadsOnly.reg8_eq (h : ReadsOnly s t) (x : Reg8) : t.reg8 x = s.reg8 x := by simp [State.reg8, h.get8]
theorem ReadsOnly.reg16_eq (h : ReadsOnly s t) (x : Reg16) : t.reg16 x = s.reg16 x := by simp [State.reg16, h.get16]
theorem ReadsOnly.written8_eq (h : ReadsOnly s t) (x : Reg8) : t.written8 x = s.written8 x := by simp [State.written8, h.get8]
theorem ReadsOnly.written16_eq (h : ReadsOnly s t) (x : Reg16) : t.written16 x = s.written16 x := by
  simp [State.written16, h.get16]
theorem ReadsOnly.mem_eq (h : ReadsOnly s t) : t.mem = s.mem := h.memEq (fun _ hf => hf)
theorem ReadsOnly.flag_eq (h : ReadsOnly s t) (f : Flag) : t.flag f = s.flag f := by
  simp [State.flag, h.cfg, h.reg8_eq]

/-! ## Registers and draws -/

theorem fMasked_setReg8 (s : State) (x : Reg8) (v : Byte) (h : s.fMasked) : (s.setReg8 x v).fMasked := by
  intro hg hm hw
  simp only [State.setReg8_cfg] at hg hm
  by_cases hx : x = .f
  · subst hx
    rw [State.setReg8_reg8_self, stored8]
    simp only [beq_self_eq_true, hg, hm, Bool.and_self, if_true]
    rw [BitVec.and_assoc, show (0xF0 : Byte) &&& 0x0F = 0 by decide]; simp
  · rw [State.setReg8_reg8_ne _ _ hx]
    rw [State.setReg8_written8_ne _ _ hx] at hw
    exact h hg hm hw

/-- A Register8 write changes that cell. -/
theorem within_setReg8 (s : State) (x : Reg8) (v : Byte) :
    Within (fun y => x == y) (fun _ => false) (fun _ => False) s (s.setReg8 x v) where
  cfg := rfl
  regs8 y hy := by
    have : x ≠ y := by simpa using hy
    simp [this]
  regs16 _ _ := rfl
  written8 y hy := State.setReg8_written8_mono s x y v hy
  written16 _ h := h
  mem _ _ := rfl
  memEq _ := rfl
  listed _ h := h
  wf h := h
  faultRecord := rfl
  outputs := rfl
  inputs := rfl
  command := rfl
  busLog := List.suffix_refl _
  draws := Nat.le_refl _
  routed h := h
  masked h := fMasked_setReg8 s x v h

/-- A Register16 write changes that cell. -/
theorem within_setReg16 (s : State) (x : Reg16) (v : Word) :
    Within (fun _ => false) (fun y => x == y) (fun _ => False) s (s.setReg16 x v) where
  cfg := rfl
  regs8 _ _ := rfl
  regs16 y hy := by
    have : x ≠ y := by simpa using hy
    simp [this]
  written8 _ h := h
  written16 y hy := by
    by_cases hxy : x = y
    · subst hxy; simp
    · simp [hxy, hy]
  mem _ _ := rfl
  memEq _ := rfl
  listed _ h := h
  wf h := h
  faultRecord := rfl
  outputs := rfl
  inputs := rfl
  command := rfl
  busLog := List.suffix_refl _
  draws := Nat.le_refl _
  routed h := h
  masked h := h

/-- A pair write changes its two halves (10_state.md R26). -/
theorem within_setPair (s : State) (p : Pair) (w : Word) :
    Within (fun y => p.high == y || p.low == y) (fun _ => false) (fun _ => False) s (s.setPair p w) := by
  refine Within.trans (t := s.setReg8 p.high (w.extractLsb' 8 8)) ?_ ?_
  · exact (within_setReg8 _ _ _).mono (by simp +contextual) (fun _ _ => rfl) (fun _ h => h)
  · exact (within_setReg8 _ _ _).mono (by simp +contextual) (fun _ _ => rfl) (fun _ h => h)

theorem within_drawBit (s : State) : ReadsOnly s (M.final drawBit s) := by
  exact readsOnly_log s s.busLog (s.draws + 1) (List.suffix_refl _) (Nat.le_succ _) (fun h => h)

theorem within_drawByte (s : State) : ReadsOnly s (M.final drawByte s) := by
  exact readsOnly_log s s.busLog (s.draws + 1) (List.suffix_refl _) (Nat.le_succ _) (fun h => h)

theorem within_readReg8 (x : Reg8) (s : State) : ReadsOnly s (M.final (readReg8 x) s) := by
  have h : M.final (readReg8 x) s = s := by
    unfold M.final readReg8; by_cases hx : s.written8 x = true <;> simp [hx]
  rw [h]; exact Within.refl ..

theorem within_readReg16 (x : Reg16) (s : State) : ReadsOnly s (M.final (readReg16 x) s) := by
  have h : M.final (readReg16 x) s = s := by
    unfold M.final readReg16; by_cases hx : s.written16 x = true <;> simp [hx]
  rw [h]; exact Within.refl ..

theorem within_readPair (p : Pair) (s : State) : ReadsOnly s (M.final (readPair p) s) :=
  Within.bind (within_readReg8 _ _) fun _ _ _ => Within.bind (within_readReg8 _ _) fun _ _ _ => Within.refl ..

theorem within_writeReg8 (x : Reg8) (v : Byte) (s : State) :
    Within (fun y => x == y) (fun _ => false) (fun _ => False) s (M.final (writeReg8 x v) s) := within_setReg8 s x v

theorem within_writeReg16 (x : Reg16) (v : Word) (s : State) :
    Within (fun _ => false) (fun y => x == y) (fun _ => False) s (M.final (writeReg16 x v) s) := within_setReg16 s x v

theorem within_writePair (p : Pair) (w : Word) (s : State) :
    Within (fun y => p.high == y || p.low == y) (fun _ => false) (fun _ => False) s (M.final (writePair p w) s) :=
  within_setPair s p w

/-! ## The bus -/

theorem storeKey_congr (h : t.cfg = s.cfg) (a : Addr) : t.storeKey a = s.storeKey a := by
  simp [State.storeKey, h]

theorem within_flatRead (fb : FlatBlock) (a : Addr) (s : State) : ReadsOnly s (M.final (flatRead fb a) s) := by
  have h : M.final (flatRead fb a) s = s := by
    unfold M.final flatRead
    split_ifs
    · split <;> split at * <;> simp_all
    · rfl
  rw [h]; exact Within.refl ..

theorem within_deviceRead (d : Device) (a : Addr) (s : State) : ReadsOnly s (M.final (deviceRead d a) s) := by
  cases d with
  | flat fb => exact within_flatRead fb a s
  | peripheral n => exact within_drawByte s

/-- Logging an access to the device its address routes to. -/
theorem within_logEvent (ev : BusEvent) (s : State)
    (h : (route s.cfg.listeners ev.addr).map Listener.device = some ev.device) :
    ReadsOnly s (M.final (logEvent ev) s) := by
  refine readsOnly_log s (ev :: s.busLog) s.draws (List.suffix_cons _ _) (Nat.le_refl _) ?_
  intro hr e hm
  rcases List.mem_cons.1 hm with rfl | hm
  · exact h
  · exact hr e hm

/-- A byte read changes no register and no flat byte (20_memory.md R76). -/
theorem within_busRead8 (a : Addr) (s : State) : ReadsOnly s (M.final (busRead8 a) s) := by
  simp only [busRead8, M.final_getState_bind]
  cases hr : route s.cfg.listeners a with
  | none => exact Within.refl ..
  | some l =>
    refine Within.bind (within_deviceRead _ _ _) fun v t ht => Within.bind (within_logEvent _ _ ?_)
      fun _ _ _ => Within.refl ..
    simp [((within_deviceRead l.device a s).of_ok ht).cfg, hr]

theorem within_flatWrite (fb : FlatBlock) (a : Addr) (v : Byte) (s : State) :
    Within (fun _ => false) (fun _ => false) (fun k => fb.inWindow a = true ∧ k = fb.key a) s
      (M.final (flatWrite fb a v) s) := by
  by_cases hw : fb.inWindow a = true
  · have h : M.final (flatWrite fb a v) s = { s with mem := Memory.write s.mem (fb.key a) v } := by
      simp [M.final, flatWrite, hw]
    rw [h]
    exact {
      cfg := rfl, regs8 := fun _ _ => rfl, regs16 := fun _ _ => rfl
      written8 := fun _ h => h, written16 := fun _ h => h
      mem := fun k hk => Memory.read_write_ne _ _ (fun he => hk ⟨hw, he.symm⟩)
      memEq := fun hk => absurd ⟨hw, rfl⟩ (hk (fb.key a))
      listed := fun k hk => Memory.read_write_isSome _ _ _ _ hk
      wf := fun h => Memory.write_wf _ _ _ h
      faultRecord := rfl, outputs := rfl, inputs := rfl, command := rfl
      busLog := List.suffix_refl _, draws := Nat.le_refl _
      routed := fun h => h, masked := fun h => h }
  · have h : M.final (flatWrite fb a v) s = s := by simp [M.final, flatWrite, hw]
    rw [h]; exact Within.refl ..

/-- A byte write changes at most the flat byte behind its address. -/
theorem within_busWrite8 (a : Addr) (v : Byte) (s : State) :
    Within (fun _ => false) (fun _ => false) (fun k => s.storeKey a = some k) s (M.final (busWrite8 a v) s) := by
  simp only [busWrite8, M.final_getState_bind]
  cases hr : route s.cfg.listeners a with
  | none => exact Within.refl ..
  | some l =>
    have hd : Within (fun _ => false) (fun _ => false) (fun k => s.storeKey a = some k) s
        (M.final (deviceWrite l.device a v) s) := by
      obtain ⟨f, la, d⟩ := l
      cases d with
      | peripheral n => exact Within.refl ..
      | flat fb =>
        refine (within_flatWrite fb a v s).mono (fun _ h => h) (fun _ h => h) ?_
        rintro k ⟨hw, rfl⟩
        simp [State.storeKey, hr, hw]
    refine Within.bind hd fun u t ht => (within_logEvent _ _ ?_).within
    simp [(hd.of_ok ht).cfg, hr]

theorem within_memRead16 (a : Addr) (s : State) : ReadsOnly s (M.final (memRead16 a) s) :=
  Within.bind (within_busRead8 _ _) fun _ _ _ => Within.bind (within_busRead8 _ _) fun _ _ _ => Within.refl ..

/-- A word write changes at most the flat bytes behind its two addresses. -/
theorem within_memWrite16 (a : Addr) (v : Word) (s : State) :
    Within (fun _ => false) (fun _ => false) (fun k => k ∈ s.keysOf (wordAddrs a)) s
      (M.final (memWrite16 a v) s) := by
  have h1 := within_busWrite8 a (v.extractLsb' 0 8) s
  refine Within.bind (h1.mono (fun _ h => h) (fun _ h => h) ?_) fun u t ht => ?_
  · intro k hk; simp [State.keysOf, wordAddrs, hk]
  · refine (within_busWrite8 (a + 1) (v.extractLsb' 8 8) t).mono (fun _ h => h) (fun _ h => h) ?_
    intro k hk
    rw [storeKey_congr (h1.of_ok ht).cfg] at hk
    exact List.mem_filterMap.2 ⟨a + 1, by simp [wordAddrs], hk⟩

end Sys2Proof.Machine
end

