-- ==== Sys2Proof/Laws/Operands.lean ====
section
/-! SUPPORT. The operand forms: what each access may change, and when it succeeds. -/

namespace Sys2Proof.Machine

variable {s t : State}

/-! ## Single accesses -/

theorem readReg8_ok {x : Reg8} (h : s.written8 x = true) : readReg8 x s = .ok (s.reg8 x) s := by
  simp [readReg8, h]

theorem readReg16_ok {x : Reg16} (h : s.written16 x = true) : readReg16 x s = .ok (s.reg16 x) s := by
  simp [readReg16, h]

theorem readReg8_unwritten {x : Reg8} (h : s.written8 x = false) :
    readReg8 x s = .error (.unwritten (.reg8 x)) s := by
  simp [readReg8, h]

theorem readReg16_unwritten {x : Reg16} (h : s.written16 x = false) :
    readReg16 x s = .error (.unwritten (.reg16 x)) s := by
  simp [readReg16, h]

/-- The halves of two bytes put together (00_scope.md R6). -/
@[simp] theorem high_append (hi lo : Byte) : (hi ++ lo).extractLsb' 8 8 = hi := by
  apply BitVec.eq_of_getLsbD_eq
  intro i h
  have := BitVec.getLsbD_append (x := hi) (y := lo) (i := 8 + i)
  rw [BitVec.getLsbD_extractLsb']
  simp_all

@[simp] theorem low_append (hi lo : Byte) : (hi ++ lo).extractLsb' 0 8 = lo := by
  apply BitVec.eq_of_getLsbD_eq
  intro i h
  have := BitVec.getLsbD_append (x := hi) (y := lo) (i := 0 + i)
  rw [BitVec.getLsbD_extractLsb']
  simp_all

theorem readReg8_eq_ok {x : Reg8} {v : Byte} :
    readReg8 x s = .ok v t ↔ s.written8 x = true ∧ v = s.reg8 x ∧ t = s := by
  by_cases h : s.written8 x = true <;> simp [readReg8, h, eq_comm]

theorem readReg16_eq_ok {x : Reg16} {v : Word} :
    readReg16 x s = .ok v t ↔ s.written16 x = true ∧ v = s.reg16 x ∧ t = s := by
  by_cases h : s.written16 x = true <;> simp [readReg16, h, eq_comm]

theorem readPair_ok {p : Pair} (h : s.writtenPair p = true) : readPair p s = .ok (s.pair p) s := by
  simp only [State.writtenPair, Bool.and_eq_true] at h
  simp [readPair, M.bind_run, readReg8_ok h.1, readReg8_ok h.2, State.pair]

/-- Reading a pair changes nothing: it gives its value, or names an unwritten half. -/
theorem readPair_cases (p : Pair) (s : State) :
    (s.writtenPair p = true ∧ readPair p s = .ok (s.pair p) s) ∨
    ∃ x, (x = p.high ∨ x = p.low) ∧ s.written8 x = false ∧ readPair p s = .error (.unwritten (.reg8 x)) s := by
  cases hh : s.written8 p.high with
  | false => exact .inr ⟨_, .inl rfl, hh, by rw [readPair, M.bind_error (readReg8_unwritten hh)]⟩
  | true =>
    cases hl : s.written8 p.low with
    | false =>
      exact .inr ⟨_, .inr rfl, hl, by rw [readPair, M.bind_ok (readReg8_ok hh), M.bind_error (readReg8_unwritten hl)]⟩
    | true =>
      have h : s.writtenPair p = true := by rw [State.writtenPair, hh, hl]; rfl
      exact .inl ⟨h, readPair_ok h⟩

theorem readPair_eq_ok {p : Pair} {v : Word} :
    readPair p s = .ok v t ↔ s.writtenPair p = true ∧ v = s.pair p ∧ t = s := by
  simp only [readPair, M.bind_eq_ok, readReg8_eq_ok, M.pure_run, State.writtenPair, State.pair, Bool.and_eq_true]
  constructor
  · rintro ⟨_, _, ⟨h1, rfl, rfl⟩, _, _, ⟨h2, rfl, rfl⟩, h⟩
    cases h; exact ⟨⟨h1, h2⟩, rfl, rfl⟩
  · rintro ⟨⟨h1, h2⟩, rfl, rfl⟩
    exact ⟨_, _, ⟨h1, rfl, rfl⟩, _, _, ⟨h2, rfl, rfl⟩, rfl⟩

theorem readSrc16_ok {p : Src16} (h : s.srcWritten p = true) : readSrc16 p s = .ok (s.src16 p) s := by
  cases p with
  | pair p => exact readPair_ok h
  | reg x => exact readReg16_ok h

theorem readSrc16_eq_ok {p : Src16} {v : Word} :
    readSrc16 p s = .ok v t ↔ s.srcWritten p = true ∧ v = s.src16 p ∧ t = s := by
  cases p with
  | pair p => exact readPair_eq_ok
  | reg x => exact readReg16_eq_ok

theorem pseudoEa_ok {base : Word} {o : Offset} (h : s.offsetWritten o = true) :
    pseudoEa base o s = .ok (pseudoAddr base (s.offset o)) s := by
  cases o with
  | reg x => simp [pseudoEa, readOffset, M.bind_run, readReg8_ok (show s.written8 x = true from h), State.offset]
  | imm v => rfl

theorem pseudoEa_eq_ok {base : Word} {o : Offset} {v : Word} :
    pseudoEa base o s = .ok v t ↔ s.offsetWritten o = true ∧ v = pseudoAddr base (s.offset o) ∧ t = s := by
  cases o with
  | reg x =>
    simp only [pseudoEa, readOffset, M.bind_eq_ok, readReg8_eq_ok, M.pure_run, State.offset, State.offsetWritten]
    constructor
    · rintro ⟨_, _, ⟨h1, rfl, rfl⟩, h⟩; cases h; exact ⟨h1, rfl, rfl⟩
    · rintro ⟨h1, rfl, rfl⟩; exact ⟨_, _, ⟨h1, rfl, rfl⟩, rfl⟩
  | imm w =>
    simp only [pseudoEa, readOffset, M.bind_eq_ok, M.pure_run, State.offset, State.offsetWritten]
    constructor
    · rintro ⟨_, _, h1, h2⟩; cases h1; cases h2; exact ⟨trivial, rfl, rfl⟩
    · rintro ⟨-, rfl, rfl⟩; exact ⟨_, _, rfl, rfl⟩

/-! ## What an operand access may change -/

theorem within_readSrc16 (p : Src16) (s : State) : ReadsOnly s (M.final (readSrc16 p) s) := by
  cases p with
  | pair p => exact within_readPair p s
  | reg x => exact within_readReg16 x s

theorem within_pseudoEa (base : Word) (o : Offset) (s : State) : ReadsOnly s (M.final (pseudoEa base o) s) := by
  cases o with
  | reg x => exact Within.bind (within_readReg8 x s) fun _ _ _ => Within.refl ..
  | imm v => exact Within.refl ..

/-- `Read8` changes no register and no flat byte (20_memory.md R76, R91). -/
theorem within_readLoc8 (o : Loc8) (s : State) : ReadsOnly s (M.final (readLoc8 o) s) := by
  cases o with
  | reg x => exact within_readReg8 x s
  | ptr p => exact Within.bind (within_readSrc16 p s) fun a t _ => within_busRead8 a t
  | pptr base o => exact Within.bind (within_pseudoEa base o s) fun a t _ => within_busRead8 a t
  | mem m => exact within_busRead8 m s

theorem within_readVal8 (o : Val8) (s : State) : ReadsOnly s (M.final (readVal8 o) s) := by
  cases o with
  | loc o => exact within_readLoc8 o s
  | imm v => exact Within.refl ..

/-- `Read16` changes no register and no flat byte. -/
theorem within_readLoc16 (o : Loc16) (s : State) : ReadsOnly s (M.final (readLoc16 o) s) := by
  cases o with
  | reg x => exact within_readReg16 x s
  | pair p => exact within_readPair p s
  | pptr base o => exact Within.bind (within_pseudoEa base o s) fun a t _ => within_memRead16 a t
  | mem m => exact within_memRead16 m s

theorem within_readVal16 (o : Val16) (s : State) : ReadsOnly s (M.final (readVal16 o) s) := by
  cases o with
  | loc o => exact within_readLoc16 o s
  | imm v => exact Within.refl ..

/-- `Write8` changes at most the register the operand is, or the flat byte behind its address. -/
theorem within_writeLoc8 (o : Loc8) (v : Byte) (s : State) :
    Within o.isReg8 (fun _ => false) (fun k => k ∈ s.keysOf (s.stores8 o)) s (M.final (writeLoc8 o v) s) := by
  have key : ∀ a : Addr, s.stores8 o = [a] → Within o.isReg8 (fun _ => false) (fun k => k ∈ s.keysOf (s.stores8 o)) s
      (M.final (busWrite8 a v) s) := by
    intro a ha
    refine (within_busWrite8 a v s).mono (fun _ _ => rfl) (fun _ h => h) ?_
    intro k hk; simp [ha, State.keysOf, hk]
  cases o with
  | reg x => exact (within_writeReg8 x v s).mono (fun _ h => h) (fun _ h => h) (fun _ h => h.elim)
  | ptr p =>
    refine Within.bind (within_readSrc16 p s).within fun a t ht => ?_
    obtain ⟨-, rfl, rfl⟩ := readSrc16_eq_ok.1 ht
    exact key _ rfl
  | pptr base o =>
    refine Within.bind (within_pseudoEa base o s).within fun a t ht => ?_
    obtain ⟨-, rfl, rfl⟩ := pseudoEa_eq_ok.1 ht
    exact key _ rfl
  | mem m => exact key m rfl

/-- `Write16` changes at most the registers the operand is, or the flat bytes behind its two addresses. -/
theorem within_writeLoc16 (o : Loc16) (v : Word) (s : State) :
    Within o.isReg8 o.isReg16 (fun k => k ∈ s.keysOf (s.stores16 o)) s (M.final (writeLoc16 o v) s) := by
  have key : ∀ a : Addr, s.stores16 o = wordAddrs a → Within o.isReg8 o.isReg16
      (fun k => k ∈ s.keysOf (s.stores16 o)) s (M.final (memWrite16 a v) s) := by
    intro a ha
    refine (within_memWrite16 a v s).mono (fun _ _ => rfl) (fun _ _ => rfl) ?_
    intro k hk; simpa [ha] using hk
  cases o with
  | reg x => exact (within_writeReg16 x v s).mono (fun _ _ => rfl) (fun _ h => h) (fun _ h => h.elim)
  | pair p => exact (within_writePair p v s).mono (fun _ h => h) (fun _ _ => rfl) (fun _ h => h.elim)
  | pptr base o =>
    refine Within.bind (within_pseudoEa base o s).within fun a t ht => ?_
    obtain ⟨-, rfl, rfl⟩ := pseudoEa_eq_ok.1 ht
    exact key _ rfl
  | mem m => exact key m rfl

/-! ## When an access succeeds -/

/-- A byte read succeeds exactly where `busReads` says. -/
theorem busRead8_ok_iff (a : Addr) (s : State) : (∃ v t, busRead8 a s = .ok v t) ↔ s.busReads a = true := by
  simp only [busRead8, getState_bind, State.busReads]
  cases hr : route s.cfg.listeners a with
  | none => simp
  | some l =>
    obtain ⟨f, la, d⟩ := l
    cases d with
    | peripheral n => simp [M.bind_run, deviceRead, drawByte, logEvent]
    | flat fb =>
      by_cases hw : fb.inWindow a = true
      · cases hm : Memory.read s.mem (fb.key a) with
        | none => simp [M.bind_run, deviceRead, flatRead, hw, hm]
        | some v => simp [M.bind_run, deviceRead, flatRead, hw, hm, logEvent]
      · simp [M.bind_run, deviceRead, flatRead, hw]

/-- A byte write succeeds exactly where `busWrites` says. -/
theorem busWrite8_ok_iff (a : Addr) (v : Byte) (s : State) :
    (∃ t, busWrite8 a v s = .ok () t) ↔ s.busWrites a = true := by
  simp only [busWrite8, getState_bind, State.busWrites]
  cases hr : route s.cfg.listeners a with
  | none => simp
  | some l =>
    obtain ⟨f, la, d⟩ := l
    cases d with
    | peripheral n => simp [M.bind_run, deviceWrite, logEvent]
    | flat fb =>
      by_cases hw : fb.inWindow a = true <;> simp [M.bind_run, deviceWrite, flatWrite, hw, logEvent]

/-- A byte write to a flat byte sets exactly that byte and logs the access (20_memory.md R65, R76). -/
theorem busWrite8_flat {a : Addr} {l : Listener} {fb : FlatBlock} (v : Byte) (hr : route s.cfg.listeners a = some l)
    (hd : l.device = .flat fb) (hw : fb.inWindow a = true) :
    busWrite8 a v s = .ok () { s with
      mem := Memory.write s.mem (fb.key a) v
      busLog := { device := .flat fb, kind := .write, addr := a, value := v } :: s.busLog } := by
  simp [busWrite8, M.bind_run, hr, hd, deviceWrite, flatWrite, hw, logEvent]

/-- A byte read of a written flat byte gives that byte and logs the access. -/
theorem busRead8_flat {a : Addr} {l : Listener} {fb : FlatBlock} {v : Byte} (hr : route s.cfg.listeners a = some l)
    (hd : l.device = .flat fb) (hw : fb.inWindow a = true) (hm : Memory.read s.mem (fb.key a) = some v) :
    busRead8 a s = .ok v { s with
      busLog := { device := .flat fb, kind := .read, addr := a, value := v } :: s.busLog } := by
  simp [busRead8, M.bind_run, hr, hd, deviceRead, flatRead, hw, hm, logEvent]

/-- No listener: the read raises UnmappedAddress and changes nothing (20_memory.md R62). -/
theorem busRead8_unmapped {a : Addr} (hr : route s.cfg.listeners a = none) :
    busRead8 a s = .error (.unmappedAddress a .read) s := by
  simp [busRead8, hr]

/-- No listener: the write raises UnmappedAddress and changes nothing (20_memory.md R63). -/
theorem busWrite8_unmapped {a : Addr} (v : Byte) (hr : route s.cfg.listeners a = none) :
    busWrite8 a v s = .error (.unmappedAddress a .write) s := by
  simp [busWrite8, hr]

/-- A bus address with a flat byte behind it: the listener that owns it, its block, and the key. -/
theorem storeKey_eq_some {a : Addr} {k : Nat} (h : s.storeKey a = some k) :
    ∃ l fb, route s.cfg.listeners a = some l ∧ l.device = .flat fb ∧ fb.inWindow a = true ∧ fb.key a = k := by
  simp only [State.storeKey] at h
  split at h
  · rename_i f l fb hr
    split at h
    · rename_i hw
      exact ⟨_, fb, hr, rfl, hw, by simpa using h⟩
    · exact nomatch h
  · exact nomatch h

/-- The byte a bus address reads in a later state, through the routing of an earlier one. -/
theorem byteAt_eq (h : t.cfg = s.cfg) (a : Addr) : t.byteAt a = (s.storeKey a).bind (Memory.read t.mem) := by
  rw [State.byteAt, storeKey_congr h]
  cases s.storeKey a <;> rfl

/-- The low byte of a word, as a number. -/
theorem ofNat_low (v : Word) : BitVec.ofNat 8 v.toNat = v.extractLsb' 0 8 := by
  apply BitVec.eq_of_toNat_eq; simp [BitVec.extractLsb'_toNat]

/-- The high byte of a word, as a number. -/
theorem ofNat_high (v : Word) : BitVec.ofNat 8 (v.toNat / 256) = v.extractLsb' 8 8 := by
  apply BitVec.eq_of_toNat_eq; simp [BitVec.extractLsb'_toNat, Nat.shiftRight_eq_div_pow]

/-- Two bytes put together, as a number. -/
theorem ofNat_append (hi lo : Byte) : BitVec.ofNat 16 (hi.toNat * 256 + lo.toNat) = hi ++ lo := by
  apply BitVec.eq_of_toNat_eq
  rw [BitVec.toNat_append, BitVec.toNat_ofNat, ← Nat.shiftLeft_add_eq_or_of_lt lo.isLt, Nat.shiftLeft_eq]
  have := hi.isLt; have := lo.isLt
  omega

/-! ### Accesses see the same registers, memory and listeners after a read -/

section
variable {w8 : Reg8 → Bool} {w16 : Reg16 → Bool} {ks : Nat → Prop}

theorem Within.busWrites_eq (h : Within w8 w16 ks s t) (a : Addr) : t.busWrites a = s.busWrites a := by
  simp [State.busWrites, h.cfg]

theorem Within.busReads_mono (h : Within w8 w16 ks s t) (a : Addr) (hs : s.busReads a = true) :
    t.busReads a = true := by
  unfold State.busReads at *
  rw [h.cfg]
  cases hr : route s.cfg.listeners a with
  | none => simp [hr] at hs
  | some l =>
    obtain ⟨f, la, d⟩ := l
    cases d with
    | peripheral n => rfl
    | flat fb =>
      simp only [hr, Bool.and_eq_true] at hs ⊢
      exact ⟨hs.1, h.listed _ hs.2⟩

theorem ReadsOnly.busReads_eq (h : ReadsOnly s t) (a : Addr) : t.busReads a = s.busReads a := by
  simp [State.busReads, h.cfg, h.mem_eq]

theorem ReadsOnly.pair_eq (h : ReadsOnly s t) (p : Pair) : t.pair p = s.pair p := by
  simp [State.pair, h.reg8_eq]

theorem ReadsOnly.writtenPair_eq (h : ReadsOnly s t) (p : Pair) : t.writtenPair p = s.writtenPair p := by
  simp [State.writtenPair, h.written8_eq]

theorem ReadsOnly.src16_eq (h : ReadsOnly s t) (p : Src16) : t.src16 p = s.src16 p := by
  cases p with
  | pair p => exact h.pair_eq p
  | reg x => exact h.reg16_eq x

theorem ReadsOnly.srcWritten_eq (h : ReadsOnly s t) (p : Src16) : t.srcWritten p = s.srcWritten p := by
  cases p with
  | pair p => exact h.writtenPair_eq p
  | reg x => exact h.written16_eq x

theorem ReadsOnly.offset_eq (h : ReadsOnly s t) (o : Offset) : t.offset o = s.offset o := by
  cases o with
  | reg x => exact h.reg8_eq x
  | imm v => rfl

theorem ReadsOnly.offsetWritten_eq (h : ReadsOnly s t) (o : Offset) : t.offsetWritten o = s.offsetWritten o := by
  cases o with
  | reg x => exact h.written8_eq x
  | imm v => rfl

theorem ReadsOnly.reads8_eq (h : ReadsOnly s t) (o : Loc8) : t.reads8 o = s.reads8 o := by
  cases o <;>
    simp [State.reads8, h.written8_eq, h.srcWritten_eq, h.src16_eq, h.offsetWritten_eq, h.offset_eq, h.busReads_eq]

theorem ReadsOnly.readsVal8_eq (h : ReadsOnly s t) (o : Val8) : t.readsVal8 o = s.readsVal8 o := by
  cases o with
  | loc o => exact h.reads8_eq o
  | imm v => rfl

theorem ReadsOnly.writes8_eq (h : ReadsOnly s t) (o : Loc8) : t.writes8 o = s.writes8 o := by
  cases o <;>
    simp [State.writes8, h.srcWritten_eq, h.src16_eq, h.offsetWritten_eq, h.offset_eq, h.busWrites_eq]

theorem ReadsOnly.reads16_eq (h : ReadsOnly s t) (o : Loc16) : t.reads16 o = s.reads16 o := by
  cases o <;>
    simp [State.reads16, State.busReads16, h.written16_eq, h.writtenPair_eq, h.offsetWritten_eq, h.offset_eq,
      h.busReads_eq]

theorem ReadsOnly.readsVal16_eq (h : ReadsOnly s t) (o : Val16) : t.readsVal16 o = s.readsVal16 o := by
  cases o with
  | loc o => exact h.reads16_eq o
  | imm v => rfl

theorem ReadsOnly.writes16_eq (h : ReadsOnly s t) (o : Loc16) : t.writes16 o = s.writes16 o := by
  cases o <;> simp [State.writes16, State.busWrites16, h.offsetWritten_eq, h.offset_eq, h.busWrites_eq]

/-- An 8-bit destination stores to the same addresses after a read. -/
theorem ReadsOnly.stores8_eq (h : ReadsOnly s t) (o : Loc8) : t.stores8 o = s.stores8 o := by
  cases o <;> simp [State.stores8, State.addr8, h.src16_eq, h.offset_eq]

theorem ReadsOnly.stores16_eq (h : ReadsOnly s t) (o : Loc16) : t.stores16 o = s.stores16 o := by
  cases o <;> simp [State.stores16, State.addr16, h.offset_eq]

theorem keysOf_congr (h : t.cfg = s.cfg) (as : List Addr) : t.keysOf as = s.keysOf as := by
  simp only [State.keysOf]
  congr 1
  funext a
  exact storeKey_congr h a

end

/-! ### Operands -/

/-- Where a byte can be read a byte can be written (20_memory.md R61, R65, R66). -/
theorem busReads_busWrites {a : Addr} (h : s.busReads a = true) : s.busWrites a = true := by
  unfold State.busReads State.busWrites at *
  cases hr : route s.cfg.listeners a with
  | none => simp [hr] at h
  | some l =>
    obtain ⟨f, la, d⟩ := l
    cases d with
    | peripheral n => rfl
    | flat fb => simp only [hr, Bool.and_eq_true] at h ⊢; exact h.1

/-- An operand that can be read can be written: a destination that was read raises nothing when written. -/
theorem reads8_writes8 {o : Loc8} (h : s.reads8 o = true) : s.writes8 o = true := by
  cases o with
  | reg x => rfl
  | ptr p => simp only [State.reads8, State.writes8, Bool.and_eq_true] at *; exact ⟨h.1, busReads_busWrites h.2⟩
  | pptr b o => simp only [State.reads8, State.writes8, Bool.and_eq_true] at *; exact ⟨h.1, busReads_busWrites h.2⟩
  | mem m => exact busReads_busWrites h

theorem busReads16_busWrites16 {a : Addr} (h : s.busReads16 a = true) : s.busWrites16 a = true := by
  simp only [State.busReads16, State.busWrites16, Bool.and_eq_true] at *
  exact ⟨busReads_busWrites h.1, busReads_busWrites h.2⟩

theorem reads16_writes16 {o : Loc16} (h : s.reads16 o = true) : s.writes16 o = true := by
  cases o with
  | reg x => rfl
  | pair p => rfl
  | pptr b o => simp only [State.reads16, State.writes16, Bool.and_eq_true] at *; exact ⟨h.1, busReads16_busWrites16 h.2⟩
  | mem m => exact busReads16_busWrites16 h

theorem memRead16_ok {a : Addr} (h : s.busReads16 a = true) : ∃ v t, memRead16 a s = .ok v t := by
  simp only [State.busReads16, Bool.and_eq_true] at h
  obtain ⟨lo, u, hu⟩ := (busRead8_ok_iff a s).2 h.1
  have hr : ReadsOnly s u := (within_busRead8 a s).of_ok hu
  obtain ⟨hi, t, ht⟩ := (busRead8_ok_iff (a + 1) u).2 (by rw [hr.busReads_eq]; exact h.2)
  exact ⟨hi ++ lo, t, (M.bind_ok hu).trans (M.bind_ok ht)⟩

theorem memWrite16_ok {a : Addr} (v : Word) (h : s.busWrites16 a = true) : ∃ t, memWrite16 a v s = .ok () t := by
  simp only [State.busWrites16, Bool.and_eq_true] at h
  obtain ⟨u, hu⟩ := (busWrite8_ok_iff a (v.extractLsb' 0 8) s).2 h.1
  have hr := (within_busWrite8 a (v.extractLsb' 0 8) s).of_ok hu
  obtain ⟨t, ht⟩ := (busWrite8_ok_iff (a + 1) (v.extractLsb' 8 8) u).2 (by rw [hr.busWrites_eq]; exact h.2)
  exact ⟨t, (M.bind_ok hu).trans ht⟩

/-- `Read8` succeeds where `reads8` says. -/
theorem readLoc8_ok {o : Loc8} (h : s.reads8 o = true) : ∃ v t, readLoc8 o s = .ok v t := by
  cases o with
  | reg x => exact ⟨_, _, readReg8_ok h⟩
  | ptr p =>
    simp only [State.reads8, Bool.and_eq_true] at h
    obtain ⟨v, t, ht⟩ := (busRead8_ok_iff _ s).2 h.2
    exact ⟨v, t, by simp [readLoc8, M.bind_run, readSrc16_ok h.1, ht]⟩
  | pptr base o =>
    simp only [State.reads8, Bool.and_eq_true] at h
    obtain ⟨v, t, ht⟩ := (busRead8_ok_iff _ s).2 h.2
    exact ⟨v, t, by simp [readLoc8, M.bind_run, pseudoEa_ok h.1, ht]⟩
  | mem m => exact (busRead8_ok_iff m s).2 h

theorem readVal8_ok {o : Val8} (h : s.readsVal8 o = true) : ∃ v t, readVal8 o s = .ok v t := by
  cases o with
  | loc o => exact readLoc8_ok h
  | imm v => exact ⟨v, s, rfl⟩

/-- `Write8` succeeds where `writes8` says. -/
theorem writeLoc8_ok {o : Loc8} (v : Byte) (h : s.writes8 o = true) : ∃ t, writeLoc8 o v s = .ok () t := by
  cases o with
  | reg x => exact ⟨_, rfl⟩
  | ptr p =>
    simp only [State.writes8, Bool.and_eq_true] at h
    obtain ⟨t, ht⟩ := (busWrite8_ok_iff _ v s).2 h.2
    exact ⟨t, by simp [writeLoc8, M.bind_run, readSrc16_ok h.1, ht]⟩
  | pptr base o =>
    simp only [State.writes8, Bool.and_eq_true] at h
    obtain ⟨t, ht⟩ := (busWrite8_ok_iff _ v s).2 h.2
    exact ⟨t, by simp [writeLoc8, M.bind_run, pseudoEa_ok h.1, ht]⟩
  | mem m => exact (busWrite8_ok_iff m v s).2 h

/-- `Read16` succeeds where `reads16` says. -/
theorem readLoc16_ok {o : Loc16} (h : s.reads16 o = true) : ∃ v t, readLoc16 o s = .ok v t := by
  cases o with
  | reg x => exact ⟨_, _, readReg16_ok h⟩
  | pair p => exact ⟨_, _, readPair_ok h⟩
  | pptr base o =>
    simp only [State.reads16, Bool.and_eq_true] at h
    obtain ⟨v, t, ht⟩ := memRead16_ok h.2
    exact ⟨v, t, by simp [readLoc16, M.bind_run, pseudoEa_ok h.1, ht]⟩
  | mem m => exact memRead16_ok h

theorem readVal16_ok {o : Val16} (h : s.readsVal16 o = true) : ∃ v t, readVal16 o s = .ok v t := by
  cases o with
  | loc o => exact readLoc16_ok h
  | imm v => exact ⟨v, s, rfl⟩

/-- `Write16` succeeds where `writes16` says. -/
theorem writeLoc16_ok {o : Loc16} (v : Word) (h : s.writes16 o = true) : ∃ t, writeLoc16 o v s = .ok () t := by
  cases o with
  | reg x => exact ⟨_, rfl⟩
  | pair p => exact ⟨_, rfl⟩
  | pptr base o =>
    simp only [State.writes16, Bool.and_eq_true] at h
    obtain ⟨t, ht⟩ := memWrite16_ok v h.2
    exact ⟨t, by simp [writeLoc16, M.bind_run, pseudoEa_ok h.1, ht]⟩
  | mem m => exact memWrite16_ok v h

end Sys2Proof.Machine
end

