-- ==== Sys2Proof/Laws/Flags.lean ====
section
/-! SUPPORT. The flag views and the flag phase: what a view's write leaves, when the phase succeeds, and what it may
change. -/

namespace Sys2Proof.Machine

variable {s t : State}

/-! ## Flag views (10_state.md R29, R30) -/

/-- A flag write sets its own bit and keeps every other. -/
theorem flagRead_flagWrite (v : Byte) {n : Nat} (m : Nat) (b : Bool) (hn : n < 8) :
    flagRead (flagWrite v n b) m = if m = n then b else flagRead v m := by
  have hone : ((1 : Byte) <<< n).getLsbD m = decide (m = n) := by
    rw [BitVec.getLsbD_shiftLeft, show (1 : Byte) = 1#8 from rfl, BitVec.getLsbD_one]
    by_cases h : m = n
    · subst h; simp [hn]
    · simp only [h, decide_false]
      by_cases h2 : m < n
      · simp [h2]
      · have : ¬ m - n = 0 := by omega
        simp [this]
  unfold flagRead flagWrite
  cases b
  · simp only [Bool.false_eq_true, if_false]
    rw [BitVec.getLsbD_and, BitVec.getLsbD_not, hone]
    by_cases h : m = n
    · simp [h]
    · by_cases h8 : m < 8
      · simp [h, h8]
      · simp [h, h8, BitVec.getLsbD_of_ge v m (by omega)]
  · simp only [if_true]
    rw [BitVec.getLsbD_or, hone]
    by_cases h : m = n <;> simp [h]

theorem flagBit_lt {v : Variant} {f : Flag} {n : Nat} (h : flagBit v f = some n) : n < 8 := by
  cases v <;> cases f <;> simp [flagBit] at h <;> omega

/-- Writing one flag's view: that flag takes the value, every other flag keeps its own. -/
theorem flagOf_flagWrite? (v : Variant) (f g : Flag) (b : Option Bool) (byte : Byte) :
    flagOf v g (flagWrite? v f b byte) =
      if f = g ∧ (flagBit v f).isSome then b.getD (flagOf v g byte) else flagOf v g byte := by
  cases b with
  | none =>
    have : flagWrite? v f none byte = byte := by unfold flagWrite?; split <;> simp_all
    rw [this]; simp
  | some b =>
    cases v <;> cases f <;> cases g <;> simp [flagWrite?, flagOf, flagBit, flagRead_flagWrite]

/-- After the flag phase's view writes each declared flag the variant has takes its value, every other keeps its
own (40_flag_library.md R164). -/
theorem flagOf_apply (u : FlagUpdate) (v : Variant) (f : Flag) (byte : Byte) (h : (flagBit v f).isSome = true) :
    flagOf v f (u.apply v byte) = (u.get f).getD (flagOf v f byte) := by
  cases f <;> simp [FlagUpdate.apply, flagOf_flagWrite?, h, FlagUpdate.get]

/-- A view's write keeps the bits that are no flag. -/
theorem plain_flagWrite? (v : Variant) (f : Flag) (b : Option Bool) (byte : Byte) :
    flagWrite? v f b byte &&& plainBits v = byte &&& plainBits v := by
  cases v <;> cases f <;> rcases b with _ | _ | _ <;> simp only [flagWrite?, flagBit, flagWrite, plainBits] <;>
    first | rfl | (simp only [BitVec.reduceHShiftLeft, Bool.false_eq_true, if_false, if_true]; revert byte; decide)

/-- Every view's write keeps the bits that are no flag. -/
theorem plain_apply (u : FlagUpdate) (v : Variant) (byte : Byte) :
    u.apply v byte &&& plainBits v = byte &&& plainBits v := by
  simp only [FlagUpdate.apply, plain_flagWrite?]

/-- Bits Y and X are no flag of the Z80. -/
theorem flagOf_settle (byte : Byte) (y x : Bool) (f : Flag) :
    flagOf .z80 f (flagWrite (flagWrite byte 5 y) 3 x) = flagOf .z80 f byte := by
  cases f <;> simp [flagOf, flagBit, flagRead_flagWrite]

/-- The Game Boy's flags lie above the mask of 10_state.md R34. -/
theorem flagOf_mask (byte : Byte) (f : Flag) : flagOf .gb f (byte &&& 0xF0) = flagOf .gb f byte := by
  cases f <;> simp only [flagOf, flagBit, flagRead] <;> (try rw [BitVec.getLsbD_and]) <;> simp

theorem flagOf_stored8 (cfg : Config) (byte : Byte) (f : Flag) :
    flagOf cfg.variant f (stored8 cfg .f byte) = flagOf cfg.variant f byte := by
  unfold stored8
  split
  · rename_i h
    simp only [beq_self_eq_true, Bool.true_and, Bool.and_eq_true, beq_iff_eq] at h
    rw [h.1]; exact flagOf_mask byte f
  · rfl

/-! ## The flag phase -/

theorem settleXY_ok (byte : Byte) (s : State) : ∃ v n, settleXY byte s = .ok v { s with draws := n } ∧ s.draws ≤ n ∧
    (∀ f, flagOf s.cfg.variant f v = flagOf s.cfg.variant f byte) ∧
    (¬(s.cfg.variant = .z80 ∧ s.cfg.xyPolicy = .draw) → v = byte ∧ n = s.draws) := by
  simp only [settleXY, getState_bind]
  cases hv : s.cfg.variant <;> cases hp : s.cfg.xyPolicy
  · refine ⟨_, s.draws + 2, by simp only [M.bind_run, drawBit]; rfl, by omega, ?_, by simp⟩
    intro f; exact flagOf_settle _ _ _ _
  all_goals exact ⟨byte, s.draws, rfl, le_refl _, fun _ => rfl, fun _ => ⟨rfl, rfl⟩⟩

/-- The flag phase writes F only, and takes draws. -/
theorem within_writeFlagSet (u : FlagUpdate) (s : State) :
    Within (fun y => y == .f) (fun _ => false) (fun _ => False) s (M.final (writeFlagSet u) s) := by
  unfold writeFlagSet
  split
  · exact Within.refl ..
  · refine Within.bind (within_readReg8 .f s).within fun v t ht => ?_
    simp only [M.final_getState_bind]
    obtain ⟨w, n, hw, hn, -, -⟩ := settleXY_ok (u.apply t.cfg.variant v) t
    refine Within.bind ?_ fun v' t' ht' => ?_
    · rw [M.final_ok hw]
      exact (readsOnly_log t t.busLog n (List.suffix_refl _) hn (fun h => h)).within
    · exact (within_writeReg8 .f v' t').mono (fun x h => by cases x <;> first | rfl | exact h) (fun _ h => h) (fun _ h => h)

theorem within_writeFlags (z80 gb : FlagUpdate) (s : State) :
    Within (fun y => y == .f) (fun _ => false) (fun _ => False) s (M.final (writeFlags z80 gb) s) := by
  simp only [writeFlags, M.final_getState_bind]
  split <;> exact within_writeFlagSet _ _

/-- The flag phase of a rule that declares flags for the machine's variant succeeds when F is written, and leaves
what `FlagsSet` says. -/
theorem writeFlagSet_ok {u : FlagUpdate} (hF : s.written8 .f = true) (hu : u ≠ {}) : ∃ t, writeFlagSet u s = .ok () t ∧
    t = { s with regs8 := s.regs8.put .f (t.regs8.get .f), draws := t.draws } ∧ t.written8 .f = true ∧
    (∀ f, (flagBit s.cfg.variant f).isSome = true → t.flag f = (u.get f).getD (s.flag f)) ∧
    (¬(s.cfg.variant = .z80 ∧ s.cfg.xyPolicy = .draw) →
      t.reg8 .f &&& plainBits s.cfg.variant = stored8 s.cfg .f (s.reg8 .f) &&& plainBits s.cfg.variant ∧
        t.draws = s.draws) := by
  obtain ⟨w, n, hw, -, hflag, hkeep⟩ := settleXY_ok (u.apply s.cfg.variant (s.reg8 .f)) s
  refine ⟨({ s with draws := n } : State).setReg8 .f w, ?_, ?_, by simp, ?_, ?_⟩
  · unfold writeFlagSet
    rw [if_neg hu, M.bind_ok (readReg8_ok hF)]
    simp only [getState_bind]
    rw [M.bind_ok hw]; rfl
  · simp [State.setReg8]
  · intro f hf
    unfold State.flag
    simp only [State.setReg8_cfg, State.setReg8_reg8_self]
    rw [flagOf_stored8, hflag, flagOf_apply u _ _ _ hf]
  · intro hnd
    obtain ⟨rfl, rfl⟩ := hkeep hnd
    refine ⟨?_, rfl⟩
    rw [State.setReg8_reg8_self]
    simp only [stored8]
    split
    · rw [BitVec.and_assoc, BitVec.and_comm 0xF0, ← BitVec.and_assoc, plain_apply, BitVec.and_assoc,
        BitVec.and_comm _ 0xF0, ← BitVec.and_assoc]
    · exact plain_apply ..

/-- The flag phase, by variant. -/
theorem writeFlags_ok {z80 gb : FlagUpdate} (hF : s.written8 .f = true) (hz : s.cfg.variant = .z80 → z80 ≠ {})
    (hg : s.cfg.variant = .gb → gb ≠ {} ∧ gb.s = none ∧ gb.pv = none) :
    ∃ t, writeFlags z80 gb s = .ok () t ∧ s.FlagsSet t z80 gb := by
  simp only [writeFlags, getState_bind]
  cases hv : s.cfg.variant with
  | z80 =>
    obtain ⟨t, ht, h1, h2, h3, h4⟩ := writeFlagSet_ok hF (hz hv)
    rw [hv] at h3 h4
    refine ⟨t, ht, h1, h2, fun _ f => h3 f (by cases f <;> rfl), by simp [hv], fun _ hp => ?_, by simp [hv]⟩
    have := h4 (by simp [hp])
    rwa [stored8_z80 _ _ hv] at this
  | gb =>
    obtain ⟨t, ht, h1, h2, h3, h4⟩ := writeFlagSet_ok hF (hg hv).1
    rw [hv] at h3 h4
    have hcfg : t.cfg = s.cfg := by rw [h1]
    refine ⟨t, ht, h1, h2, by simp [hv], fun _ f => ?_, by simp [hv], fun _ => h4 (by simp)⟩
    cases f with
    | s => simp [State.flag, hcfg, hv, flagOf, flagBit, FlagUpdate.get, (hg hv).2.1]
    | pv => simp [State.flag, hcfg, hv, flagOf, flagBit, FlagUpdate.get, (hg hv).2.2]
    | z | h | n | c => exact h3 _ rfl

/-- `flag(X)` succeeds when F is written and changes nothing. -/
theorem readFlag_ok (f : Flag) (hF : s.written8 .f = true) : readFlag f s = .ok (s.flag f) s := by
  simp [readFlag, M.bind_ok (readReg8_ok hF), State.flag]

theorem readFlag_unwritten {f : Flag} (hF : s.written8 .f = false) :
    readFlag f s = .error (.unwritten (.reg8 .f)) s := by
  simp [readFlag, M.bind_error (readReg8_unwritten hF)]

theorem readFlag_eq_ok {f : Flag} {b : Bool} : readFlag f s = .ok b t ↔ s.written8 .f = true ∧ b = s.flag f ∧ t = s := by
  by_cases hF : s.written8 .f = true
  · simp [readFlag_ok f hF, hF, eq_comm]
  · simp [readFlag, M.bind_run, readReg8, hF]

theorem within_readFlag (f : Flag) (s : State) : ReadsOnly s (M.final (readFlag f) s) :=
  Within.bind (within_readReg8 .f s) fun _ _ _ => Within.refl ..

end Sys2Proof.Machine
end

