-- ==== Sys2Proof/Laws/Shapes.lean ====
section
/-! SUPPORT. The phase shapes the operations are built from: what each may change, when each completes and with what,
and where each ends with an error. -/

namespace Sys2Proof.Machine

variable {s t : State}

/-! ## Flag updates that a variant's flag phase can write -/

/-- The update a rule declares for the machine's variant is not empty, and names no flag the variant lacks. -/
def Declares (cfg : Config) (z80 gb : FlagUpdate) : Prop :=
  (cfg.variant = .z80 → z80 ≠ {}) ∧ (cfg.variant = .gb → gb ≠ {} ∧ gb.s = none ∧ gb.pv = none)

theorem writeFlags_complete {z80 gb : FlagUpdate} (hF : s.written8 .f = true) (h : Declares s.cfg z80 gb) :
    ∃ t, writeFlags z80 gb s = .ok () t ∧ s.FlagsSet t z80 gb :=
  writeFlags_ok hF h.1 h.2

/-- The flag phase raises Unwritten on an unwritten F (10_state.md R44). -/
theorem writeFlagSet_unwritten {u : FlagUpdate} (hF : s.written8 .f = false) (hu : u ≠ {}) :
    writeFlagSet u s = .error (.unwritten (.reg8 .f)) s := by
  unfold writeFlagSet
  rw [if_neg hu, M.bind_error (e := .unwritten (.reg8 .f)) (t := s) (by simp [readReg8, hF])]

theorem writeFlags_unwritten {z80 gb : FlagUpdate} (hF : s.written8 .f = false) (h : Declares s.cfg z80 gb) :
    writeFlags z80 gb s = .error (.unwritten (.reg8 .f)) s := by
  simp only [writeFlags, getState_bind]
  cases hv : s.cfg.variant with
  | z80 => exact writeFlagSet_unwritten hF (h.1 hv)
  | gb => exact writeFlagSet_unwritten hF (h.2 hv).1

/-! ## Successful accesses keep what later phases need -/

section
variable {w8 : Reg8 → Bool} {w16 : Reg16 → Bool} {ks : Nat → Prop}

theorem Within.offsetWritten_mono (h : Within w8 w16 ks s t) {o : Offset} (ho : s.offsetWritten o = true) :
    t.offsetWritten o = true := by
  cases o with
  | reg x => exact h.written8 x ho
  | imm v => rfl

theorem Declares.congr {cfg cfg' : Config} {z80 gb : FlagUpdate} (h : Declares cfg z80 gb) (hc : cfg' = cfg) :
    Declares cfg' z80 gb := hc ▸ h

end

/-- The read of an 8-bit operand from a state a read reached. -/
theorem readVal8_after (h : ReadsOnly s t) {o : Val8} (ho : s.readsVal8 o = true) : ∃ v u, readVal8 o t = .ok v u :=
  readVal8_ok (by rw [h.readsVal8_eq]; exact ho)

theorem readVal16_after (h : ReadsOnly s t) {o : Val16} (ho : s.readsVal16 o = true) :
    ∃ v u, readVal16 o t = .ok v u :=
  readVal16_ok (by rw [h.readsVal16_eq]; exact ho)

theorem writeLoc8_after (h : ReadsOnly s t) {o : Loc8} (v : Byte) (ho : s.writes8 o = true) :
    ∃ u, writeLoc8 o v t = .ok () u :=
  writeLoc8_ok v (by rw [h.writes8_eq]; exact ho)

theorem writeLoc16_after (h : ReadsOnly s t) {o : Loc16} (v : Word) (ho : s.writes16 o = true) :
    ∃ u, writeLoc16 o v t = .ok () u :=
  writeLoc16_ok v (by rw [h.writes16_eq]; exact ho)

/-! ## Shapes with an 8-bit destination -/

theorem within_binary8 (f : Byte → Byte → Effect8) (d : Loc8) (v : Val8) (s : State) :
    Within (fun x => d.isReg8 x || x == .f) (fun _ => false) (fun k => k ∈ s.keysOf (s.stores8 d)) s
      (M.final (binary8 f d v) s) := by
  refine Within.bind (within_readLoc8 d s).within fun a s1 h1 => ?_
  have r1 : ReadsOnly s s1 := (within_readLoc8 d s).of_ok h1
  refine Within.bind (within_readVal8 v s1).within fun b s2 h2 => ?_
  have r2 : ReadsOnly s s2 := r1.trans ((within_readVal8 v s1).of_ok h2)
  have hk : s2.keysOf (s2.stores8 d) = s.keysOf (s.stores8 d) := by rw [r2.stores8_eq, keysOf_congr r2.cfg]
  refine Within.bind ?_ fun u s3 h3 => ?_
  · rw [← hk]
    exact (within_writeLoc8 d _ s2).mono (by simp +contextual) (fun _ h => h) (fun _ h => h)
  · exact (within_writeFlags _ _ s3).mono (by simp +contextual) (fun _ h => h) (fun _ h => h.elim)

theorem within_binary8c (f : Byte → Byte → Bool → Effect8) (d : Loc8) (v : Val8) (s : State) :
    Within (fun x => d.isReg8 x || x == .f) (fun _ => false) (fun k => k ∈ s.keysOf (s.stores8 d)) s
      (M.final (binary8c f d v) s) := by
  refine Within.bind (within_readLoc8 d s).within fun a s1 h1 => ?_
  have r1 : ReadsOnly s s1 := (within_readLoc8 d s).of_ok h1
  refine Within.bind (within_readVal8 v s1).within fun b s2 h2 => ?_
  have r2 : ReadsOnly s s2 := r1.trans ((within_readVal8 v s1).of_ok h2)
  refine Within.bind (within_readFlag .c s2).within fun c s2' h2' => ?_
  obtain ⟨-, -, rfl⟩ := readFlag_eq_ok.1 h2'
  have hk : s2'.keysOf (s2'.stores8 d) = s.keysOf (s.stores8 d) := by rw [r2.stores8_eq, keysOf_congr r2.cfg]
  refine Within.bind ?_ fun u s3 h3 => ?_
  · rw [← hk]
    exact (within_writeLoc8 d _ s2').mono (by simp +contextual) (fun _ h => h) (fun _ h => h)
  · exact (within_writeFlags _ _ s3).mono (by simp +contextual) (fun _ h => h) (fun _ h => h.elim)

theorem within_unary8 (f : Byte → Effect8) (d : Loc8) (s : State) :
    Within (fun x => d.isReg8 x || x == .f) (fun _ => false) (fun k => k ∈ s.keysOf (s.stores8 d)) s
      (M.final (unary8 f d) s) := by
  refine Within.bind (within_readLoc8 d s).within fun a s1 h1 => ?_
  have r1 : ReadsOnly s s1 := (within_readLoc8 d s).of_ok h1
  have hk : s1.keysOf (s1.stores8 d) = s.keysOf (s.stores8 d) := by rw [r1.stores8_eq, keysOf_congr r1.cfg]
  refine Within.bind ?_ fun u s2 h2 => ?_
  · rw [← hk]
    exact (within_writeLoc8 d _ s1).mono (by simp +contextual) (fun _ h => h) (fun _ h => h)
  · exact (within_writeFlags _ _ s2).mono (by simp +contextual) (fun _ h => h) (fun _ h => h.elim)

theorem within_unary8c (f : Byte → Bool → Effect8) (d : Loc8) (s : State) :
    Within (fun x => d.isReg8 x || x == .f) (fun _ => false) (fun k => k ∈ s.keysOf (s.stores8 d)) s
      (M.final (unary8c f d) s) := by
  refine Within.bind (within_readLoc8 d s).within fun a s1 h1 => ?_
  have r1 : ReadsOnly s s1 := (within_readLoc8 d s).of_ok h1
  refine Within.bind (within_readFlag .c s1).within fun c s1' h1' => ?_
  obtain ⟨-, -, rfl⟩ := readFlag_eq_ok.1 h1'
  have hk : s1'.keysOf (s1'.stores8 d) = s.keysOf (s.stores8 d) := by rw [r1.stores8_eq, keysOf_congr r1.cfg]
  refine Within.bind ?_ fun u s2 h2 => ?_
  · rw [← hk]
    exact (within_writeLoc8 d _ s1').mono (by simp +contextual) (fun _ h => h) (fun _ h => h)
  · exact (within_writeFlags _ _ s2).mono (by simp +contextual) (fun _ h => h) (fun _ h => h.elim)

/-- A binary operation completes where its operands can be accessed and F is written, with the result and the
flags its rule computes. -/
theorem binary8_ok {f : Byte → Byte → Effect8} {d : Loc8} {v : Val8} (hd : s.reads8 d = true)
    (hv : s.readsVal8 v = true) (hw : s.writes8 d = true) (hF : s.written8 .f = true)
    (hdec : ∀ a b, Declares s.cfg (f a b).z80 (f a b).gb) :
    ∃ a b s1 s2 s3 t, readLoc8 d s = .ok a s1 ∧ readVal8 v s1 = .ok b s2 ∧
      writeLoc8 d (f a b).result s2 = .ok () s3 ∧ s3.FlagsSet t (f a b).z80 (f a b).gb ∧
      binary8 f d v s = .ok () t := by
  obtain ⟨a, s1, h1⟩ := readLoc8_ok hd
  have r1 : ReadsOnly s s1 := (within_readLoc8 d s).of_ok h1
  obtain ⟨b, s2, h2⟩ := readVal8_after r1 hv
  have r2 : ReadsOnly s s2 := r1.trans ((within_readVal8 v s1).of_ok h2)
  obtain ⟨s3, h3⟩ := writeLoc8_after r2 (f a b).result hw
  have r3 := (within_writeLoc8 d (f a b).result s2).of_ok h3
  obtain ⟨t, h4, hf⟩ := writeFlags_complete (r3.written8 _ (r2.written8 _ hF))
    ((hdec a b).congr (r3.cfg.trans r2.cfg))
  exact ⟨a, b, s1, s2, s3, t, h1, h2, h3, hf, by
    unfold binary8; rw [M.bind_ok h1, M.bind_ok h2, M.bind_ok h3, h4]⟩

theorem binary8c_ok {f : Byte → Byte → Bool → Effect8} {d : Loc8} {v : Val8} (hd : s.reads8 d = true)
    (hv : s.readsVal8 v = true) (hw : s.writes8 d = true) (hF : s.written8 .f = true)
    (hdec : ∀ a b c, Declares s.cfg (f a b c).z80 (f a b c).gb) :
    ∃ a b s1 s2 s3 t, readLoc8 d s = .ok a s1 ∧ readVal8 v s1 = .ok b s2 ∧
      writeLoc8 d (f a b (s.flag .c)).result s2 = .ok () s3 ∧
      s3.FlagsSet t (f a b (s.flag .c)).z80 (f a b (s.flag .c)).gb ∧ binary8c f d v s = .ok () t := by
  obtain ⟨a, s1, h1⟩ := readLoc8_ok hd
  have r1 : ReadsOnly s s1 := (within_readLoc8 d s).of_ok h1
  obtain ⟨b, s2, h2⟩ := readVal8_after r1 hv
  have r2 : ReadsOnly s s2 := r1.trans ((within_readVal8 v s1).of_ok h2)
  have hc : readFlag .c s2 = .ok (s.flag .c) s2 := by
    rw [readFlag_ok .c (r2.written8 _ hF), r2.flag_eq]
  obtain ⟨s3, h3⟩ := writeLoc8_after r2 (f a b (s.flag .c)).result hw
  have r3 := (within_writeLoc8 d (f a b (s.flag .c)).result s2).of_ok h3
  obtain ⟨t, h4, hf⟩ := writeFlags_complete (r3.written8 _ (r2.written8 _ hF))
    ((hdec a b (s.flag .c)).congr (r3.cfg.trans r2.cfg))
  exact ⟨a, b, s1, s2, s3, t, h1, h2, h3, hf, by
    unfold binary8c; rw [M.bind_ok h1, M.bind_ok h2, M.bind_ok hc, M.bind_ok h3, h4]⟩

theorem unary8_ok {f : Byte → Effect8} {d : Loc8} (hd : s.reads8 d = true) (hw : s.writes8 d = true)
    (hF : s.written8 .f = true) (hdec : ∀ a, Declares s.cfg (f a).z80 (f a).gb) :
    ∃ a s1 s2 t, readLoc8 d s = .ok a s1 ∧ writeLoc8 d (f a).result s1 = .ok () s2 ∧
      s2.FlagsSet t (f a).z80 (f a).gb ∧ unary8 f d s = .ok () t := by
  obtain ⟨a, s1, h1⟩ := readLoc8_ok hd
  have r1 : ReadsOnly s s1 := (within_readLoc8 d s).of_ok h1
  obtain ⟨s2, h2⟩ := writeLoc8_after r1 (f a).result hw
  have r2 := (within_writeLoc8 d (f a).result s1).of_ok h2
  obtain ⟨t, h3, hf⟩ := writeFlags_complete (r2.written8 _ (r1.written8 _ hF)) ((hdec a).congr (r2.cfg.trans r1.cfg))
  exact ⟨a, s1, s2, t, h1, h2, hf, by unfold unary8; rw [M.bind_ok h1, M.bind_ok h2, h3]⟩

theorem unary8c_ok {f : Byte → Bool → Effect8} {d : Loc8} (hd : s.reads8 d = true) (hw : s.writes8 d = true)
    (hF : s.written8 .f = true) (hdec : ∀ a c, Declares s.cfg (f a c).z80 (f a c).gb) :
    ∃ a s1 s2 t, readLoc8 d s = .ok a s1 ∧ writeLoc8 d (f a (s.flag .c)).result s1 = .ok () s2 ∧
      s2.FlagsSet t (f a (s.flag .c)).z80 (f a (s.flag .c)).gb ∧ unary8c f d s = .ok () t := by
  obtain ⟨a, s1, h1⟩ := readLoc8_ok hd
  have r1 : ReadsOnly s s1 := (within_readLoc8 d s).of_ok h1
  have hc : readFlag .c s1 = .ok (s.flag .c) s1 := by
    rw [readFlag_ok .c (r1.written8 _ hF), r1.flag_eq]
  obtain ⟨s2, h2⟩ := writeLoc8_after r1 (f a (s.flag .c)).result hw
  have r2 := (within_writeLoc8 d (f a (s.flag .c)).result s1).of_ok h2
  obtain ⟨t, h3, hf⟩ := writeFlags_complete (r2.written8 _ (r1.written8 _ hF))
    ((hdec a (s.flag .c)).congr (r2.cfg.trans r1.cfg))
  exact ⟨a, s1, s2, t, h1, h2, hf, by unfold unary8c; rw [M.bind_ok h1, M.bind_ok hc, M.bind_ok h2, h3]⟩

/-! ## Shapes with a 16-bit destination -/

theorem within_binary16 (f : Word → Word → Effect16) (d : Loc16) (v : Val16) (s : State) :
    Within (fun x => d.isReg8 x || x == .f) d.isReg16 (fun k => k ∈ s.keysOf (s.stores16 d)) s
      (M.final (binary16 f d v) s) := by
  refine Within.bind (within_readLoc16 d s).within fun a s1 h1 => ?_
  have r1 : ReadsOnly s s1 := (within_readLoc16 d s).of_ok h1
  refine Within.bind (within_readVal16 v s1).within fun b s2 h2 => ?_
  have r2 : ReadsOnly s s2 := r1.trans ((within_readVal16 v s1).of_ok h2)
  have hk : s2.keysOf (s2.stores16 d) = s.keysOf (s.stores16 d) := by rw [r2.stores16_eq, keysOf_congr r2.cfg]
  refine Within.bind ?_ fun u s3 h3 => ?_
  · rw [← hk]
    exact (within_writeLoc16 d _ s2).mono (by simp +contextual) (fun _ h => h) (fun _ h => h)
  · exact (within_writeFlags _ _ s3).mono (by simp +contextual) (fun _ _ => rfl) (fun _ h => h.elim)

theorem within_binary16c (f : Word → Word → Bool → Effect16) (d : Loc16) (v : Val16) (s : State) :
    Within (fun x => d.isReg8 x || x == .f) d.isReg16 (fun k => k ∈ s.keysOf (s.stores16 d)) s
      (M.final (binary16c f d v) s) := by
  refine Within.bind (within_readLoc16 d s).within fun a s1 h1 => ?_
  have r1 : ReadsOnly s s1 := (within_readLoc16 d s).of_ok h1
  refine Within.bind (within_readVal16 v s1).within fun b s2 h2 => ?_
  have r2 : ReadsOnly s s2 := r1.trans ((within_readVal16 v s1).of_ok h2)
  refine Within.bind (within_readFlag .c s2).within fun c s2' h2' => ?_
  obtain ⟨-, -, rfl⟩ := readFlag_eq_ok.1 h2'
  have hk : s2'.keysOf (s2'.stores16 d) = s.keysOf (s.stores16 d) := by rw [r2.stores16_eq, keysOf_congr r2.cfg]
  refine Within.bind ?_ fun u s3 h3 => ?_
  · rw [← hk]
    exact (within_writeLoc16 d _ s2').mono (by simp +contextual) (fun _ h => h) (fun _ h => h)
  · exact (within_writeFlags _ _ s3).mono (by simp +contextual) (fun _ _ => rfl) (fun _ h => h.elim)

theorem within_unary16 (f : Word → Word) (d : Loc16) (s : State) :
    Within d.isReg8 d.isReg16 (fun k => k ∈ s.keysOf (s.stores16 d)) s (M.final (unary16 f d) s) := by
  refine Within.bind (within_readLoc16 d s).within fun a s1 h1 => ?_
  have r1 : ReadsOnly s s1 := (within_readLoc16 d s).of_ok h1
  rw [← keysOf_congr r1.cfg, ← r1.stores16_eq]
  exact within_writeLoc16 d (f a) s1

theorem binary16_ok {f : Word → Word → Effect16} {d : Loc16} {v : Val16} (hd : s.reads16 d = true)
    (hv : s.readsVal16 v = true) (hw : s.writes16 d = true) (hF : s.written8 .f = true)
    (hdec : ∀ a b, Declares s.cfg (f a b).z80 (f a b).gb) :
    ∃ a b s1 s2 s3 t, readLoc16 d s = .ok a s1 ∧ readVal16 v s1 = .ok b s2 ∧
      writeLoc16 d (f a b).result s2 = .ok () s3 ∧ s3.FlagsSet t (f a b).z80 (f a b).gb ∧
      binary16 f d v s = .ok () t := by
  obtain ⟨a, s1, h1⟩ := readLoc16_ok hd
  have r1 : ReadsOnly s s1 := (within_readLoc16 d s).of_ok h1
  obtain ⟨b, s2, h2⟩ := readVal16_after r1 hv
  have r2 : ReadsOnly s s2 := r1.trans ((within_readVal16 v s1).of_ok h2)
  obtain ⟨s3, h3⟩ := writeLoc16_after r2 (f a b).result hw
  have r3 := (within_writeLoc16 d (f a b).result s2).of_ok h3
  obtain ⟨t, h4, hf⟩ := writeFlags_complete (r3.written8 _ (r2.written8 _ hF))
    ((hdec a b).congr (r3.cfg.trans r2.cfg))
  exact ⟨a, b, s1, s2, s3, t, h1, h2, h3, hf, by
    unfold binary16; rw [M.bind_ok h1, M.bind_ok h2, M.bind_ok h3, h4]⟩

theorem binary16c_ok {f : Word → Word → Bool → Effect16} {d : Loc16} {v : Val16} (hd : s.reads16 d = true)
    (hv : s.readsVal16 v = true) (hw : s.writes16 d = true) (hF : s.written8 .f = true)
    (hdec : ∀ a b c, Declares s.cfg (f a b c).z80 (f a b c).gb) :
    ∃ a b s1 s2 s3 t, readLoc16 d s = .ok a s1 ∧ readVal16 v s1 = .ok b s2 ∧
      writeLoc16 d (f a b (s.flag .c)).result s2 = .ok () s3 ∧
      s3.FlagsSet t (f a b (s.flag .c)).z80 (f a b (s.flag .c)).gb ∧ binary16c f d v s = .ok () t := by
  obtain ⟨a, s1, h1⟩ := readLoc16_ok hd
  have r1 : ReadsOnly s s1 := (within_readLoc16 d s).of_ok h1
  obtain ⟨b, s2, h2⟩ := readVal16_after r1 hv
  have r2 : ReadsOnly s s2 := r1.trans ((within_readVal16 v s1).of_ok h2)
  have hc : readFlag .c s2 = .ok (s.flag .c) s2 := by
    rw [readFlag_ok .c (r2.written8 _ hF), r2.flag_eq]
  obtain ⟨s3, h3⟩ := writeLoc16_after r2 (f a b (s.flag .c)).result hw
  have r3 := (within_writeLoc16 d (f a b (s.flag .c)).result s2).of_ok h3
  obtain ⟨t, h4, hf⟩ := writeFlags_complete (r3.written8 _ (r2.written8 _ hF))
    ((hdec a b (s.flag .c)).congr (r3.cfg.trans r2.cfg))
  exact ⟨a, b, s1, s2, s3, t, h1, h2, h3, hf, by
    unfold binary16c; rw [M.bind_ok h1, M.bind_ok h2, M.bind_ok hc, M.bind_ok h3, h4]⟩

theorem unary16_ok {f : Word → Word} {d : Loc16} (hd : s.reads16 d = true) (hw : s.writes16 d = true) :
    ∃ a s1 t, readLoc16 d s = .ok a s1 ∧ writeLoc16 d (f a) s1 = .ok () t ∧ unary16 f d s = .ok () t := by
  obtain ⟨a, s1, h1⟩ := readLoc16_ok hd
  have r1 : ReadsOnly s s1 := (within_readLoc16 d s).of_ok h1
  obtain ⟨t, h2⟩ := writeLoc16_after r1 (f a) hw
  exact ⟨a, s1, t, h1, h2, by unfold unary16; rw [M.bind_ok h1, h2]⟩

/-! ## The stack, conditions, branches, bits and exchanges -/

theorem within_push16 (v : Word) (s : State) :
    Within (fun _ => false) (fun x => x == .sp) (fun k => k ∈ s.keysOf (wordAddrs (s.reg16 .sp - 2))) s
      (M.final (push16 v) s) := by
  refine Within.bind (within_readReg16 .sp s).within fun sp s1 h1 => ?_
  obtain ⟨-, rfl, rfl⟩ := readReg16_eq_ok.1 h1
  refine Within.bind ((within_writeReg16 .sp _ s1).mono (fun _ h => h) (fun x h => by cases x <;> first | rfl | exact h)
    (fun _ h => h.elim)) fun u s2 h2 => ?_
  have hc : s2.cfg = s1.cfg := ((within_writeReg16 .sp (s1.reg16 .sp - 2) s1).of_ok h2).cfg
  rw [← keysOf_congr hc]
  exact (within_memWrite16 _ v s2).mono (fun _ h => h) (fun _ _ => rfl) (fun _ h => h)

theorem within_pop16 (s : State) :
    Within (fun _ => false) (fun x => x == .sp) (fun _ => False) s (M.final pop16 s) := by
  refine Within.bind (within_readReg16 .sp s).within fun sp s1 h1 => ?_
  refine Within.bind (within_memRead16 sp s1).within fun v s2 h2 => ?_
  exact Within.bind ((within_writeReg16 .sp _ s2).mono (fun _ h => h) (fun x h => by cases x <;> first | rfl | exact h)
    (fun _ h => h)) fun u s3 h3 => Within.refl ..

theorem push16_run (v : Word) (h : s.written16 .sp = true) :
    push16 v s = memWrite16 (s.reg16 .sp - 2) v (s.setReg16 .sp (s.reg16 .sp - 2)) := by
  unfold push16
  rw [M.bind_ok (readReg16_ok h)]
  exact M.bind_ok (show writeReg16 .sp (s.reg16 .sp - 2) s = .ok () (s.setReg16 .sp (s.reg16 .sp - 2)) from rfl)

theorem pop16_ok {v : Word} (h : s.written16 .sp = true) (hr : memRead16 (s.reg16 .sp) s = .ok v t) :
    pop16 s = .ok v (t.setReg16 .sp (s.reg16 .sp + 2)) := by
  unfold pop16
  rw [M.bind_ok (readReg16_ok h), M.bind_ok hr]; rfl

theorem pop16_error {e : Error} (h : s.written16 .sp = true) (hr : memRead16 (s.reg16 .sp) s = .error e t) :
    pop16 s = .error e t := by
  unfold pop16
  rw [M.bind_ok (readReg16_ok h), M.bind_error hr]

/-- A condition is evaluated where F is written (or not read), and changes nothing (46_control.md R281). -/
theorem evalCond_ok {k : Cond} (h : s.condReads k = true) : evalCond k s = .ok (s.holds k) s := by
  cases k <;> first
    | rfl
    | exact readFlag_ok _ h
    | (simp only [evalCond]; rw [M.bind_ok (readFlag_ok _ h)]; rfl)

theorem evalCond_unwritten {k : Cond} (h : s.condReads k = false) :
    evalCond k s = .error (.unwritten (.reg8 .f)) s := by
  cases k with
  | always => exact Bool.noConfusion h
  | z | c | pe | m => exact readFlag_unwritten h
  | nz | nc | po | p => simp only [evalCond]; rw [M.bind_error (readFlag_unwritten h)]

theorem within_evalCond (k : Cond) (s : State) : ReadsOnly s (M.final (evalCond k) s) := by
  have : M.final (evalCond k) s = s := by
    by_cases h : s.condReads k = true
    · exact M.final_ok (evalCond_ok h)
    · exact M.final_error (evalCond_unwritten (by simpa using h))
  rw [this]; exact Within.refl ..

/-- BIT's flag phase on the Z80: two draws, then the view writes (45_bit.md R270). -/
theorem bitFlags_z80 (z : Bool) (h : s.cfg.variant = .z80) :
    bitFlags z s = writeFlagSet
      { s := some (Config.drawBit s.draws), z := some z, h := some true,
        pv := some (Config.drawBit (s.draws + 1)), n := some false }
      { s with draws := s.draws + 1 + 1 } := by
  simp only [bitFlags, getState_bind, h]
  rfl

theorem bitFlags_gb (z : Bool) (h : s.cfg.variant = .gb) :
    bitFlags z s = writeFlagSet { z := some z, n := some false, h := some true } s := by
  simp only [bitFlags, getState_bind, h]

/-- Reading two pairs changes nothing: it gives both values, or names an unwritten half of one of them. -/
theorem readPairs_cases (p q : Pair) (s : State) :
    (s.writtenPair p = true ∧ s.writtenPair q = true ∧ readPairs p q s = .ok (s.pair p, s.pair q) s) ∨
    ∃ x, (x = p.high ∨ x = p.low ∨ x = q.high ∨ x = q.low) ∧ s.written8 x = false ∧
      readPairs p q s = .error (.unwritten (.reg8 x)) s := by
  unfold readPairs
  rcases readPair_cases p s with ⟨hp, h⟩ | ⟨x, hx, hw, h⟩
  · rcases readPair_cases q s with ⟨hq, h'⟩ | ⟨x, hx, hw, h'⟩
    · exact .inl ⟨hp, hq, by rw [M.bind_ok h, M.bind_ok h']; rfl⟩
    · exact .inr ⟨x, .inr (.inr hx), hw, by rw [M.bind_ok h, M.bind_error h']⟩
  · exact .inr ⟨x, hx.elim .inl fun hx => .inr (.inl hx), hw, by rw [M.bind_error h]⟩

@[simp] theorem exchangePairs_run (p q : Pair) (v : Word × Word) (s : State) :
    exchangePairs p q v s = .ok () ((s.setPair p v.2).setPair q v.1) := rfl

theorem within_bitFlags (z : Bool) (s : State) :
    Within (fun x => x == .f) (fun _ => false) (fun _ => False) s (M.final (bitFlags z) s) := by
  simp only [bitFlags, M.final_getState_bind]
  cases s.cfg.variant with
  | z80 =>
    exact Within.bind (within_drawBit s).within fun _ s1 _ => Within.bind (within_drawBit s1).within
      fun _ s2 _ => within_writeFlagSet _ s2
  | gb => exact within_writeFlagSet _ s

theorem within_readPairs (p q : Pair) (s : State) : ReadsOnly s (M.final (readPairs p q) s) :=
  Within.bind (within_readPair p s) fun _ s1 _ => Within.bind (within_readPair q s1) fun _ _ _ => Within.refl ..

theorem within_exchangePairs (p q : Pair) (v : Word × Word) (s : State) :
    Within (fun x => p.high == x || p.low == x || q.high == x || q.low == x) (fun _ => false) (fun _ => False) s
      (M.final (exchangePairs p q v) s) := by
  refine Within.bind ((within_writePair p _ s).mono (by simp +contextual) (fun _ h => h) (fun _ h => h)) fun _ s1 _ => ?_
  exact (within_writePair q _ s1).mono (by simp +contextual) (fun _ h => h) (fun _ h => h)

/-! ## Where a command ends with an error -/

/-- A command whose parts raise an error ends with that error. -/
theorem abortsWith_of_error {i : Instr} {m : M Unit} {e : Error} (hi : exec i s = runCommand m s)
    (h : m s = .error e t) (hc : t.command = s.command) : i.abortsWith s e t := by
  rw [Instr.abortsWith, hi, runCommand_error h, hc]

end Sys2Proof.Machine
end

