-- ==== Sys2Proof/Laws/Exec.lean ====
section
/-! SUPPORT. What every command can do: one lemma over all instructions, from which frames and invariants follow. -/

namespace Sys2Proof.Machine

variable {s t : State}

/-- The parts a command is made of stay within what `mayWrite8`, `mayWrite16` and `stores` allow. -/
def Framed (i : Instr) (m : M Unit) (s : State) : Prop :=
  Within i.mayWrite8 i.mayWrite16 (fun k => k ∈ s.keysOf (i.stores s)) s (M.final m s)

/-- After a read, a 16-bit destination stores to the same flat bytes. -/
theorem within_writeLoc16_after (h : ReadsOnly s t) (d : Loc16) (v : Word) :
    Within d.isReg8 d.isReg16 (fun k => k ∈ s.keysOf (s.stores16 d)) t (M.final (writeLoc16 d v) t) := by
  rw [← h.stores16_eq, ← keysOf_congr h.cfg]
  exact within_writeLoc16 d v t

/-- After a read, an 8-bit destination stores to the same flat byte. -/
theorem within_writeLoc8_after (h : ReadsOnly s t) (d : Loc8) (v : Byte) :
    Within d.isReg8 (fun _ => false) (fun k => k ∈ s.keysOf (s.stores8 d)) t (M.final (writeLoc8 d v) t) := by
  rw [← h.stores8_eq, ← keysOf_congr h.cfg]
  exact within_writeLoc8 d v t

/-- Every instruction but EX16 is a run of parts within its frame. -/
theorem exec_framed (i : Instr) (s : State) (hi : ∀ d e, i ≠ .ex16 d e) :
    ∃ m, exec i s = runCommand m s ∧ Framed i m s := by
  have flags8 : ∀ (j : Instr) (d : Loc8) (m : M Unit),
      Within (fun x => d.isReg8 x || x == .f) (fun _ => false) (fun k => k ∈ s.keysOf (s.stores8 d)) s (M.final m s) →
      (∀ x, j.mayWrite8 x = (d.isReg8 x || x == .f)) → (j.stores s = s.stores8 d) → Framed j m s := by
    intro j d m h h8 hs
    exact h.mono (fun x hx => by rw [h8] at hx; exact hx) (fun _ _ => rfl) (fun k hk => by rw [hs]; exact hk)
  have onlyF : ∀ (j : Instr) (m : M Unit),
      Within (fun x => x == .f) (fun _ => false) (fun _ => False) s (M.final m s) →
      (∀ x, j.mayWrite8 x = (x == .f)) → Framed j m s := by
    intro j m h h8
    exact h.mono (fun x hx => by rw [h8] at hx; exact hx) (fun _ _ => rfl) (fun _ hk => hk.elim)
  cases i with
  | nop => exact ⟨pure (), rfl, Within.refl ..⟩
  | ld8 d v =>
    refine ⟨_, rfl, Within.bind (within_readVal8 v s).within fun a s1 h1 => ?_⟩
    exact (within_writeLoc8_after ((within_readVal8 v s).of_ok h1) d a).mono
      (fun x hx => by simpa [Instr.mayWrite8, Instr.dest8, Instr.writesFlags] using hx) (fun _ _ => rfl) (fun _ hk => hk)
  | ld16 d v =>
    refine ⟨_, rfl, Within.bind (within_readVal16 v s).within fun a s1 h1 => ?_⟩
    exact (within_writeLoc16_after ((within_readVal16 v s).of_ok h1) d a).mono
      (fun x hx => by simpa [Instr.mayWrite8, Instr.dest8, Instr.writesFlags] using hx) (fun _ hx => hx) (fun _ hk => hk)
  | push v =>
    refine ⟨_, rfl, Within.bind (within_readVal16 v s).within fun a s1 h1 => ?_⟩
    have r1 : ReadsOnly s s1 := (within_readVal16 v s).of_ok h1
    refine (within_push16 a s1).mono (fun _ _ => rfl) (fun _ hx => hx) (fun k hk => ?_)
    rwa [r1.reg16_eq, keysOf_congr r1.cfg] at hk
  | pop d =>
    refine ⟨_, rfl, Within.bind ((within_pop16 s).mono (fun _ _ => rfl)
      (fun x hx => by simp only [Instr.mayWrite16, Bool.or_eq_false_iff] at hx; exact hx.1) (fun _ h => h.elim))
      fun a s1 h1 => ?_⟩
    have w := (within_pop16 s).of_ok h1
    have h8 : s1.regs8 = s.regs8 := Regs8.ext_get fun x => w.regs8 x rfl
    have hst : s1.stores16 d = s.stores16 d := by
      cases d with
      | pptr b o => cases o <;> simp [State.stores16, State.addr16, State.offset, State.reg8, h8]
      | reg | pair | mem => rfl
    refine (within_writeLoc16 d a s1).mono (fun x hx => ?_) (fun x hx => ?_) (fun k hk => ?_)
    · simpa [Instr.mayWrite8, Instr.dest8, Instr.writesFlags] using hx
    · simp only [Instr.mayWrite16, Bool.or_eq_false_iff] at hx; exact hx.2
    · rwa [hst, keysOf_congr w.cfg] at hk
  | ex16 d e => exact absurd rfl (hi d e)
  | exx =>
    refine ⟨_, rfl, Within.bind (within_readPairs .bc .bc' s).within fun bc s1 _ => ?_⟩
    refine Within.bind (within_readPairs .de .de' s1).within fun de s2 _ => ?_
    refine Within.bind (within_readPairs .hl .hl' s2).within fun hl s3 _ => ?_
    refine Within.bind ?_ fun _ s4 _ => Within.bind ?_ fun _ s5 _ => ?_
    · exact (within_exchangePairs .bc .bc' bc s3).mono (fun x hx => by cases x <;> first | rfl | exact hx) (fun _ _ => rfl) (fun _ h => h.elim)
    · exact (within_exchangePairs .de .de' de s4).mono (fun x hx => by cases x <;> first | rfl | exact hx) (fun _ _ => rfl) (fun _ h => h.elim)
    · exact (within_exchangePairs .hl .hl' hl s5).mono (fun x hx => by cases x <;> first | rfl | exact hx) (fun _ _ => rfl) (fun _ h => h.elim)
  | add8 d v => exact ⟨_, rfl, flags8 _ d _ (within_binary8 _ d v s) (fun _ => by simp [Instr.mayWrite8, Instr.dest8, Instr.writesFlags]) rfl⟩
  | adc8 d v => exact ⟨_, rfl, flags8 _ d _ (within_binary8c _ d v s) (fun _ => by simp [Instr.mayWrite8, Instr.dest8, Instr.writesFlags]) rfl⟩
  | sub8 d v => exact ⟨_, rfl, flags8 _ d _ (within_binary8 _ d v s) (fun _ => by simp [Instr.mayWrite8, Instr.dest8, Instr.writesFlags]) rfl⟩
  | sbc8 d v => exact ⟨_, rfl, flags8 _ d _ (within_binary8c _ d v s) (fun _ => by simp [Instr.mayWrite8, Instr.dest8, Instr.writesFlags]) rfl⟩
  | and8 d v => exact ⟨_, rfl, flags8 _ d _ (within_binary8 _ d v s) (fun _ => by simp [Instr.mayWrite8, Instr.dest8, Instr.writesFlags]) rfl⟩
  | xor8 d v => exact ⟨_, rfl, flags8 _ d _ (within_binary8 _ d v s) (fun _ => by simp [Instr.mayWrite8, Instr.dest8, Instr.writesFlags]) rfl⟩
  | or8 d v => exact ⟨_, rfl, flags8 _ d _ (within_binary8 _ d v s) (fun _ => by simp [Instr.mayWrite8, Instr.dest8, Instr.writesFlags]) rfl⟩
  | cp8 d v =>
    refine ⟨_, rfl, onlyF _ _ ?_ (fun _ => by simp [Instr.mayWrite8, Instr.dest8, Instr.writesFlags])⟩
    exact Within.bind (within_readVal8 d s).within fun _ s1 _ => Within.bind (within_readVal8 v s1).within
      fun _ s2 _ => within_writeFlags _ _ s2
  | inc8 d => exact ⟨_, rfl, flags8 _ d _ (within_unary8 _ d s) (fun _ => by simp [Instr.mayWrite8, Instr.dest8, Instr.writesFlags]) rfl⟩
  | dec8 d => exact ⟨_, rfl, flags8 _ d _ (within_unary8 _ d s) (fun _ => by simp [Instr.mayWrite8, Instr.dest8, Instr.writesFlags]) rfl⟩
  | neg => exact ⟨_, rfl, flags8 _ (.reg .a) _ (within_unary8 _ _ s) (fun x => by cases x <;> rfl) rfl⟩
  | cpl => exact ⟨_, rfl, flags8 _ (.reg .a) _ (within_unary8 _ _ s) (fun x => by cases x <;> rfl) rfl⟩
  | daa =>
    refine ⟨_, rfl, flags8 _ (.reg .a) _ ?_ (fun x => by cases x <;> rfl) rfl⟩
    refine Within.bind (within_readReg8 .a s).within fun _ s1 _ => Within.bind (within_readFlag .n s1).within fun _ s2 _ =>
      Within.bind (within_readFlag .h s2).within fun _ s3 _ => Within.bind (within_readFlag .c s3).within fun _ s4 _ => ?_
    refine Within.bind ((within_writeReg8 .a _ s4).mono (fun x hx => by cases x <;> first | rfl | exact hx) (fun _ _ => rfl)
      (fun _ h => h.elim)) fun _ s5 _ => ?_
    exact (within_writeFlags _ _ s5).mono (fun x hx => by cases x <;> first | rfl | exact hx) (fun _ _ => rfl) (fun _ h => h.elim)
  | scf => exact ⟨_, rfl, onlyF _ _ (within_writeFlags _ _ s) (fun _ => by simp [Instr.mayWrite8, Instr.dest8, Instr.writesFlags])⟩
  | ccf =>
    exact ⟨_, rfl, onlyF _ _ (Within.bind (within_readFlag .c s).within fun _ s1 _ => within_writeFlags _ _ s1)
      (fun _ => by simp [Instr.mayWrite8, Instr.dest8, Instr.writesFlags])⟩
  | add16 d v => exact ⟨_, rfl, (within_binary16 _ d v s).mono (fun x hx => by simpa [Instr.mayWrite8, Instr.dest8, Instr.writesFlags] using hx) (fun _ hx => hx) (fun _ hk => hk)⟩
  | adc16 d v => exact ⟨_, rfl, (within_binary16c _ d v s).mono (fun x hx => by simpa [Instr.mayWrite8, Instr.dest8, Instr.writesFlags] using hx) (fun _ hx => hx) (fun _ hk => hk)⟩
  | sbc16 d v => exact ⟨_, rfl, (within_binary16c _ d v s).mono (fun x hx => by simpa [Instr.mayWrite8, Instr.dest8, Instr.writesFlags] using hx) (fun _ hx => hx) (fun _ hk => hk)⟩
  | inc16 d => exact ⟨_, rfl, (within_unary16 _ d s).mono (fun x hx => by simpa [Instr.mayWrite8, Instr.dest8, Instr.writesFlags] using hx) (fun _ hx => hx) (fun _ hk => hk)⟩
  | dec16 d => exact ⟨_, rfl, (within_unary16 _ d s).mono (fun x hx => by simpa [Instr.mayWrite8, Instr.dest8, Instr.writesFlags] using hx) (fun _ hx => hx) (fun _ hk => hk)⟩
  | addspe v =>
    refine ⟨_, rfl, Within.bind (within_readVal8 v s).within fun _ s1 _ => Within.bind (within_readReg16 .sp s1).within fun _ s2 _ => ?_⟩
    refine Within.bind ((within_writeReg16 .sp _ s2).mono (fun _ _ => rfl) (fun x hx => by cases x <;> first | rfl | exact hx)
      (fun _ h => h.elim)) fun _ s3 _ => ?_
    exact (within_writeFlags _ _ s3).mono (fun x hx => by cases x <;> first | rfl | exact hx) (fun _ _ => rfl) (fun _ h => h.elim)
  | ldhlspe v =>
    refine ⟨_, rfl, Within.bind (within_readVal8 v s).within fun _ s1 _ => Within.bind (within_readReg16 .sp s1).within fun _ s2 _ => ?_⟩
    refine Within.bind ((within_writePair .hl _ s2).mono (fun x hx => by cases x <;> first | rfl | exact hx) (fun _ _ => rfl)
      (fun _ h => h.elim)) fun _ s3 _ => ?_
    exact (within_writeFlags _ _ s3).mono (fun x hx => by cases x <;> first | rfl | exact hx) (fun _ _ => rfl) (fun _ h => h.elim)
  | rlc d => exact ⟨_, rfl, flags8 _ d _ (within_unary8 _ d s) (fun _ => by simp [Instr.mayWrite8, Instr.dest8, Instr.writesFlags]) rfl⟩
  | rrc d => exact ⟨_, rfl, flags8 _ d _ (within_unary8 _ d s) (fun _ => by simp [Instr.mayWrite8, Instr.dest8, Instr.writesFlags]) rfl⟩
  | rl d => exact ⟨_, rfl, flags8 _ d _ (within_unary8c _ d s) (fun _ => by simp [Instr.mayWrite8, Instr.dest8, Instr.writesFlags]) rfl⟩
  | rr d => exact ⟨_, rfl, flags8 _ d _ (within_unary8c _ d s) (fun _ => by simp [Instr.mayWrite8, Instr.dest8, Instr.writesFlags]) rfl⟩
  | sla d => exact ⟨_, rfl, flags8 _ d _ (within_unary8 _ d s) (fun _ => by simp [Instr.mayWrite8, Instr.dest8, Instr.writesFlags]) rfl⟩
  | sra d => exact ⟨_, rfl, flags8 _ d _ (within_unary8 _ d s) (fun _ => by simp [Instr.mayWrite8, Instr.dest8, Instr.writesFlags]) rfl⟩
  | srl d => exact ⟨_, rfl, flags8 _ d _ (within_unary8 _ d s) (fun _ => by simp [Instr.mayWrite8, Instr.dest8, Instr.writesFlags]) rfl⟩
  | swap d => exact ⟨_, rfl, flags8 _ d _ (within_unary8 _ d s) (fun _ => by simp [Instr.mayWrite8, Instr.dest8, Instr.writesFlags]) rfl⟩
  | rlca => exact ⟨_, rfl, flags8 _ (.reg .a) _ (within_unary8 _ _ s) (fun x => by cases x <;> rfl) rfl⟩
  | rrca => exact ⟨_, rfl, flags8 _ (.reg .a) _ (within_unary8 _ _ s) (fun x => by cases x <;> rfl) rfl⟩
  | rla => exact ⟨_, rfl, flags8 _ (.reg .a) _ (within_unary8c _ _ s) (fun x => by cases x <;> rfl) rfl⟩
  | rra => exact ⟨_, rfl, flags8 _ (.reg .a) _ (within_unary8c _ _ s) (fun x => by cases x <;> rfl) rfl⟩
  | bit b v =>
    exact ⟨_, rfl, onlyF _ _ (Within.bind (within_readVal8 v s).within fun _ s1 _ => within_bitFlags _ s1)
      (fun _ => by simp [Instr.mayWrite8, Instr.dest8, Instr.writesFlags])⟩
  | set b d =>
    refine ⟨_, rfl, Within.bind (within_readLoc8 d s).within fun a s1 h1 => ?_⟩
    exact (within_writeLoc8_after ((within_readLoc8 d s).of_ok h1) d _).mono
      (fun x hx => by simpa [Instr.mayWrite8, Instr.dest8, Instr.writesFlags] using hx) (fun _ _ => rfl) (fun _ hk => hk)
  | res b d =>
    refine ⟨_, rfl, Within.bind (within_readLoc8 d s).within fun a s1 h1 => ?_⟩
    exact (within_writeLoc8_after ((within_readLoc8 d s).of_ok h1) d _).mono
      (fun x hx => by simpa [Instr.mayWrite8, Instr.dest8, Instr.writesFlags] using hx) (fun _ _ => rfl) (fun _ hk => hk)
  | jp k v =>
    refine ⟨_, rfl, Within.bind (within_evalCond k s).within fun c s1 _ => ?_⟩
    cases c with
    | false => exact Within.refl ..
    | true =>
      refine Within.bind (within_readVal16 v s1).within fun a s2 _ => ?_
      exact (within_writeReg16 .pc a s2).mono (fun _ _ => rfl) (fun x hx => by cases x <;> first | rfl | exact hx) (fun _ h => h.elim)
  | jr k v =>
    refine ⟨_, rfl, Within.bind (within_evalCond k s).within fun c s1 _ => ?_⟩
    cases c with
    | false => exact Within.refl ..
    | true =>
      refine Within.bind (within_readVal8 v s1).within fun a s2 _ => Within.bind (within_readReg16 .pc s2).within
        fun pc s3 _ => ?_
      exact (within_writeReg16 .pc _ s3).mono (fun _ _ => rfl) (fun x hx => by cases x <;> first | rfl | exact hx) (fun _ h => h.elim)
  | call k v =>
    refine ⟨_, rfl, Within.bind (within_evalCond k s).within fun c s1 h1 => ?_⟩
    cases c with
    | false => exact Within.refl ..
    | true =>
      by_cases hk : s.condReads k = true
      · rw [evalCond_ok hk] at h1
        injection h1 with hh hs
        subst hs
        refine Within.bind (within_readVal16 v s).within fun a s2 h2 => ?_
        have r2 : ReadsOnly s s2 := (within_readVal16 v s).of_ok h2
        refine Within.bind (within_readReg16 .pc s2).within fun pc s3 h3 => ?_
        obtain ⟨-, -, rfl⟩ := readReg16_eq_ok.1 h3
        refine Within.bind ((within_push16 pc s3).mono (fun _ _ => rfl)
          (fun x hx => by cases x <;> first | rfl | exact hx) (fun k' hk' => ?_)) fun _ s4 _ => ?_
        · rw [r2.reg16_eq, keysOf_congr r2.cfg] at hk'
          simpa [Instr.stores, hh] using hk'
        · exact (within_writeReg16 .pc a s4).mono (fun _ _ => rfl) (fun x hx => by cases x <;> first | rfl | exact hx) (fun _ h => h.elim)
      · rw [evalCond_unwritten (by simpa using hk)] at h1
        exact nomatch h1
  | ret k =>
    refine ⟨_, rfl, Within.bind (within_evalCond k s).within fun c s1 _ => ?_⟩
    cases c with
    | false => exact Within.refl ..
    | true =>
      refine Within.bind ((within_pop16 s1).mono (fun _ _ => rfl)
        (fun x hx => by cases x <;> first | rfl | exact hx) (fun _ h => h.elim)) fun a s2 _ => ?_
      exact (within_writeReg16 .pc a s2).mono (fun _ _ => rfl) (fun x hx => by cases x <;> first | rfl | exact hx) (fun _ h => h.elim)
  | djnz v =>
    refine ⟨_, rfl, Within.bind (within_readReg8 .b s).within fun b s1 _ => ?_⟩
    have wb : ∀ n u, Within (Instr.djnz v).mayWrite8 (Instr.djnz v).mayWrite16
        (fun k => k ∈ s.keysOf ((Instr.djnz v).stores s)) u (M.final (writeReg8 .b n) u) := fun n u =>
      (within_writeReg8 .b n u).mono (fun x hx => by cases x <;> first | rfl | exact hx) (fun _ _ => rfl) (fun _ h => h.elim)
    by_cases hn : b - 1 = 0
    · simp only [hn, if_true]; exact wb _ s1
    · simp only [hn, if_false]
      refine Within.bind (within_readVal8 v s1).within fun e s2 _ => Within.bind (within_readReg16 .pc s2).within
        fun pc s3 _ => Within.bind (wb _ s3) fun _ s4 _ => ?_
      exact (within_writeReg16 .pc _ s4).mono (fun _ _ => rfl) (fun x hx => by cases x <;> first | rfl | exact hx) (fun _ h => h.elim)

/-- EX16 changes at most its two operands and the flat bytes they store to; `ks` is any account of the second
store that covers the state in which SRC's address is evaluated. -/
theorem ex16_within (d e : Loc16) (s : State) (ks : Nat → Prop) (hd : ∀ k, k ∈ s.keysOf (s.stores16 d) → ks k)
    (he : ∀ va vb s1 s2 s3, readLoc16 d s = .ok va s1 → readLoc16 e s1 = .ok vb s2 → writeLoc16 d vb s2 = .ok () s3 →
      ∀ k, k ∈ s.keysOf (s3.stores16 e) → ks k) :
    ∃ m, exec (.ex16 d e) s = runCommand m s ∧
      Within (Instr.ex16 d e).mayWrite8 (Instr.ex16 d e).mayWrite16 ks s (M.final m s) := by
  refine ⟨_, rfl, Within.bind (within_readLoc16 d s).within fun va s1 h1 => ?_⟩
  have r1 : ReadsOnly s s1 := (within_readLoc16 d s).of_ok h1
  refine Within.bind (within_readLoc16 e s1).within fun vb s2 h2 => ?_
  have r2 : ReadsOnly s s2 := r1.trans ((within_readLoc16 e s1).of_ok h2)
  refine Within.bind ((within_writeLoc16_after r2 d vb).mono (fun x hx => ?_) (fun x hx => ?_) hd) fun _ s3 h3 => ?_
  · simp only [Instr.mayWrite8, Instr.dest8, Bool.or_eq_false_iff] at hx; exact hx.1.1
  · simp only [Instr.mayWrite16, Bool.or_eq_false_iff] at hx; exact hx.1
  · have w3 := (within_writeLoc16 d vb s2).of_ok h3
    refine (within_writeLoc16 e va s3).mono (fun x hx => ?_) (fun x hx => ?_) (fun k hk => ?_)
    · simp only [Instr.mayWrite8, Instr.dest8, Bool.or_eq_false_iff] at hx; exact hx.1.2
    · simp only [Instr.mayWrite16, Bool.or_eq_false_iff] at hx; exact hx.2
    · rw [keysOf_congr (w3.cfg.trans r2.cfg)] at hk
      exact he va vb s1 s2 s3 h1 h2 h3 k hk

/-- Every command, whichever way it ends, is within what its instruction may write. -/
theorem exec_within (i : Instr) (s : State) :
    ∃ m, exec i s = runCommand m s ∧ Within i.mayWrite8 i.mayWrite16 (fun _ => True) s (M.final m s) := by
  by_cases hi : ∃ d e, i = .ex16 d e
  · obtain ⟨d, e, rfl⟩ := hi
    exact ex16_within d e s (fun _ => True) (fun _ _ => trivial) (fun _ _ _ _ _ _ _ _ _ _ => trivial)
  · obtain ⟨m, hm, hw⟩ := exec_framed i s (fun d e h => hi ⟨d, e, h⟩)
    exact ⟨m, hm, hw.mono (fun _ h => h) (fun _ h => h) (fun _ _ => trivial)⟩

/-- The two ways a command's parts end, with what the step hands out. -/
theorem runCommand_final (m : M Unit) (s : State) :
    runCommand m s = .next ((M.final m s).complete s) ∨
      ∃ e, runCommand m s = .next ((M.final m s).takeError e (M.final m s).command) := by
  rcases runCommand_cases m s with ⟨t, ht, hr⟩ | ⟨e, t, ht, hr⟩
  · exact .inl (by rw [hr, M.final_ok ht])
  · exact .inr ⟨e, by rw [hr, M.final_error ht]⟩

end Sys2Proof.Machine
end

