-- ==== Sys2Proof/Laws/PerInstr.lean ====
section
/-! SUPPORT. The per-instruction family `TableAgrees`: the checks on terms (WellFormed.lean) and the tables of the
decoder (Decode.lean) say the same of every instruction. -/

namespace Sys2Proof.Laws.TableAgrees

/-- On both variants: the term is of the variant exactly when its row is (check `op_variant`), its AUX is legal
exactly when the term says so (`aux_legal`), and each descriptor is legal for its slot's class and in its
unused fields, and in `SEL` exactly when its registers exist (30_encoding.md R104 to R111). -/
def Statement (i : Instr) : Prop :=
  ∀ v : Variant, i.op.inVariant v = i.variantOk v ∧ i.op.auxLegal v i.aux = i.auxOk v ∧
    i.dstDesc.Fits i.op.dstClass v (i.dstOk v) ∧ i.srcDesc.Fits i.op.srcClass v (i.srcOk v)

theorem cond_aux (v : Variant) (k : Cond) : (Cond.ofCode k.code).any (fun j => j.inVariant v) = k.inVariant v := by
  simp

theorem short_aux (k : Cond) : (Cond.ofCode k.code).any Cond.short = k.short := by simp

theorem bit_aux (b : Fin 8) : decide ((BitVec.ofNat 8 b.val).toNat < 8) = true := by
  have := b.isLt
  simp only [BitVec.toNat_ofNat, decide_eq_true_eq]
  omega

theorem nop : Statement .nop := fun v =>
  ⟨rfl, rfl, Desc.empty_fits v, Desc.empty_fits v⟩

theorem ld8 (dst : Loc8) (src : Val8) : Statement (.ld8 dst src) := fun v =>
  ⟨rfl, rfl, Loc8.desc_fits dst v .w8 (.inl rfl), Val8.desc_fits src v⟩

theorem ld16 (dst : Loc16) (src : Val16) : Statement (.ld16 dst src) := fun v =>
  ⟨rfl, rfl, Loc16.desc_fits dst v .w16 (.inl rfl), Val16.desc_fits src v⟩

theorem push (src : Val16) : Statement (.push src) := fun v =>
  ⟨rfl, rfl, Desc.empty_fits v, Val16.desc_fits src v⟩

theorem pop (dst : Loc16) : Statement (.pop dst) := fun v =>
  ⟨rfl, rfl, Loc16.desc_fits dst v .w16 (.inl rfl), Desc.empty_fits v⟩

theorem ex16 (dst : Loc16) (src : Loc16) : Statement (.ex16 dst src) := fun v =>
  ⟨rfl, rfl, Loc16.desc_fits dst v .w16 (.inl rfl), Loc16.desc_fits src v .w16 (.inl rfl)⟩

theorem exx : Statement .exx := fun v =>
  ⟨rfl, rfl, Desc.empty_fits v, Desc.empty_fits v⟩

theorem add8 (dst : Loc8) (src : Val8) : Statement (.add8 dst src) := fun v =>
  ⟨rfl, rfl, Loc8.desc_fits dst v .w8 (.inl rfl), Val8.desc_fits src v⟩

theorem adc8 (dst : Loc8) (src : Val8) : Statement (.adc8 dst src) := fun v =>
  ⟨rfl, rfl, Loc8.desc_fits dst v .w8 (.inl rfl), Val8.desc_fits src v⟩

theorem sub8 (dst : Loc8) (src : Val8) : Statement (.sub8 dst src) := fun v =>
  ⟨rfl, rfl, Loc8.desc_fits dst v .w8 (.inl rfl), Val8.desc_fits src v⟩

theorem sbc8 (dst : Loc8) (src : Val8) : Statement (.sbc8 dst src) := fun v =>
  ⟨rfl, rfl, Loc8.desc_fits dst v .w8 (.inl rfl), Val8.desc_fits src v⟩

theorem and8 (dst : Loc8) (src : Val8) : Statement (.and8 dst src) := fun v =>
  ⟨rfl, rfl, Loc8.desc_fits dst v .w8 (.inl rfl), Val8.desc_fits src v⟩

theorem xor8 (dst : Loc8) (src : Val8) : Statement (.xor8 dst src) := fun v =>
  ⟨rfl, rfl, Loc8.desc_fits dst v .w8 (.inl rfl), Val8.desc_fits src v⟩

theorem or8 (dst : Loc8) (src : Val8) : Statement (.or8 dst src) := fun v =>
  ⟨rfl, rfl, Loc8.desc_fits dst v .w8 (.inl rfl), Val8.desc_fits src v⟩

theorem cp8 (dst : Val8) (src : Val8) : Statement (.cp8 dst src) := fun v =>
  ⟨rfl, rfl, Val8.desc_fits dst v, Val8.desc_fits src v⟩

theorem inc8 (dst : Loc8) : Statement (.inc8 dst) := fun v =>
  ⟨rfl, rfl, Loc8.desc_fits dst v .w8 (.inl rfl), Desc.empty_fits v⟩

theorem dec8 (dst : Loc8) : Statement (.dec8 dst) := fun v =>
  ⟨rfl, rfl, Loc8.desc_fits dst v .w8 (.inl rfl), Desc.empty_fits v⟩

theorem neg : Statement .neg := fun v =>
  ⟨rfl, rfl, Desc.empty_fits v, Desc.empty_fits v⟩

theorem cpl : Statement .cpl := fun v =>
  ⟨rfl, rfl, Desc.empty_fits v, Desc.empty_fits v⟩

theorem daa : Statement .daa := fun v =>
  ⟨rfl, rfl, Desc.empty_fits v, Desc.empty_fits v⟩

theorem scf : Statement .scf := fun v =>
  ⟨rfl, rfl, Desc.empty_fits v, Desc.empty_fits v⟩

theorem ccf : Statement .ccf := fun v =>
  ⟨rfl, rfl, Desc.empty_fits v, Desc.empty_fits v⟩

theorem add16 (dst : Loc16) (src : Val16) : Statement (.add16 dst src) := fun v =>
  ⟨rfl, rfl, Loc16.desc_fits dst v .w16 (.inl rfl), Val16.desc_fits src v⟩

theorem adc16 (dst : Loc16) (src : Val16) : Statement (.adc16 dst src) := fun v =>
  ⟨rfl, rfl, Loc16.desc_fits dst v .w16 (.inl rfl), Val16.desc_fits src v⟩

theorem sbc16 (dst : Loc16) (src : Val16) : Statement (.sbc16 dst src) := fun v =>
  ⟨rfl, rfl, Loc16.desc_fits dst v .w16 (.inl rfl), Val16.desc_fits src v⟩

theorem inc16 (dst : Loc16) : Statement (.inc16 dst) := fun v =>
  ⟨rfl, rfl, Loc16.desc_fits dst v .w16 (.inl rfl), Desc.empty_fits v⟩

theorem dec16 (dst : Loc16) : Statement (.dec16 dst) := fun v =>
  ⟨rfl, rfl, Loc16.desc_fits dst v .w16 (.inl rfl), Desc.empty_fits v⟩

theorem addspe (src : Val8) : Statement (.addspe src) := fun v =>
  ⟨rfl, rfl, Desc.empty_fits v, Val8.desc_fits src v⟩

theorem ldhlspe (src : Val8) : Statement (.ldhlspe src) := fun v =>
  ⟨rfl, rfl, Desc.empty_fits v, Val8.desc_fits src v⟩

theorem rlc (dst : Loc8) : Statement (.rlc dst) := fun v =>
  ⟨rfl, rfl, Loc8.desc_fits dst v .w8 (.inl rfl), Desc.empty_fits v⟩

theorem rrc (dst : Loc8) : Statement (.rrc dst) := fun v =>
  ⟨rfl, rfl, Loc8.desc_fits dst v .w8 (.inl rfl), Desc.empty_fits v⟩

theorem rl (dst : Loc8) : Statement (.rl dst) := fun v =>
  ⟨rfl, rfl, Loc8.desc_fits dst v .w8 (.inl rfl), Desc.empty_fits v⟩

theorem rr (dst : Loc8) : Statement (.rr dst) := fun v =>
  ⟨rfl, rfl, Loc8.desc_fits dst v .w8 (.inl rfl), Desc.empty_fits v⟩

theorem sla (dst : Loc8) : Statement (.sla dst) := fun v =>
  ⟨rfl, rfl, Loc8.desc_fits dst v .w8 (.inl rfl), Desc.empty_fits v⟩

theorem sra (dst : Loc8) : Statement (.sra dst) := fun v =>
  ⟨rfl, rfl, Loc8.desc_fits dst v .w8 (.inl rfl), Desc.empty_fits v⟩

theorem srl (dst : Loc8) : Statement (.srl dst) := fun v =>
  ⟨rfl, rfl, Loc8.desc_fits dst v .w8 (.inl rfl), Desc.empty_fits v⟩

theorem swap (dst : Loc8) : Statement (.swap dst) := fun v =>
  ⟨rfl, rfl, Loc8.desc_fits dst v .w8 (.inl rfl), Desc.empty_fits v⟩

theorem rlca : Statement .rlca := fun v =>
  ⟨rfl, rfl, Desc.empty_fits v, Desc.empty_fits v⟩

theorem rrca : Statement .rrca := fun v =>
  ⟨rfl, rfl, Desc.empty_fits v, Desc.empty_fits v⟩

theorem rla : Statement .rla := fun v =>
  ⟨rfl, rfl, Desc.empty_fits v, Desc.empty_fits v⟩

theorem rra : Statement .rra := fun v =>
  ⟨rfl, rfl, Desc.empty_fits v, Desc.empty_fits v⟩

theorem bit (b : Fin 8) (src : Val8) : Statement (.bit b src) := fun v =>
  ⟨rfl, bit_aux b, Desc.empty_fits v, Val8.desc_fits src v⟩

theorem set (b : Fin 8) (dst : Loc8) : Statement (.set b dst) := fun v =>
  ⟨rfl, bit_aux b, Loc8.desc_fits dst v .w8 (.inl rfl), Desc.empty_fits v⟩

theorem res (b : Fin 8) (dst : Loc8) : Statement (.res b dst) := fun v =>
  ⟨rfl, bit_aux b, Loc8.desc_fits dst v .w8 (.inl rfl), Desc.empty_fits v⟩

theorem jp (cond : Cond) (src : Val16) : Statement (.jp cond src) := fun v =>
  ⟨rfl, cond_aux v cond, Desc.empty_fits v, Val16.desc_fits src v⟩

theorem jr (cond : Cond) (src : Val8) : Statement (.jr cond src) := fun v =>
  ⟨rfl, short_aux cond, Desc.empty_fits v, Val8.desc_fits src v⟩

theorem call (cond : Cond) (src : Val16) : Statement (.call cond src) := fun v =>
  ⟨rfl, cond_aux v cond, Desc.empty_fits v, Val16.desc_fits src v⟩

theorem ret (cond : Cond) : Statement (.ret cond) := fun v =>
  ⟨rfl, cond_aux v cond, Desc.empty_fits v, Desc.empty_fits v⟩

theorem djnz (src : Val8) : Statement (.djnz src) := fun v =>
  ⟨rfl, rfl, Desc.empty_fits v, Val8.desc_fits src v⟩

end Sys2Proof.Laws.TableAgrees
end

