-- ==== Sys2Proof/Laws/Step.lean ====
section
/-! SUPPORT. What every step can do: one lemma over all inputs, from which the statements about `step` follow. -/

namespace Sys2Proof

open Machine

/-! ## A command of a variant writes registers of that variant only -/

theorem Loc8.inVariant_of_isReg8 {o : Loc8} {v : Variant} {x : Reg8} (h : o.inVariant v = true)
    (hx : o.isReg8 x = true) : x.inVariant v = true := by
  cases o with
  | reg y => rw [Loc8.isReg8, beq_iff_eq] at hx; exact hx ▸ h
  | ptr | pptr | mem => exact nomatch hx

theorem Pair.half_inVariant {p : Pair} {v : Variant} {x : Reg8} (h : p.inVariant v = true)
    (hx : (p.high == x || p.low == x) = true) : x.inVariant v = true := by
  cases p <;> cases x <;> first | rfl | exact h | exact absurd hx (by decide)

theorem Loc16.inVariant_of_isReg8 {o : Loc16} {v : Variant} {x : Reg8} (h : o.inVariant v = true)
    (hx : o.isReg8 x = true) : x.inVariant v = true := by
  cases o with
  | pair p => exact Pair.half_inVariant h hx
  | reg | pptr | mem => exact nomatch hx

theorem Loc16.inVariant_of_isReg16 {o : Loc16} {v : Variant} {x : Reg16} (h : o.inVariant v = true)
    (hx : o.isReg16 x = true) : x.inVariant v = true := by
  cases o with
  | reg y => rw [Loc16.isReg16, beq_iff_eq] at hx; exact hx ▸ h
  | pair | pptr | mem => exact nomatch hx

/-- What a well-formed term's checks say. -/
theorem Instr.wellFormed_iff {i : Instr} {v : Variant} :
    i.wellFormed v = true ↔ i.variantOk v = true ∧ i.auxOk v = true ∧ i.dstOk v = true ∧ i.srcOk v = true := by
  simp only [Instr.wellFormed, Instr.illFormed]
  cases i.variantOk v <;> cases i.auxOk v <;> cases i.dstOk v <;> cases i.srcOk v <;> simp

/-- A command of a variant writes registers of that variant only (10_state.md R21). -/
theorem Instr.inVariant_of_mayWrite8 {i : Instr} {v : Variant} {x : Reg8} (hi : i.wellFormed v = true)
    (hx : i.mayWrite8 x = true) : x.inVariant v = true := by
  obtain ⟨hv, -, hd, hs⟩ := Instr.wellFormed_iff.1 hi
  rw [Instr.mayWrite8, Bool.or_eq_true, Bool.and_eq_true, beq_iff_eq] at hx
  rcases hx with hx | ⟨-, rfl⟩
  · cases i <;> first
      | exact absurd hx Bool.false_ne_true
      | exact Loc8.inVariant_of_isReg8 hd hx
      | exact Loc16.inVariant_of_isReg8 hd hx
      | (cases x <;> first | rfl | exact absurd hx Bool.false_ne_true | exact hv)
      | (rw [Instr.dest8, Bool.or_eq_true] at hx
         exact hx.elim (Loc16.inVariant_of_isReg8 hd) (Loc16.inVariant_of_isReg8 hs))
  · rfl

/-- The same of the Register16 cells (10_state.md R23). -/
theorem Instr.inVariant_of_mayWrite16 {i : Instr} {v : Variant} {x : Reg16} (hi : i.wellFormed v = true)
    (hx : i.mayWrite16 x = true) : x.inVariant v = true := by
  obtain ⟨-, -, hd, hs⟩ := Instr.wellFormed_iff.1 hi
  cases i <;> first
    | exact absurd hx Bool.false_ne_true
    | exact Loc16.inVariant_of_isReg16 hd hx
    | (cases x <;> first | rfl | exact absurd hx Bool.false_ne_true)
    | (rw [Instr.mayWrite16, Bool.or_eq_true] at hx
       first
       | exact hx.elim (Loc16.inVariant_of_isReg16 hd) (Loc16.inVariant_of_isReg16 hs)
       | exact hx.elim (fun h => by rw [beq_iff_eq] at h; rw [h]; rfl) (Loc16.inVariant_of_isReg16 hd))

end Sys2Proof

namespace Sys2Proof.Machine

variable {s t : State}

/-! ## Memory views (20_memory.md R71) -/

theorem within_viewByteRead (g : ViewTarget) (a : Addr) (s : State) : ReadsOnly s (M.final (viewByteRead g a) s) := by
  cases g with
  | bus => exact within_busRead8 a s
  | block fb => exact within_flatRead fb a s

theorem within_viewByteWrite (g : ViewTarget) (a : Addr) (v : Byte) (s : State) :
    Within (fun _ => false) (fun _ => false) (fun _ => True) s (M.final (viewByteWrite g a v) s) := by
  cases g with
  | bus => exact (within_busWrite8 a v s).mono (fun _ h => h) (fun _ h => h) (fun _ _ => trivial)
  | block fb => exact (within_flatWrite fb a v s).mono (fun _ h => h) (fun _ h => h) (fun _ _ => trivial)

theorem within_viewWordRead (g : ViewTarget) (a : Addr) (s : State) : ReadsOnly s (M.final (viewWordRead g a) s) :=
  Within.bind (within_viewByteRead g a s) fun _ s1 _ => Within.bind (within_viewByteRead g (a + 1) s1)
    fun _ _ _ => Within.refl ..

theorem within_viewWordWrite (g : ViewTarget) (a : Addr) (v : Word) (s : State) :
    Within (fun _ => false) (fun _ => false) (fun _ => True) s (M.final (viewWordWrite g a v) s) :=
  Within.bind (within_viewByteWrite g a _ s) fun _ s1 _ => within_viewByteWrite g (a + 1) _ s1

/-! ## What is handed out -/

/-- How a step ends from the state its accesses left: with nothing handed out, with something that is no error of a command, or
with the error of a command taken. -/
def EndsIn (u t : State) : Prop :=
  t = u ∨ (∃ o, Output.error? o = none ∧ t = u.emit o) ∨ ∃ e k, t = u.takeError e k

@[simp] theorem Output.error?_error (e : Error) : (Output.error e).error? = some e := rfl

theorem Output.error?_forHost {o : Output} (h : o.forHost = true) : o.error? = none := by
  cases o <;> first | rfl | exact nomatch h

/-- A host read hands one thing to the host and changes nothing else beside what its accesses change. -/
theorem hostAnswer_final {α : Type} {answer : α → Output} {m : M α} (ha : ∀ v, (answer v).forHost = true)
    (h : hostAnswer answer m s = .next t) : ∃ o : Output, o.forHost = true ∧ t = (M.final m s).emit o := by
  unfold hostAnswer at h
  cases hm : m s with
  | ok v u => simp only [hm] at h; injection h with h; rw [M.final_ok hm]; exact ⟨_, ha v, h.symm⟩
  | error e u => simp only [hm] at h; injection h with h; rw [M.final_error hm]; exact ⟨_, rfl, h.symm⟩

/-- A host write hands nothing over, or its error to the host. -/
theorem hostWrite_final {m : M Unit} (h : hostWrite m s = .next t) :
    t = M.final m s ∨ ∃ o : Output, o.forHost = true ∧ t = (M.final m s).emit o := by
  unfold hostWrite at h
  cases hm : m s with
  | ok v u => simp only [hm] at h; injection h with h; rw [M.final_ok hm]; exact .inl h.symm
  | error e u => simp only [hm] at h; injection h with h; rw [M.final_error hm]; exact .inr ⟨_, rfl, h.symm⟩

theorem hostAnswer_ends {α : Type} {answer : α → Output} {m : M α} (ha : ∀ v, (answer v).forHost = true)
    (h : hostAnswer answer m s = .next t) : EndsIn (M.final m s) t :=
  let ⟨o, ho, ht⟩ := hostAnswer_final ha h
  .inr (.inl ⟨o, Output.error?_forHost ho, ht⟩)

theorem hostWrite_ends {m : M Unit} (h : hostWrite m s = .next t) : EndsIn (M.final m s) t :=
  (hostWrite_final h).imp id fun ⟨o, ho, ht⟩ => .inl ⟨o, Output.error?_forHost ho, ht⟩

theorem runCommand_ends {m : M Unit} (h : runCommand m s = .next t) : EndsIn (M.final m s) t := by
  rcases runCommand_final m s with h' | ⟨e, h'⟩ <;> rw [h'] at h <;> injection h with h
  · exact .inr (.inl ⟨_, rfl, h.symm⟩)
  · exact .inr (.inr ⟨_, _, h.symm⟩)

theorem ifPresent_next {p : Bool} {o : Host.Outcome State Fault Refusal} (h : ifPresent p o = .next t) :
    p = true ∧ o = .next t := by
  cases p with
  | false => exact nomatch h
  | true => exact ⟨rfl, h⟩

/-- Every step idles, or takes the next input and then: a command that decodes writes within what its instruction
may write, a register write writes a register of the variant, and everything else writes flat memory at
most; in each case the step ends as `EndsIn` says. -/
theorem step_cases (h : step s = .next t) :
    (s.inputs = [] ∧ t = s) ∨
    ∃ x rest w8 w16 u k, s.inputs = x :: rest ∧
      Within w8 w16 (fun _ => True) { s with inputs := rest, command := k } u ∧ EndsIn u t ∧
      ((∃ bits i, x = .command bits ∧ decode s.cfg.variant bits = .ok i ∧ w8 = i.mayWrite8 ∧
          w16 = i.mayWrite16) ∨
        ((∀ y, w8 y = true → y.inVariant s.cfg.variant = true) ∧
          ∀ y, w16 y = true → y.inVariant s.cfg.variant = true)) := by
  unfold step takeInput at h
  cases hx : s.inputs with
  | nil => rw [hx] at h; injection h with h; exact .inl ⟨rfl, h.symm⟩
  | cons x rest =>
    rw [hx] at h
    refine .inr ?_
    have no8 : ∀ y : Reg8, (fun _ : Reg8 => false) y = true → y.inVariant s.cfg.variant = true := fun _ h => nomatch h
    have no16 : ∀ y : Reg16, (fun _ : Reg16 => false) y = true → y.inVariant s.cfg.variant = true := fun _ h => nomatch h
    cases x with
    | command bits =>
      simp only [runInput, issueCommand] at h
      cases hd : decode s.cfg.variant bits with
      | error c =>
        rw [hd] at h; injection h with h
        exact ⟨_, _, _, _, _, bits, rfl, Within.refl (fun _ => false) (fun _ => false) (fun _ => True) _,
          .inr (.inr ⟨_, _, h.symm⟩), .inr ⟨no8, no16⟩⟩
      | ok i =>
        rw [hd] at h
        obtain ⟨m, hm, hw⟩ := exec_within i { s with inputs := rest, command := bits }
        have h' : exec i { s with inputs := rest, command := bits } = .next t := h
        rw [hm] at h'
        exact ⟨_, _, _, _, _, bits, rfl, hw, runCommand_ends h', .inl ⟨bits, i, rfl, hd, rfl, rfl⟩⟩
    | readReg8 q =>
      obtain ⟨-, h⟩ := ifPresent_next h
      exact ⟨_, _, _, _, _, s.command, rfl, (within_readReg8 q { s with inputs := rest }).within, hostAnswer_ends (fun _ => rfl) h,
        .inr ⟨no8, no16⟩⟩
    | writeReg8 q v =>
      obtain ⟨hp, h⟩ := ifPresent_next h
      exact ⟨_, _, _, _, _, s.command, rfl, (within_writeReg8 q v { s with inputs := rest }).mono (fun _ h => h) (fun _ h => h)
        (fun _ h => h.elim), hostWrite_ends h, .inr ⟨fun y hy => by rw [beq_iff_eq] at hy; exact hy ▸ hp, no16⟩⟩
    | readReg16 q =>
      obtain ⟨-, h⟩ := ifPresent_next h
      exact ⟨_, _, _, _, _, s.command, rfl, (within_readReg16 q { s with inputs := rest }).within, hostAnswer_ends (fun _ => rfl) h,
        .inr ⟨no8, no16⟩⟩
    | writeReg16 q v =>
      obtain ⟨hp, h⟩ := ifPresent_next h
      exact ⟨_, _, _, _, _, s.command, rfl, (within_writeReg16 q v { s with inputs := rest }).mono (fun _ h => h) (fun _ h => h)
        (fun _ h => h.elim), hostWrite_ends h, .inr ⟨no8, fun y hy => by rw [beq_iff_eq] at hy; exact hy ▸ hp⟩⟩
    | viewRead8 g a =>
      exact ⟨_, _, _, _, _, s.command, rfl, (within_viewByteRead g a { s with inputs := rest }).within,
        hostAnswer_ends (fun _ => rfl) h, .inr ⟨no8, no16⟩⟩
    | viewRead16 g a =>
      exact ⟨_, _, _, _, _, s.command, rfl, (within_viewWordRead g a { s with inputs := rest }).within,
        hostAnswer_ends (fun _ => rfl) h, .inr ⟨no8, no16⟩⟩
    | viewWrite8 g a v =>
      exact ⟨_, _, _, _, _, s.command, rfl, within_viewByteWrite g a v { s with inputs := rest }, hostWrite_ends h,
        .inr ⟨no8, no16⟩⟩
    | viewWrite16 g a v =>
      exact ⟨_, _, _, _, _, s.command, rfl, within_viewWordWrite g a v { s with inputs := rest }, hostWrite_ends h,
        .inr ⟨no8, no16⟩⟩

end Sys2Proof.Machine
end

