-- ==== Sys2Proof/Tests/Slice0.lean ====
section
/-! SUPPORT. The model's own tests. Expected values are those of spec/95_test_vectors.md (by vector number or table) or the
examples of the rule named; words are written out from the tables of spec/30_encoding.md. Then one witness
per statement that has hypotheses. -/

namespace Sys2Proof.Tests

open Sys2Proof Sys2Proof.Machine

/-! ## Helpers -/

/-- A machine with the cells listed and nothing else written, over one flat block: the "Start" of
95_test_vectors.md, under `XY_POLICY = Preserve` so that the full F equals the masked one. -/
def machine (v : Variant) (r8 : List (Reg8 × Byte)) (r16 : List (Reg16 × Word)) (bytes : List Host.Cell) : State :=
  State.construct { Config.default with variant := v, xyPolicy := .preserve }
    { regs8 := r8, regs16 := r16, bytes := bytes }

/-- The same with other listeners. -/
def routed (v : Variant) (ls : List Listener) (r8 : List (Reg8 × Byte)) (r16 : List (Reg16 × Word))
    (bytes : List Host.Cell) : State :=
  State.construct { Config.default with variant := v, xyPolicy := .preserve, listeners := ls }
    { regs8 := r8, regs16 := r16, bytes := bytes }

/-- One instruction answers a next state in which `p` holds. -/
def after (i : Instr) (s : State) (p : State → Bool) : Bool :=
  match exec i s with
  | .next t => p t
  | .fault _ => false
  | .refused _ => false

/-- One step does. -/
def afterStep (s : State) (p : State → Bool) : Bool :=
  match step s with
  | .next t => p t
  | .fault _ => false
  | .refused _ => false

/-- A row of 2.7 or 2.9 on one variant: A, B and F before; the register that holds the result, its value, and F. -/
def row (v : Variant) (i : Instr) (a b f : Byte) (x : Reg8) (r f' : Byte) : Bool :=
  after i (machine v [(.a, a), (.b, b), (.f, f)] [] []) fun t =>
    t.reg8 x == r && t.reg8 .f == f' && t.faultRecord.isNone

/-- A row of 2.8: HL, BC and F before; HL and F after. -/
def row16 (v : Variant) (i : Instr) (hl bc : Word) (f : Byte) (r : Word) (f' : Byte) : Bool :=
  after i ((machine v [(.b, 0), (.c, 0), (.h, 0), (.l, 0), (.f, f)] [] []).setPair .hl hl |>.setPair .bc bc) fun t =>
    t.pair .hl == r && t.reg8 .f == f' && t.faultRecord.isNone

/-- The byte of the default block at an address. -/
def byte (s : State) (k : Nat) : Option Byte := Memory.read s.mem k

/-- The error a command ended with. -/
def failed (s : State) (e : Error) : Bool :=
  s.faultRecord == some { error := e, command := s.command } && s.outputs == [.error e]

/-- The accesses, oldest first. -/
def accesses (s : State) : List (AccessKind × Addr × Byte) :=
  (s.busLog.map fun e => (e.kind, e.addr, e.value)).reverse

def regA : Loc8 := .reg .a
def regB : Loc8 := .reg .b
def atHL : Loc8 := .ptr (.pair .hl)
def pairHL : Loc16 := .pair .hl
def pairBC : Loc16 := .pair .bc
def pairDE : Loc16 := .pair .de
def valB : Val8 := .loc regB
def valBC : Val16 := .loc pairBC

/-- V63's memory: one flat block over 0xC000 to 0xDFFF. -/
def ramOnly : List Listener := [{ first := 0xC000, last := 0xDFFF, device := .flat { store := 0, first := 0xC000, last := 0xDFFF } }]

/-! ## WellFormed: an ill-formed term for each check (30_encoding.md R111) -/

theorem test_illFormed_opVariant : (Instr.exx).illFormed .gb = some .opVariant ∧
    (Instr.swap regA).illFormed .z80 = some .opVariant := by decide

theorem test_illFormed_auxLegal : (Instr.jr .po (.imm 0)).illFormed .z80 = some .auxLegal ∧
    (Instr.jp .m (.imm 0)).illFormed .gb = some .auxLegal ∧ (Instr.jp .m (.imm 0)).wellFormed .z80 = true := by decide

theorem test_illFormed_dstSel : (Instr.ld8 (.reg .i) (.imm 0)).illFormed .gb = some .dstSel ∧
    (Instr.ld8 (.ptr (.reg .ix)) (.loc regA)).illFormed .gb = some .dstSel := by decide

theorem test_illFormed_srcSel : (Instr.ld8 regA (.loc (.reg .b'))).illFormed .gb = some .srcSel ∧
    (Instr.ld8 regA (.loc (.reg .b'))).wellFormed .z80 = true := by decide

/-! ## Decoding: a word for every constructor (30_encoding.md R101, R102, R104, R109; R117; programs 1 to 4) -/

theorem test_decode_transfer :
    decode .z80 (command 0x00000000 0 0) = .ok (.nop) ∧
    decode .z80 (command 0x00000001 0x0000000000000071 0x0000001200000009) = .ok (.ld8 regA (.imm 0x12)) ∧
    decode .gb (command 0x00000001 0x0000FF0000FB0205 0x0000000000000071) = .ok (.ld8 (.pptr 0xFF00 (.imm 0xFB)) (.loc regA)) ∧
    decode .gb (command 0x00000001 0x0000FF0000000015 0x0000000000000071) = .ok (.ld8 (.pptr 0xFF00 (.reg .c)) (.loc regA)) ∧
    decode .z80 (command 0x00000002 0x0000000000000023 0x000080000000000A) = .ok (.ld16 pairHL (.imm 0x8000)) ∧
    decode .gb (command 0x00000002 0x0000DFFF00000008 0x0000000000000023) = .ok (.ld16 (.mem 0xDFFF) (.loc pairHL)) ∧
    decode .z80 (command 0x00000002 0x0000FF0000000016 0x00000000000000B2) = .ok (.ld16 (.pptr 0xFF00 (.reg .c)) (.loc (.reg .iy))) ∧
    decode .gb (command 0x00000003 0 0x0000000000000033) = .ok (.push (.loc (.pair .af))) ∧
    decode .gb (command 0x00000004 0x0000000000000003 0) = .ok (.pop pairBC) ∧
    decode .z80 (command 0x00000005 0x0000000000000013 0x0000000000000023) = .ok (.ex16 pairDE pairHL) ∧
    decode .z80 (command 0x00000006 0 0) = .ok (.exx) := by decide

theorem test_encode_transfer :
    encode (.nop) = command 0x00000000 0 0 ∧
    encode (.ld8 regA (.imm 0x12)) = command 0x00000001 0x0000000000000071 0x0000001200000009 ∧
    encode (.ld8 (.pptr 0xFF00 (.imm 0xFB)) (.loc regA)) = command 0x00000001 0x0000FF0000FB0205 0x0000000000000071 ∧
    encode (.ld8 (.pptr 0xFF00 (.reg .c)) (.loc regA)) = command 0x00000001 0x0000FF0000000015 0x0000000000000071 ∧
    encode (.ld16 pairHL (.imm 0x8000)) = command 0x00000002 0x0000000000000023 0x000080000000000A ∧
    encode (.ld16 (.mem 0xDFFF) (.loc pairHL)) = command 0x00000002 0x0000DFFF00000008 0x0000000000000023 ∧
    encode (.ld16 (.pptr 0xFF00 (.reg .c)) (.loc (.reg .iy))) = command 0x00000002 0x0000FF0000000016 0x00000000000000B2 ∧
    encode (.push (.loc (.pair .af))) = command 0x00000003 0 0x0000000000000033 ∧
    encode (.pop pairBC) = command 0x00000004 0x0000000000000003 0 ∧
    encode (.ex16 pairDE pairHL) = command 0x00000005 0x0000000000000013 0x0000000000000023 ∧
    encode (.exx) = command 0x00000006 0 0 := by decide

theorem test_decode_alu8 :
    decode .z80 (command 0x00000010 0x0000000000000071 0x0000000000000024) = .ok (.add8 regA (.loc atHL)) ∧
    decode .z80 (command 0x00000011 0x0000000000000071 0x0000000000000001) = .ok (.adc8 regA valB) ∧
    decode .gb (command 0x00000012 0x0000000000000071 0x0000000500000009) = .ok (.sub8 regA (.imm 0x05)) ∧
    decode .z80 (command 0x00000013 0x00000000000000A4 0x0000000000000071) = .ok (.sbc8 (.ptr (.reg .ix)) (.loc regA)) ∧
    decode .gb (command 0x00000014 0x0000000000000071 0x0000000000000011) = .ok (.and8 regA (.loc (.reg .c))) ∧
    decode .z80 (command 0x00000015 0x0000000000000071 0x0000000000000071) = .ok (.xor8 regA (.loc regA)) ∧
    decode .z80 (command 0x00000016 0x0000000000000071 0x0000123400000007) = .ok (.or8 regA (.loc (.mem 0x1234))) ∧
    decode .z80 (command 0x00000017 0x0000000100000009 0x0000000000000071) = .ok (.cp8 (.imm 0x01) (.loc regA)) ∧
    decode .gb (command 0x00000018 0x0000000000000051 0) = .ok (.inc8 (.reg .l)) ∧
    decode .z80 (command 0x00000019 0x0000000000000024 0) = .ok (.dec8 atHL) ∧
    decode .z80 (command 0x0000001A 0 0) = .ok (.neg) ∧
    decode .gb (command 0x0000001B 0 0) = .ok (.cpl) ∧
    decode .z80 (command 0x0000001C 0 0) = .ok (.daa) ∧
    decode .z80 (command 0x0000001D 0 0) = .ok (.scf) ∧
    decode .gb (command 0x0000001E 0 0) = .ok (.ccf) := by decide

theorem test_encode_alu8 :
    encode (.add8 regA (.loc atHL)) = command 0x00000010 0x0000000000000071 0x0000000000000024 ∧
    encode (.adc8 regA valB) = command 0x00000011 0x0000000000000071 0x0000000000000001 ∧
    encode (.sub8 regA (.imm 0x05)) = command 0x00000012 0x0000000000000071 0x0000000500000009 ∧
    encode (.sbc8 (.ptr (.reg .ix)) (.loc regA)) = command 0x00000013 0x00000000000000A4 0x0000000000000071 ∧
    encode (.and8 regA (.loc (.reg .c))) = command 0x00000014 0x0000000000000071 0x0000000000000011 ∧
    encode (.xor8 regA (.loc regA)) = command 0x00000015 0x0000000000000071 0x0000000000000071 ∧
    encode (.or8 regA (.loc (.mem 0x1234))) = command 0x00000016 0x0000000000000071 0x0000123400000007 ∧
    encode (.cp8 (.imm 0x01) (.loc regA)) = command 0x00000017 0x0000000100000009 0x0000000000000071 ∧
    encode (.inc8 (.reg .l)) = command 0x00000018 0x0000000000000051 0 ∧
    encode (.dec8 atHL) = command 0x00000019 0x0000000000000024 0 ∧
    encode (.neg) = command 0x0000001A 0 0 ∧
    encode (.cpl) = command 0x0000001B 0 0 ∧
    encode (.daa) = command 0x0000001C 0 0 ∧
    encode (.scf) = command 0x0000001D 0 0 ∧
    encode (.ccf) = command 0x0000001E 0 0 := by decide

theorem test_decode_alu16 :
    decode .z80 (command 0x00000020 0x0000000000000023 0x0000000000000013) = .ok (.add16 pairHL (.loc pairDE)) ∧
    decode .z80 (command 0x00000021 0x0000000000000023 0x0000000000000082) = .ok (.adc16 pairHL (.loc (.reg .sp))) ∧
    decode .z80 (command 0x00000022 0x0000000000000023 0x0000000000000013) = .ok (.sbc16 pairHL (.loc pairDE)) ∧
    decode .z80 (command 0x00000023 0x0000000000000023 0) = .ok (.inc16 pairHL) ∧
    decode .gb (command 0x00000024 0x0000000000000082 0) = .ok (.dec16 (.reg .sp)) ∧
    decode .gb (command 0x00000025 0 0x000000FB00000009) = .ok (.addspe (.imm 0xFB)) ∧
    decode .gb (command 0x00000026 0 0x0000000200000009) = .ok (.ldhlspe (.imm 0x02)) := by decide

theorem test_encode_alu16 :
    encode (.add16 pairHL (.loc pairDE)) = command 0x00000020 0x0000000000000023 0x0000000000000013 ∧
    encode (.adc16 pairHL (.loc (.reg .sp))) = command 0x00000021 0x0000000000000023 0x0000000000000082 ∧
    encode (.sbc16 pairHL (.loc pairDE)) = command 0x00000022 0x0000000000000023 0x0000000000000013 ∧
    encode (.inc16 pairHL) = command 0x00000023 0x0000000000000023 0 ∧
    encode (.dec16 (.reg .sp)) = command 0x00000024 0x0000000000000082 0 ∧
    encode (.addspe (.imm 0xFB)) = command 0x00000025 0 0x000000FB00000009 ∧
    encode (.ldhlspe (.imm 0x02)) = command 0x00000026 0 0x0000000200000009 := by decide

theorem test_decode_shift :
    decode .z80 (command 0x00000030 0x0000000000000001 0) = .ok (.rlc regB) ∧
    decode .z80 (command 0x00000031 0x0000000000000011 0) = .ok (.rrc (.reg .c)) ∧
    decode .gb (command 0x00000032 0x0000000000000021 0) = .ok (.rl (.reg .d)) ∧
    decode .gb (command 0x00000033 0x0000000000000031 0) = .ok (.rr (.reg .e)) ∧
    decode .z80 (command 0x00000034 0x0000000000000001 0) = .ok (.sla regB) ∧
    decode .z80 (command 0x00000035 0x0000000000000041 0) = .ok (.sra (.reg .h)) ∧
    decode .gb (command 0x00000036 0x0000000000000051 0) = .ok (.srl (.reg .l)) ∧
    decode .gb (command 0x00000037 0x0000000000000071 0) = .ok (.swap regA) ∧
    decode .z80 (command 0x00000038 0 0) = .ok (.rlca) ∧
    decode .gb (command 0x00000039 0 0) = .ok (.rrca) ∧
    decode .z80 (command 0x0000003A 0 0) = .ok (.rla) ∧
    decode .gb (command 0x0000003B 0 0) = .ok (.rra) := by decide

theorem test_encode_shift :
    encode (.rlc regB) = command 0x00000030 0x0000000000000001 0 ∧
    encode (.rrc (.reg .c)) = command 0x00000031 0x0000000000000011 0 ∧
    encode (.rl (.reg .d)) = command 0x00000032 0x0000000000000021 0 ∧
    encode (.rr (.reg .e)) = command 0x00000033 0x0000000000000031 0 ∧
    encode (.sla regB) = command 0x00000034 0x0000000000000001 0 ∧
    encode (.sra (.reg .h)) = command 0x00000035 0x0000000000000041 0 ∧
    encode (.srl (.reg .l)) = command 0x00000036 0x0000000000000051 0 ∧
    encode (.swap regA) = command 0x00000037 0x0000000000000071 0 ∧
    encode (.rlca) = command 0x00000038 0 0 ∧
    encode (.rrca) = command 0x00000039 0 0 ∧
    encode (.rla) = command 0x0000003A 0 0 ∧
    encode (.rra) = command 0x0000003B 0 0 := by decide

theorem test_decode_bit :
    decode .z80 (command 0x00000740 0 0x0000000000000071) = .ok (.bit 7 (.loc regA)) ∧
    decode .gb (command 0x00000341 0x0000000000000001 0) = .ok (.set 3 regB) ∧
    decode .z80 (command 0x00000042 0x0000000000000024 0) = .ok (.res 0 atHL) := by decide

theorem test_encode_bit :
    encode (.bit 7 (.loc regA)) = command 0x00000740 0 0x0000000000000071 ∧
    encode (.set 3 regB) = command 0x00000341 0x0000000000000001 0 ∧
    encode (.res 0 atHL) = command 0x00000042 0x0000000000000024 0 := by decide

theorem test_decode_control :
    decode .z80 (command 0x00000450 0 0x000000100000000A) = .ok (.jp .c (.imm 0x0010)) ∧
    decode .z80 (command 0x00000850 0 0x000000000000000A) = .ok (.jp .m (.imm 0x0000)) ∧
    decode .z80 (command 0x00000051 0 0x000000F800000009) = .ok (.jr .always (.imm 0xF8)) ∧
    decode .gb (command 0x00000251 0 0x0000000500000009) = .ok (.jr .z (.imm 0x05)) ∧
    decode .gb (command 0x00000052 0 0x000002000000000A) = .ok (.call .always (.imm 0x0200)) ∧
    decode .gb (command 0x00000153 0 0) = .ok (.ret .nz) ∧
    decode .z80 (command 0x00000054 0 0x000000FB00000009) = .ok (.djnz (.imm 0xFB)) := by decide

theorem test_encode_control :
    encode (.jp .c (.imm 0x0010)) = command 0x00000450 0 0x000000100000000A ∧
    encode (.jp .m (.imm 0x0000)) = command 0x00000850 0 0x000000000000000A ∧
    encode (.jr .always (.imm 0xF8)) = command 0x00000051 0 0x000000F800000009 ∧
    encode (.jr .z (.imm 0x05)) = command 0x00000251 0 0x0000000500000009 ∧
    encode (.call .always (.imm 0x0200)) = command 0x00000052 0 0x000002000000000A ∧
    encode (.ret .nz) = command 0x00000153 0 0 ∧
    encode (.djnz (.imm 0xFB)) = command 0x00000054 0 0x000000FB00000009 := by decide

/-- V36 to V56, less V45 and V51, which decode. -/
theorem test_decode_refusals :
    decode .gb (command 0x00000006 0 0) = .error .opVariant ∧
    decode .z80 (command 0x00000037 0x71 0) = .error .opVariant ∧
    decode .z80 (command 0x00000007 0 0) = .error .opDefined ∧
    decode .z80 (command 0x00010000 0 0) = .error .cwReserved ∧
    decode .z80 (command 0x00000001 0x0000000500000009 0x71) = .error .dstKind ∧
    decode .z80 (command 0x00000001 0x71 0x82) = .error .srcKind ∧
    decode .gb (command 0x00000001 0x101 0x09) = .error .dstSel ∧
    decode .z80 (command 0x00000551 0 0x09) = .error .auxLegal ∧
    decode .gb (command 0x00000550 0 0x0A) = .error .auxLegal ∧
    decode .z80 (command 0x00000840 0 0x71) = .error .auxLegal ∧
    decode .z80 (command 0x00000110 0x71 0x01) = .error .auxLegal ∧
    decode .z80 (command 0x00000001 0x71 0x0000010000000009) = .error .srcFields ∧
    decode .z80 (command 0x00000001 0x71 0x0B) = .error .srcKind ∧
    decode .z80 (command 0x00000001 0x71 0x0201) = .error .srcFields ∧
    decode .gb (command 0x00000001 0xA4 0x71) = .error .dstSel ∧
    decode .z80 (command 0x00000023 0x000000050000000A 0) = .error .dstKind ∧
    decode .z80 (command 0x00000001 0x71 0x1001) = .error .srcReserved ∧
    decode .z80 (command 0x00000002 0x83 0x0A) = .error .dstSel ∧
    decode .z80 (command 0x00000003 0x03 0) = .error .dstKind := by decide

/-- The remaining checks of R111: reserved bits of DST, and DST's unused fields. -/
theorem test_decode_refusals_dst :
    decode .z80 (command 0x00000001 0x0000000000008071 0x71) = .error .dstReserved ∧
    decode .z80 (command 0x00000001 0x0000000000010071 0x71) = .error .dstFields ∧
    decode .z80 (command 0x00000001 0x0000FF0000010005 0x71) = .error .dstFields ∧
    decode .z80 (command 0x00000001 0x71 0x0000000000000121) = .error .srcSel := by decide

/-- R115's syntax, on R117's commands and V69's. -/
theorem test_asm : (Instr.add8 regA (.loc atHL)).asm = "ADD8 A, (HL)" ∧
    (Instr.ld8 (.pptr 0xFF00 (.imm 0xFB)) (.loc regA)).asm = "LD8 (0xFF00+#0xFB), A" ∧
    (Instr.jp .nc (.imm 0x0010)).asm = "JP NC, #0x0010" ∧ (Instr.exx).asm = "EXX" := by decide

/-- With every operand word zero the operand kinds are NONE: a row with an operand slot is refused by check 6. -/
theorem test_decodeTableWord : decodeTableWord 32 0x0000001C = some .daa ∧
    decodeTableWord 32 0x00000010 = none ∧ decodeTableWord 160 0x24000000000000007100000010 = some (.add8 regA (.loc atHL)) := by decide

/-! ## Construction -/

/-- `State.reset` is the machine constructed with the `RESET_STATE` of log 1. -/
theorem test_construct_reset : State.construct Config.default ResetState.named = State.reset := by decide

/-! ## State: V1, V2, V11 to V17 -/

theorem test_V1_pairs :
    ((machine .z80 [(.b, 0x12), (.c, 0x34)] [] []).pair .bc = 0x1234 ∧ (machine .gb [(.a, 0x01), (.f, 0xB0)] [] []).pair .af = 0x01B0) ∧
    ((machine .z80 [] [] []).setPair .de 0xBEEF).reg8 .d = 0xBE ∧ ((machine .z80 [] [] []).setPair .de 0xBEEF).reg8 .e = 0xEF ∧
    (((machine .z80 [] [] []).setPair .hl 0x1234).setReg8 .h 0x56).pair .hl = 0x5634 := by decide

theorem test_V2_flags : flagWrite? .gb .c (some true) 0xA5 = 0xB5 ∧ flagWrite? .gb .z (some false) 0xB5 = 0x35 ∧
    flagWrite? .z80 .n (some false) 0xFF = 0xFD ∧ flagWrite? .z80 .pv (some true) 0x00 = 0x04 := by decide

theorem test_V14_V15_unwritten :
    (after (.xor8 regA (.loc regA)) (machine .z80 [] [] []) fun t => failed t (.unwritten (.reg8 .a)) && !t.written8 .a) = true ∧
    (after (.xor8 regA (.loc regA)) (machine .z80 [(.a, 0x05)] [] []) fun t =>
      failed t (.unwritten (.reg8 .f)) && t.reg8 .a == 0x00) = true := by decide

/-! ## Memory and the bus: V6, V18 to V25 -/

/-- V6's listeners; block A is store 0, block B store 1. -/
def twoBlocks : List Listener :=
  [{ first := 0x0000, last := 0x00FF, device := .flat { store := 0, first := 0x0000, last := 0x00FF } },
   { first := 0x0100, last := 0x01FF, device := .flat { store := 1, first := 0x0100, last := 0x01FF } }]

def twoBlocksState : State := routed .z80 twoBlocks [] [] [(0xFF, 0xAA), (65536, 0xBB), (65536 + 0x50, 0xBB)]

/-- The value a part of a command gives, or its error. -/
def value {α : Type} (m : M α) (s : State) : Except Error α :=
  match m s with
  | .ok a _ => .ok a
  | .error e _ => .error e

theorem test_V6_V18_routing : value (busRead8 0x0150) twoBlocksState = .ok 0xBB ∧ value (busRead8 0x00FF) twoBlocksState = .ok 0xAA ∧
    value (busRead8 0x0100) twoBlocksState = .ok 0xBB ∧
    value (busRead8 0x0200) twoBlocksState = .error (.unmappedAddress 0x0200 .read) ∧
    value (busWrite8 0x0200 0x01) twoBlocksState = .error (.unmappedAddress 0x0200 .write) ∧
    value (memRead16 0x00FF) twoBlocksState = .ok 0xBBAA := by decide

theorem test_V20_V21_outOfRange :
    value (busRead8 0xD000) (routed .z80 [{ first := 0xC000, last := 0xDFFF, device := .flat { store := 0, first := 0xC000, last := 0xCFFF } }] [] [] [])
      = .error (.outOfRange 0xD000 0xC000 0xCFFF .read) ∧
    value (busWrite8 0xD000 0) (routed .z80 [{ first := 0xC000, last := 0xDFFF, device := .flat { store := 0, first := 0xC000, last := 0xCFFF } }] [] [] [])
      = .error (.outOfRange 0xD000 0xC000 0xCFFF .write) := by decide

theorem test_V19_V23_wrap_and_empty : value (memRead16 0xFFFF) (machine .z80 [] [] [(0, 0x12), (0xFFFF, 0x34)]) = .ok 0x1234 ∧
    value (busRead8 0x0010) (routed .z80 [{ first := 0x0010, last := 0x000F, device := .peripheral 0 }] [] [] []) =
      .error (.unmappedAddress 0x0010 .read) := by decide

theorem test_V27_V30_pseudoPointer : pseudoAddr 0xFF00 0x80 = 0xFE80 ∧ pseudoAddr 0xFF00 0x7F = 0xFF7F ∧ pseudoAddr 0xFFFF 0x01 = 0x0000 ∧
    pseudoAddr 0x0000 0xFF = 0xFFFF ∧ pseudoAddr 0xFF00 0xFB = 0xFEFB := by decide

/-- V33: the bus log of `ADD8 (HL), (HL)`. -/
theorem test_V33_accesses :
    (after (.add8 atHL (.loc atHL)) (machine .gb [(.h, 0xC0), (.l, 0x00), (.f, 0x00)] [] [(0xC000, 0x88)]) fun t =>
      accesses t == [(.read, 0xC000, 0x88), (.read, 0xC000, 0x88), (.write, 0xC000, 0x10)] && t.reg8 .f == 0x30) = true := by decide

/-! ## The flag library: 2.5 -/

theorem test_flag_library :
    addHalfCarry8c .or 0x0E 0x01 true = false ∧ addHalfCarry8c .or 0x0F 0x01 false = true ∧ addHalfCarry8c .add 0x0E 0x01 true = true ∧
    addHalfCarry16 0x0FFF 0x0800 0x07FF = true ∧ addHalfCarry16 0x0FFF 0x0800 0x07FE = false ∧ addHalfCarry16 0x1000 0x0FFF 0x0001 = true ∧
    addHalfCarry16_8 0x000F 0x01 = true ∧ addHalfCarry16_8 0x00F0 0xFF = false ∧ addCarry16_8 0x0080 0x80 = true ∧
    addCarry16_8 0x0000 0xFF = false ∧ subHalfBorrowC 0x10 0x0F true = true ∧ subBorrowC 0x10 0x0F true = false ∧
    subBorrowC 0x00 0xFF true = true ∧ parity 0x01 = false ∧ parity 0x81 = true ∧
    addOverflow 0x7F 0x01 0x80 = true ∧ subOverflow 0x7F 0xFF 0x80 = true ∧ subOverflow 0x00 0x01 0xFF = false := by decide

/-! ## Transfer: 2.6 -/

theorem test_nop : (after .nop State.reset fun t => t.regs8 == State.reset.regs8 && t.regs16 == State.reset.regs16 && t.faultRecord.isNone) = true := by decide

/-- V16 and V26. -/
theorem test_ld8 :
    (after (.ld8 regA valB) (machine .gb [(.b, 0x03)] [] []) fun t => t.reg8 .a == 0x03 && t.faultRecord.isNone) = true ∧
    (after (.ld8 (.reg .c) (.loc (.pptr 0xFF00 (.reg .c)))) (machine .gb [(.c, 0x05)] [] [(0xFF05, 0x99)]) fun t => t.reg8 .c == 0x99) = true := by decide

/-- V24 and V32. -/
theorem test_ld16 :
    (after (.ld16 (.mem 0xC000) (.loc pairHL)) (machine .z80 [(.h, 0xBE), (.l, 0xEF)] [] []) fun t =>
      accesses t == [(.write, 0xC000, 0xEF), (.write, 0xC001, 0xBE)]) = true ∧
    (after (.ld16 (.pptr 0xFF00 (.imm 0xFF)) (.loc pairHL)) (machine .z80 [(.h, 0xBE), (.l, 0xEF)] [] []) fun t =>
      byte t 0xFEFF == some 0xEF && byte t 0xFF00 == some 0xBE) = true := by decide

/-- V25: the low byte stays written. -/
theorem test_ld16_half_done :
    (after (.ld16 (.mem 0xDFFF) (.loc pairHL)) (routed .gb ramOnly [(.h, 0xAB), (.l, 0xCE)] [] []) fun t =>
      failed t (.unmappedAddress 0xE000 .write) && byte t 0x1FFF == some 0xCE) = true := by decide

/-- V60 and V61. -/
theorem test_push :
    (after (.push (.loc pairHL)) (machine .gb [(.h, 0xAB), (.l, 0xCD)] [(.sp, 0x0001)] []) fun t =>
      t.reg16 .sp == 0xFFFF && byte t 0xFFFF == some 0xCD && byte t 0 == some 0xAB) = true ∧
    (after (.push (.loc (.reg .sp))) (machine .z80 [] [(.sp, 0x1000)] []) fun t =>
      t.reg16 .sp == 0x0FFE && byte t 0x0FFE == some 0x00 && byte t 0x0FFF == some 0x10) = true := by decide

/-- V63: SP stays decremented. -/
theorem test_push_unmapped :
    (after (.push valBC) (routed .gb ramOnly [(.b, 0x12), (.c, 0x34)] [(.sp, 0xC000)] []) fun t =>
      t.reg16 .sp == 0xBFFE && failed t (.unmappedAddress 0xBFFE .write) && t.mem == []) = true := by decide

/-- V62 and V11 with V12. -/
theorem test_pop :
    (after (.pop (.reg .sp)) (machine .z80 [] [(.sp, 0x2000)] [(0x2000, 0x34), (0x2001, 0x12)]) fun t => t.reg16 .sp == 0x1234) = true ∧
    (after (.pop (.pair .af)) (machine .gb [] [(.sp, 0x0100)] [(0x0100, 0xFF), (0x0101, 0x12)]) fun t =>
      t.pair .af == 0x12FF && t.reg16 .sp == 0x0102) = true := by decide

/-- V11. -/
theorem test_pop_masked :
    (after (.pop (.pair .af)) (State.construct { Config.default with variant := .gb, gbFLowMask := true }
      { regs8 := [], regs16 := [(.sp, 0x0100)], bytes := [(0x0100, 0xFF), (0x0101, 0x12)] }) fun t => t.pair .af == 0x12F0) = true := by decide

/-- V10 and V65. -/
theorem test_ex16 :
    (after (.ex16 (.pair .af) (.pair .af')) (machine .z80 [(.a, 0x12), (.f, 0x34), (.a', 0x56), (.f', 0x78)] [] []) fun t =>
      t.pair .af == 0x5678 && t.pair .af' == 0x1234) = true ∧
    (after (.ex16 (.mem 0xFFF0) pairHL) (machine .z80 [(.h, 0x33), (.l, 0x44)] [(.sp, 0xFFF0)] [(0xFFF0, 0x11), (0xFFF1, 0x22)]) fun t =>
      t.pair .hl == 0x2211 && accesses t == [(.read, 0xFFF0, 0x11), (.read, 0xFFF1, 0x22), (.write, 0xFFF0, 0x44), (.write, 0xFFF1, 0x33)]) = true := by decide

/-- V64. -/
theorem test_exx :
    (after .exx (machine .z80 [(.b, 0x00), (.c, 0x01), (.d, 0x00), (.e, 0x02), (.h, 0x00), (.l, 0x03),
      (.b', 0x10), (.c', 0x01), (.d', 0x10), (.e', 0x02), (.h', 0x10), (.l', 0x03), (.a, 0x55), (.f, 0x55)] [] []) fun t =>
      t.pair .bc == 0x1001 && t.pair .de == 0x1002 && t.pair .hl == 0x1003 && t.pair .bc' == 0x0001 && t.pair .de' == 0x0002 &&
      t.pair .hl' == 0x0003 && t.pair .af == 0x5555) = true := by decide

/-- R186, "`Unwritten` if any of the twelve halves is unwritten"; R161, no write before the last read (log 18). -/
theorem test_exx_unwritten :
    (after .exx (machine .z80 [(.b, 0x00), (.c, 0x01), (.b', 0x10), (.c', 0x01), (.d, 0x00), (.e, 0x02)] [] []) fun t =>
      failed t (.unwritten (.reg8 .d')) && t.pair .bc == 0x0001 && t.pair .bc' == 0x1001) = true := by decide

/-! ## 8-bit arithmetic and logic: 2.7 (Z80 row, Game Boy row) -/

theorem test_add8 :
    row .z80 (.add8 regA valB) 0x7F 0x01 0x00 .a 0x80 0x94 = true ∧
    row .z80 (.add8 regA valB) 0x80 0x80 0x00 .a 0x00 0x45 = true ∧
    row .gb (.add8 regA valB) 0xFF 0x01 0x00 .a 0x00 0xB0 = true ∧
    row .gb (.add8 regA valB) 0x0F 0x01 0x00 .a 0x10 0x20 = true := by decide

theorem test_adc8 :
    row .z80 (.adc8 regA valB) 0x0E 0x01 0x01 .a 0x10 0x00 = true ∧
    row .z80 (.adc8 regA valB) 0x7F 0x00 0x01 .a 0x80 0x84 = true ∧
    row .gb (.adc8 regA valB) 0xFF 0x00 0x10 .a 0x00 0x90 = true := by decide

theorem test_sub8 :
    row .z80 (.sub8 regA valB) 0x80 0x01 0x00 .a 0x7F 0x16 = true ∧
    row .z80 (.sub8 regA valB) 0x7F 0xFF 0x00 .a 0x80 0x87 = true ∧
    row .gb (.sub8 regA valB) 0x10 0x01 0x00 .a 0x0F 0x60 = true ∧
    row .gb (.sub8 regA valB) 0x00 0x01 0x00 .a 0xFF 0x70 = true := by decide

theorem test_sbc8 :
    row .z80 (.sbc8 regA valB) 0x10 0x0F 0x01 .a 0x00 0x52 = true ∧
    row .z80 (.sbc8 regA valB) 0x00 0xFF 0x01 .a 0x00 0x53 = true ∧
    row .gb (.sbc8 regA valB) 0x00 0x00 0x10 .a 0xFF 0x70 = true := by decide

theorem test_and8 :
    row .z80 (.and8 regA valB) 0xF0 0x0F 0x00 .a 0x00 0x54 = true ∧
    row .z80 (.and8 regA valB) 0xFF 0x81 0x01 .a 0x81 0x94 = true ∧
    row .gb (.and8 regA valB) 0x3C 0x0F 0x00 .a 0x0C 0x20 = true := by decide

theorem test_xor8 :
    row .z80 (.xor8 regA valB) 0xFF 0xFF 0x00 .a 0x00 0x44 = true ∧
    row .z80 (.xor8 regA valB) 0x55 0xAA 0x00 .a 0xFF 0x84 = true ∧
    row .gb (.xor8 regA valB) 0x00 0x01 0x10 .a 0x01 0x00 = true := by decide

theorem test_or8 :
    row .z80 (.or8 regA valB) 0x80 0x01 0x01 .a 0x81 0x84 = true ∧
    row .gb (.or8 regA valB) 0x00 0x00 0x00 .a 0x00 0x80 = true := by decide

theorem test_cp8 :
    row .z80 (.cp8 (.loc regA) valB) 0x41 0x42 0x00 .a 0x41 0x93 = true ∧
    row .z80 (.cp8 (.loc regA) valB) 0x00 0xFF 0x01 .a 0x00 0x13 = true ∧
    row .gb (.cp8 (.loc regA) valB) 0x42 0x42 0x00 .a 0x42 0xC0 = true := by decide

theorem test_inc8 :
    row .z80 (.inc8 regB) 0x00 0x7F 0x01 .b 0x80 0x95 = true ∧
    row .z80 (.inc8 regB) 0x00 0xFF 0x01 .b 0x00 0x51 = true ∧
    row .gb (.inc8 regB) 0x00 0x0F 0x00 .b 0x10 0x20 = true := by decide

theorem test_dec8 :
    row .z80 (.dec8 regB) 0x00 0x00 0x01 .b 0xFF 0x93 = true ∧
    row .z80 (.dec8 regB) 0x00 0x80 0x00 .b 0x7F 0x16 = true ∧
    row .gb (.dec8 regB) 0x00 0x01 0x00 .b 0x00 0xC0 = true := by decide

/-- `HC8_CARRY_COMBINE = Add` differs in H only. -/
theorem test_adc8_add :
    (after (.adc8 regA valB) (State.construct { Config.default with xyPolicy := .preserve, hc8Combine := .add }
      { regs8 := [(.a, 0x0E), (.b, 0x01), (.f, 0x01)], regs16 := [], bytes := [] }) fun t => t.reg8 .f == 0x10) = true := by decide

theorem test_neg :
    row .z80 (.neg) 0x80 0x00 0x00 .a 0x80 0x87 = true ∧
    row .z80 (.neg) 0x10 0x00 0x00 .a 0xF0 0x83 = true ∧
    row .z80 (.neg) 0x00 0x00 0x00 .a 0x00 0x42 = true := by decide

theorem test_cpl :
    row .z80 (.cpl) 0x5A 0x00 0x00 .a 0xA5 0x12 = true := by decide

theorem test_daa :
    row .z80 (.daa) 0x3C 0x00 0x00 .a 0x42 0x14 = true ∧
    row .z80 (.daa) 0x0F 0x00 0x12 .a 0x09 0x06 = true ∧
    row .z80 (.daa) 0x45 0x00 0x03 .a 0xE5 0x83 = true ∧
    row .gb (.daa) 0x9A 0x00 0x00 .a 0x00 0x90 = true ∧
    row .gb (.daa) 0x0F 0x00 0x60 .a 0x09 0x40 = true ∧
    row .gb (.daa) 0x1F 0x00 0x20 .a 0x25 0x00 = true := by decide

theorem test_scf :
    row .z80 (.scf) 0x00 0x00 0xC7 .a 0x00 0xC5 = true := by decide

theorem test_ccf :
    row .z80 (.ccf) 0x00 0x00 0x00 .a 0x00 0x01 = true ∧
    row .gb (.ccf) 0x00 0x00 0x90 .a 0x00 0x80 = true := by decide

/-! ## 16-bit arithmetic: 2.8 -/

theorem test_add16 :
    row16 .z80 (.add16 pairHL valBC) 0x0800 0x07FF 0x00 0x0FFF 0x10 = true ∧
    row16 .z80 (.add16 pairHL valBC) 0xFFFF 0x0001 0x00 0x0000 0x11 = true ∧
    row16 .gb (.add16 pairHL valBC) 0x8000 0x8000 0x80 0x0000 0x90 = true := by decide

theorem test_adc16 :
    row16 .z80 (.adc16 pairHL valBC) 0x7FFF 0x0000 0x01 0x8000 0x94 = true ∧
    row16 .z80 (.adc16 pairHL valBC) 0xFFFF 0x0000 0x01 0x0000 0x51 = true ∧
    row16 .z80 (.adc16 pairHL valBC) 0x8000 0x8000 0x00 0x0000 0x45 = true := by decide

theorem test_sbc16 :
    row16 .z80 (.sbc16 pairHL valBC) 0x0000 0x0001 0x00 0xFFFF 0x93 = true ∧
    row16 .z80 (.sbc16 pairHL valBC) 0x8000 0x0001 0x00 0x7FFF 0x16 = true ∧
    row16 .z80 (.sbc16 pairHL valBC) 0x1234 0x1233 0x01 0x0000 0x42 = true := by decide

theorem test_inc16 :
    row16 .z80 (.inc16 pairHL) 0x00FF 0x0000 0xFF 0x0100 0xFF = true ∧
    row16 .gb (.inc16 pairHL) 0xFFFF 0x0000 0x00 0x0000 0x00 = true := by decide

theorem test_dec16 : (after (.dec16 pairBC) (machine .gb [(.b, 0x00), (.c, 0x00)] [] []) fun t => t.pair .bc == 0xFFFF && t.faultRecord.isNone) = true := by decide

theorem test_addspe :
    (after (.addspe (.imm 0xFB)) (machine .gb [(.f, 0xF0)] [(.sp, 0x0005)] []) fun t => t.reg16 .sp == 0x0000 && t.reg8 .f == 0x30) = true ∧
    (after (.addspe (.imm 0x80)) (machine .gb [(.f, 0xF0)] [(.sp, 0x1234)] []) fun t => t.reg16 .sp == 0x11B4 && t.reg8 .f == 0x00) = true := by decide

theorem test_ldhlspe :
    (after (.ldhlspe (.imm 0x01)) (machine .gb [(.f, 0xF0)] [(.sp, 0x000F)] []) fun t =>
      t.pair .hl == 0x0010 && t.reg16 .sp == 0x000F && t.reg8 .f == 0x20) = true ∧
    (after (.ldhlspe (.imm 0xFF)) (machine .gb [(.f, 0xF0)] [(.sp, 0x0000)] []) fun t => t.pair .hl == 0xFFFF && t.reg8 .f == 0x00) = true := by decide

/-! ## Shifts, rotates and SWAP: 2.9 -/

theorem test_rlc :
    row .z80 (.rlc regB) 0x00 0x85 0x01 .b 0x0B 0x01 = true ∧
    row .z80 (.rlc regB) 0x00 0xFF 0x00 .b 0xFF 0x85 = true ∧
    row .gb (.rlc regB) 0x00 0x00 0x00 .b 0x00 0x80 = true := by decide

theorem test_rrc :
    row .z80 (.rrc regB) 0x00 0x85 0x01 .b 0xC2 0x81 = true ∧
    row .gb (.rrc regB) 0x00 0x01 0x00 .b 0x80 0x10 = true := by decide

theorem test_rl :
    row .z80 (.rl regB) 0x00 0xFF 0x00 .b 0xFE 0x81 = true ∧
    row .z80 (.rl regB) 0x00 0x80 0x01 .b 0x01 0x01 = true ∧
    row .gb (.rl regB) 0x00 0x85 0x10 .b 0x0B 0x10 = true := by decide

theorem test_rr :
    row .z80 (.rr regB) 0x00 0x80 0x01 .b 0xC0 0x84 = true ∧
    row .z80 (.rr regB) 0x00 0x01 0x00 .b 0x00 0x45 = true ∧
    row .gb (.rr regB) 0x00 0xFF 0x00 .b 0x7F 0x10 = true := by decide

theorem test_sla :
    row .z80 (.sla regB) 0x00 0x85 0x00 .b 0x0A 0x05 = true ∧
    row .gb (.sla regB) 0x00 0x80 0x10 .b 0x00 0x90 = true := by decide

theorem test_sra :
    row .z80 (.sra regB) 0x00 0x80 0x01 .b 0xC0 0x84 = true ∧
    row .gb (.sra regB) 0x00 0x01 0x00 .b 0x00 0x90 = true := by decide

theorem test_srl :
    row .z80 (.srl regB) 0x00 0x85 0x01 .b 0x42 0x05 = true ∧
    row .gb (.srl regB) 0x00 0xFF 0x00 .b 0x7F 0x10 = true := by decide

theorem test_swap :
    row .gb (.swap regB) 0x00 0x12 0xF0 .b 0x21 0x00 = true ∧
    row .gb (.swap regB) 0x00 0x00 0xF0 .b 0x00 0x80 = true := by decide

theorem test_rlca :
    row .z80 (.rlca) 0x80 0x00 0xC4 .a 0x01 0xC5 = true ∧
    row .gb (.rlca) 0x00 0x00 0x80 .a 0x00 0x00 = true := by decide

theorem test_rrca :
    row .z80 (.rrca) 0x01 0x00 0xC5 .a 0x80 0xC5 = true ∧
    row .gb (.rrca) 0x81 0x00 0x90 .a 0xC0 0x10 = true := by decide

theorem test_rla :
    row .z80 (.rla) 0x81 0x00 0xC5 .a 0x03 0xC5 = true ∧
    row .gb (.rla) 0x80 0x00 0x80 .a 0x00 0x10 = true := by decide

theorem test_rra :
    row .z80 (.rra) 0x01 0x00 0xC5 .a 0x80 0xC5 = true ∧
    row .gb (.rra) 0x80 0x00 0x80 .a 0x40 0x00 = true := by decide

/-! ## Single bits: 2.10 -/

/-- On the Z80 S and PV are draws: F is compared under 0x53, for every value of the two. -/
theorem test_bit_z80 : (after (.bit 0 valB) (machine .z80 [(.b, 0xFE), (.f, 0x01)] [] []) fun t => t.reg8 .f &&& 0x53 == 0x51) = true := by
  have h : exec (.bit 0 valB) (machine .z80 [(.b, 0xFE), (.f, 0x01)] [] []) =
      runCommand (bitFlags true) (machine .z80 [(.b, 0xFE), (.f, 0x01)] [] []) := rfl
  rw [after, h, runCommand, bitFlags_z80 _ rfl]
  generalize Config.drawBit _ = sgn
  generalize Config.drawBit _ = pv
  revert sgn pv
  decide

theorem test_bit_gb : row .gb (.bit 7 valB) 0 0x7F 0x10 .b 0x7F 0xB0 = true ∧ row .gb (.bit 3 valB) 0 0x08 0x00 .b 0x08 0x20 = true := by decide

theorem test_set : row .z80 (.set 3 regB) 0 0x00 0xFF .b 0x08 0xFF = true ∧ row .gb (.set 4 (.reg .f)) 0 0 0x00 .f 0x10 0x10 = true := by decide

theorem test_res : row .z80 (.res 7 regB) 0 0xFF 0xFF .b 0x7F 0xFF = true ∧ row .gb (.res 0 regB) 0 0x00 0x00 .b 0x00 0x00 = true := by decide

/-! ## Control transfer: 2.11 -/

/-- V68 and V69. -/
theorem test_jp :
    (after (.jp .nc (.imm 0x0010)) (machine .z80 [(.f, 0x00)] [(.pc, 0x0009)] []) fun t => t.reg16 .pc == 0x0010) = true ∧
    (after (.jp .nc (.imm 0x0010)) (machine .z80 [(.f, 0x01)] [(.pc, 0x0009)] []) fun t => t.reg16 .pc == 0x0009 && t.faultRecord.isNone) = true := by decide

/-- V70. -/
theorem test_jp_parity_sign :
    (after (.jp .pe (.imm 0x0050)) (machine .z80 [(.f, 0x84)] [(.pc, 0x0010)] []) fun t => t.reg16 .pc == 0x0050) = true ∧
    (after (.jp .p (.imm 0x0060)) (machine .z80 [(.f, 0x84)] [(.pc, 0x0010)] []) fun t => t.reg16 .pc == 0x0010) = true := by decide

/-- V71 to V74. -/
theorem test_jr :
    (after (.jr .always (.imm 0xFE)) (machine .gb [] [(.pc, 0x0102)] []) fun t => t.reg16 .pc == 0x0100) = true ∧
    (after (.jr .always (.imm 0x01)) (machine .z80 [] [(.pc, 0xFFFF)] []) fun t => t.reg16 .pc == 0x0000) = true ∧
    (after (.jr .z (.imm 0x05)) (machine .z80 [] [(.pc, 0x0010)] []) fun t => failed t (.unwritten (.reg8 .f)) && t.reg16 .pc == 0x0010) = true := by decide

/-- V75. -/
theorem test_call :
    (after (.call .always (.imm 0x0200)) (machine .gb [] [(.pc, 0x0103), (.sp, 0xFFFE)] []) fun t =>
      t.reg16 .pc == 0x0200 && t.reg16 .sp == 0xFFFC && byte t 0xFFFC == some 0x03 && byte t 0xFFFD == some 0x01) = true := by decide

/-- V76 and V77. -/
theorem test_ret :
    (after (.ret .always) (machine .gb [] [(.sp, 0xFFFA)] [(0xFFFA, 0x0D), (0xFFFB, 0x01)]) fun t => t.reg16 .pc == 0x010D && t.reg16 .sp == 0xFFFC) = true ∧
    (after (.ret .nz) (machine .z80 [(.f, 0x40)] [(.pc, 0x0010), (.sp, 0x1234)] []) fun t =>
      t.reg16 .pc == 0x0010 && t.reg16 .sp == 0x1234 && t.busLog == []) = true := by decide

/-- V78 to V80. -/
theorem test_djnz :
    (after (.djnz (.imm 0xFC)) (machine .z80 [(.b, 0x03)] [(.pc, 0x000A)] []) fun t => t.reg8 .b == 0x02 && t.reg16 .pc == 0x0006) = true ∧
    (after (.djnz (.imm 0xFE)) (machine .z80 [(.b, 0x01)] [(.pc, 0x0010)] []) fun t => t.reg8 .b == 0x00 && t.reg16 .pc == 0x0010) = true ∧
    (after (.djnz (.imm 0xFE)) (machine .z80 [(.b, 0x00)] [(.pc, 0x0010)] []) fun t => t.reg8 .b == 0xFF && t.reg16 .pc == 0x000E) = true := by decide

/-- 60_exceptions.md R305, row "DJNZ: none" (log 18). -/
theorem test_djnz_unwritten :
    (after (.djnz (.imm 0xFC)) (machine .z80 [(.b, 0x03)] [] []) fun t =>
      failed t (.unwritten (.reg16 .pc)) && t.reg8 .b == 0x03) = true := by decide

/-! ## Steps -/

/-- V86: a refused command changes nothing but the record and what is handed out. -/
theorem test_step_illegal :
    (afterStep ((machine .gb [] [] []).withFetchWord 160 0x06) fun t =>
      failed t (.illegalCommand 0x06 .opVariant) && t.regs8 == (machine .gb [] [] []).regs8 && t.busLog == []) = true := by decide

/-- V89: a later command that completes leaves the record. -/
theorem test_record_sticky :
    (after (.add8 regA valB) { machine .z80 [(.a, 0x01), (.b, 0x02), (.f, 0x00)] [] [] with
        faultRecord := some { error := .unmappedAddress 0x0200 .read, command := 0 } } fun t =>
      t.reg8 .a == 0x03 && t.faultRecord == some { error := .unmappedAddress 0x0200 .read, command := 0 }) = true := by decide

/-- R336: a host access that fails tells the host and is observable as no command: the record, the command and the
commands' outputs are as before (log 8). -/
theorem test_host_error :
    (afterStep { machine .z80 [] [] [] with inputs := [.viewRead8 .bus 0x0200], command := 0x42 } fun t =>
      t.faultRecord.isNone && t.command == 0x42 && t.outputs == [.hostError (.unwritten (.byte 0x0200))]) = true := by decide

/-- `withFetchWord` hands the command in: DAA on 0x3C from the reset state's other registers. -/
theorem test_withFetchWord :
    (afterStep (({ State.reset with cfg := { Config.default with xyPolicy := .preserve } } : State).setReg8 .f 0x00 |>.setReg8 .a 0x3C
      |>.withFetchWord 32 0x1C) fun t => t.reg8 .a == 0x42 && t.inputs == []) = true := by decide
/-! ## Witnesses: states and operands that meet each statement's hypotheses -/

/-- A part that ends with an error in a state. -/
def Fails {α : Type} (m : M α) (s : State) : Prop := ∃ e t, m s = .error e t

/-- A part that succeeds in a state. -/
def Gives {α : Type} (m : M α) (s : State) : Prop := ∃ a t, m s = .ok a t

/-- Every register of the Z80 and the bytes the operands below name are written. -/
def full : State := State.construct Config.default
  { regs8 := (Reg8.all.map fun x => (x, 0x40)), regs16 := [(.sp, 0xFFF0), (.pc, 0x0100), (.ix, 0x4040), (.iy, 0x0000)],
    bytes := [(0x0000, 0x12), (0x4040, 0x34), (0x4041, 0x56), (0xFFF0, 0x78), (0xFFF1, 0x9A), (0xFFFF, 0xBC)] }

/-- The same on the Game Boy. -/
def fullGb : State := State.construct { Config.default with variant := .gb }
  { regs8 := (Reg8.all.map fun x => (x, 0x40)), regs16 := [(.sp, 0xFFF0), (.pc, 0x0100)],
    bytes := [(0x0000, 0x12), (0x4040, 0x34), (0x4041, 0x56), (0xFFF0, 0x78), (0xFFF1, 0x9A), (0xFFFF, 0xBC)] }

/-- Nothing is written. -/
def empty : State := State.blank Config.default

/-- Only A and SP, PC are written: F is not. -/
def noF (v : Variant) : State := machine v [(.a, 0x01)] [(.sp, 0x8000), (.pc, 0x0100)] []

/-- SP and PC are written and no listener owns an address. -/
def deaf (v : Variant) : State := routed v [] [(.b, 0x02), (.f, 0x00)] [(.sp, 0x8000), (.pc, 0x0100)] []

/-- A command waits. -/
def waiting (bits : Command) : State := { State.reset with inputs := [.command bits] }

theorem witness_ConstructionGivesResetState :
    ((∀ v, (Reg8.c, v) ∉ ([(.b, 0x12)] : List (Reg8 × Byte))) ∧ Reg8.b.inVariant .gb = true ∧
      (Reg8.b, (0x12 : Byte)) ∈ ([(.b, 0x12)] : List (Reg8 × Byte)) ∧ (∀ w, (Reg8.b, w) ∈ ([(.b, 0x12)] : List (Reg8 × Byte)) → w = 0x12)) ∧
    ((∀ v, (Reg16.pc, v) ∉ ([(.sp, 0xFFFE)] : List (Reg16 × Word))) ∧ Reg16.sp.inVariant .gb = true ∧
      (Reg16.sp, (0xFFFE : Word)) ∈ ([(.sp, 0xFFFE)] : List (Reg16 × Word)) ∧
      (∀ w, (Reg16.sp, w) ∈ ([(.sp, 0xFFFE)] : List (Reg16 × Word)) → w = 0xFFFE)) ∧
    ((∀ v, (0, v) ∉ ([(65535, 0x01)] : List Host.Cell)) ∧ (65535, (0x01 : Byte)) ∈ ([(65535, 0x01)] : List Host.Cell) ∧
      (∀ w, (65535, w) ∈ ([(65535, 0x01)] : List Host.Cell) → w = 0x01)) := by simp [Reg8.inVariant, Reg16.inVariant]

theorem waiting_inv (bits : Command) : (waiting bits).Inv := by
  refine ⟨rfl, ⟨fun x h => ?_, fun x h => ?_⟩, fun h => ?_, fun ev h => ?_, rfl⟩
  · cases x <;> exact nomatch h
  · cases x <;> exact nomatch h
  · exact nomatch h
  · exact nomatch h

theorem witness_StepKeepsInvariant : ∃ s t : State, s.Inv ∧ step s = .next t ∧ s.inputs ≠ [] :=
  ⟨waiting 0, _, waiting_inv 0, rfl, by decide⟩

theorem witness_StepOnlyAdds : ∃ s t : State, step s = .next t ∧ s.inputs ≠ [] ∧ s.faultRecord.isSome = true ∧
    s.written8 .a = true ∧ s.written16 .sp = true ∧ (Memory.read s.mem 0).isSome = true :=
  ⟨{ full with inputs := [.command 0], faultRecord := some { error := .unwritten (.reg8 .a), command := 0 } }, _, rfl,
    by decide, by decide, by decide, by decide, by decide⟩

/-- Each of the four refusals. -/
theorem witness_EveryCommandAnswersNext :
    step { fullGb with inputs := [.readReg8 .i] } = .refused .hostRegisterAbsent ∧
    step { fullGb with inputs := [.writeReg8 .b' 0] } = .refused .hostRegisterAbsent ∧
    step { fullGb with inputs := [.readReg16 .ix] } = .refused .hostRegisterAbsent ∧
    step { fullGb with inputs := [.writeReg16 .iy 0] } = .refused .hostRegisterAbsent := ⟨rfl, rfl, rfl, rfl⟩

theorem witness_DecodeOfEncode : (Instr.bit 7 (.loc (.reg .r))).wellFormed .z80 = true ∧
    (Instr.ldhlspe (.imm 0xFF)).wellFormed .gb = true ∧ (Instr.jp .m (.imm 0xFFFF)).wellFormed .z80 = true := by decide

theorem witness_EncodeOfDecode : decode .z80 (command 0x00000010 0x71 0x24) = .ok (.add8 regA (.loc atHL)) ∧
    decode .gb (command 0x00000037 0x71 0) = .ok (.swap regA) := by decide

theorem witness_IllFormedIsRefusedByItsCheck : (Instr.exx).illFormed .gb = some .opVariant ∧
    (Instr.jr .m (.imm 0)).illFormed .z80 = some .auxLegal ∧ (Instr.inc8 (.reg .r)).illFormed .gb = some .dstSel ∧
    (Instr.push (.loc (.pair .af'))).illFormed .gb = some .srcSel := by decide

theorem witness_CommandFields : (Instr.djnz (.imm 0)).op = .djnz ∧
    (Op.djnz, (0x54 : Byte)) ∈ [(Op.call, (0x52 : Byte)), (.ret, 0x53), (.djnz, 0x54)] ∧
    (Reg8.r, 17) ∈ [(Reg8.i, 16), (.r, 17)] ∧ (Cond.m, (8 : Byte)) ∈ [(Cond.p, (7 : Byte)), (.m, 8)] ∧
    (Instr.djnz (.imm 0)).op ∉ [Op.bit, .set, .res, .jp, .jr, .call, .ret] := by decide

/-- The bounds of every field clause: the last register of each file and the last unified source, per variant. -/
theorem witness_ReservedEncodingsRefused :
    decode .z80 (command 0x00000001 0x111 0x101) = .ok (.ld8 (.reg .r) (.loc (.reg .i))) ∧
    decode .gb (command 0x00000001 0x71 0xFF0000000075) = .ok (.ld8 regA (.loc (.pptr 0xFF00 (.reg .a)))) ∧
    decode .z80 (command 0x00000002 0xB2 0x82) = .ok (.ld16 (.reg .iy) (.loc (.reg .sp))) ∧
    decode .gb (command 0x00000002 0x92 0x33) = .ok (.ld16 (.reg .pc) (.loc (.pair .af))) ∧
    decode .z80 (command 0x00000005 0x73 0x33) = .ok (.ex16 (.pair .af') (.pair .af)) ∧
    decode .z80 (command 0x00000001 0xB4 0x74) = .ok (.ld8 (.ptr (.reg .iy)) (.loc (.ptr (.pair .af')))) ∧
    decode .gb (command 0x00000001 0x94 0x34) = .ok (.ld8 (.ptr (.reg .pc)) (.loc (.ptr (.pair .af)))) ∧
    decode .gb (command 0x00000001 0x1200000007 0xAB00000009) = .ok (.ld8 (.mem 0x0012) (.imm 0xAB)) ∧
    decode .gb (command 0x00000002 0x1200000008 0x12340000000A) = .ok (.ld16 (.mem 0x0012) (.imm 0x1234)) ∧
    decode .z80 (command 0x00000004 0x1200FF0206 0) = .ok (.pop (.pptr 0x0012 (.imm 0xFF))) ∧
    decode .z80 0 = .ok .nop := by decide

theorem witness_IllegalCommandHasNoOtherEffect :
    (waiting 0x07).inputs = .command 0x07 :: [] ∧ decode (waiting 0x07).cfg.variant 0x07 = .error .opDefined := by decide

theorem witness_StepRunsDecodedCommand : (waiting 0x1C).inputs = .command 0x1C :: [] ∧
    decode (waiting 0x1C).cfg.variant 0x1C = .ok .daa ∧
    decode State.reset.cfg.variant (BitVec.ofNat 160 (0x1C % 2 ^ 32)) = .ok .daa := by decide

/-- A block that ends at the top of the address space, as seen by a host that reads and writes it. -/
def topBlock : FlatBlock := { store := 0, first := 0xFFFF, last := 0xFFFF }

/-- One state per clause, for values and for errors; the last clause at a block that ends at 0xFFFF and at one that
ends below it, and an access of the host that completes. -/
theorem witness_HostAccessBetweenCommands :
    State.reset.inputs = [] ∧ Reg8.inVariant full.cfg.variant .r = true ∧ Reg16.inVariant full.cfg.variant .iy = true ∧
    (full.written8 .r = true ∧ empty.written8 .r = false ∧ full.written16 .iy = true ∧ empty.written16 .iy = false) ∧
    (Gives (busRead8 0xFFFF) full ∧ Fails (busRead8 0x0001) full) ∧ (Gives (memRead16 0xFFFF) full ∧ Fails (memRead16 0x0000) full) ∧
    (Gives (busWrite8 0xFFFF 0x12) full ∧ Fails (busWrite8 0x0000 0x12) (deaf .gb)) ∧
    (Gives (memWrite16 0xFFFF 0x1234) full ∧ Fails (memWrite16 0x0000 0x1234) (deaf .gb)) ∧
    flatRead FlatBlock.whole 0xFFFF full = .ok 0xBC full ∧ flatRead FlatBlock.whole (0xFFFF + 1) full = .ok 0x12 full ∧
    flatRead topBlock 0x0000 full = .error (.outOfRange 0x0000 0xFFFF 0xFFFF .read) full ∧
    Gives (flatWrite topBlock 0xFFFF 0x12) full ∧ flatWrite topBlock (0xFFFF + 1) 0x12 full = .error (.outOfRange 0x0000 0xFFFF 0xFFFF .write) full ∧
    ((0xFFFF : Addr) = topBlock.last ∧ topBlock.first ≤ 0xFFFF ∧ ((0xFFFF : Addr) = 0xFFFF → topBlock.first ≠ 0x0000)) ∧
    (∃ fb : FlatBlock, ∃ base : Addr, base = fb.last ∧ fb.first ≤ base ∧ base ≠ 0xFFFF) ∧
    (∃ t, step { full with inputs := [.readReg8 .r] } = .next t) :=
  ⟨rfl, rfl, rfl, ⟨rfl, rfl, rfl, rfl⟩, ⟨⟨_, _, rfl⟩, ⟨_, _, rfl⟩⟩, ⟨⟨_, _, rfl⟩, ⟨_, _, rfl⟩⟩, ⟨⟨_, _, rfl⟩, ⟨_, _, rfl⟩⟩,
    ⟨⟨_, _, rfl⟩, ⟨_, _, rfl⟩⟩, rfl, rfl, rfl, ⟨_, _, rfl⟩, rfl, by decide,
    ⟨{ store := 0, first := 0xC000, last := 0xFFFE }, 0xFFFE, rfl, by decide, by decide⟩, ⟨_, rfl⟩⟩

/-- The bounds of a window, and the addresses beside them. -/
theorem witness_RouteIsFirstOwner : route twoBlocks 0x0000 = twoBlocks[0]? ∧ route twoBlocks 0x00FF = twoBlocks[0]? ∧
    route twoBlocks 0x0100 = twoBlocks[1]? ∧ route twoBlocks 0x01FF = twoBlocks[1]? ∧ route twoBlocks 0x0200 = none := by decide

theorem witness_BusAccessFollowsRoute : route [] 0x0000 = none ∧
    route [{ first := 0xFFFF, last := 0xFFFF, device := .peripheral 3 }] 0xFFFF =
      some { first := 0xFFFF, last := 0xFFFF, device := .peripheral 3 } ∧
    route full.cfg.listeners 0x0000 = some { first := 0x0000, last := 0xFFFF, device := .flat FlatBlock.whole } ∧
    Gives (flatRead FlatBlock.whole 0x0000) full ∧ Fails (flatRead FlatBlock.whole 0x0001) full ∧
    Gives (flatWrite FlatBlock.whole 0xFFFF 0) full ∧ Fails (flatWrite { store := 0, first := 1, last := 0 } 0 0) full :=
  ⟨by decide, by decide, by decide, ⟨_, _, rfl⟩, ⟨_, _, rfl⟩, ⟨_, _, rfl⟩, ⟨_, _, rfl⟩⟩

/-- Both bounds of a window, written and not, and the two addresses outside it. -/
theorem witness_FlatBlockAccess :
    (FlatBlock.whole.first.toNat ≤ (0x0000 : Addr).toNat ∧ (0xFFFF : Addr).toNat ≤ FlatBlock.whole.last.toNat) ∧
    Memory.read full.mem (FlatBlock.whole.key 0xFFFF) = some 0xBC ∧ Memory.read full.mem (FlatBlock.whole.key 0x0001) = none ∧
    ¬((0xC000 : Addr).toNat ≤ (0xBFFF : Addr).toNat ∧ (0xBFFF : Addr).toNat ≤ (0xDFFF : Addr).toNat) ∧
    ¬((0xC000 : Addr).toNat ≤ (0xE000 : Addr).toNat ∧ (0xE000 : Addr).toNat ≤ (0xDFFF : Addr).toNat) := by decide

theorem witness_FlatByteReadsLastWrite : full.storeKey 0xFFFF = some 65535 ∧ full.storeKey 0x0000 ≠ some 65535 ∧
    Gives (busWrite8 0xFFFF 0x01) full := ⟨by decide, by decide, ⟨_, _, rfl⟩⟩

theorem witness_CanonicalMemoryIsExtensional : Memory.wf [(0, 0x01), (65535, 0x02)] = true ∧
    (∀ k, Memory.read [(0, 0x01), (65535, 0x02)] k = Memory.read [(0, 0x01), (65535, 0x02)] k) := ⟨by decide, fun _ => rfl⟩

/-- Both accesses, the first failing, the second failing, and two keys that differ across the wrap. -/
theorem witness_WordIsTwoBytesLowFirst : (Gives (busRead8 0xFFFF) full ∧ Gives (busRead8 (0xFFFF + 1)) full) ∧
    (Gives (busWrite8 0xFFFF 0) full ∧ Gives (busWrite8 (0xFFFF + 1) 0) full) ∧ Fails (busRead8 0x0001) full ∧
    (Gives (busRead8 0x0000) full ∧ Fails (busRead8 (0x0000 + 1)) full) ∧ Fails (busWrite8 0x0000 0) (deaf .z80) ∧
    (Gives (busWrite8 0xDFFF 0) (routed .gb ramOnly [] [] []) ∧ Fails (busWrite8 (0xDFFF + 1) 0) (routed .gb ramOnly [] [] [])) ∧
    (full.storeKey 0xFFFF = some 65535 ∧ full.storeKey (0xFFFF + 1) = some 0 ∧ Gives (memWrite16 0xFFFF 0x1234) full) :=
  ⟨⟨⟨_, _, rfl⟩, ⟨_, _, rfl⟩⟩, ⟨⟨_, _, rfl⟩, ⟨_, _, rfl⟩⟩, ⟨_, _, rfl⟩, ⟨⟨_, _, rfl⟩, ⟨_, _, rfl⟩⟩, ⟨_, _, rfl⟩,
    ⟨⟨_, _, rfl⟩, ⟨_, _, rfl⟩⟩, by decide, by decide, ⟨_, _, rfl⟩⟩

theorem witness_OperandForms8 : full.written8 .r = true ∧ (full.written8 (Pair.af').high = true ∧ full.written8 (Pair.af').low = true) ∧
    full.written16 .iy = true ∧ empty.written8 .b = false ∧ empty.written16 .iy = false ∧ empty.writtenPair .hl = false ∧
    (noF .z80).writtenPair .af = false := by decide

theorem witness_OperandForms16 : full.written16 .iy = true ∧ full.written8 .r = true ∧
    (full.written8 (Pair.af').high = true ∧ full.written8 (Pair.af').low = true) ∧ empty.written16 .sp = false ∧
    empty.written8 (Pair.bc).high = false ∧ empty.written8 .r = false ∧
    ((noF .z80).written8 (Pair.af).high = true ∧ (noF .z80).written8 (Pair.af).low = false) := by decide

theorem witness_RegisterWriteThenRead : Reg8.f ≠ Reg8.a ∧ Reg16.pc ≠ Reg16.sp := by decide

theorem witness_PairIsItsHalves : Pair.hl ≠ Pair.af ∧ Reg8.a ≠ (Pair.hl).high ∧ Reg8.a ≠ (Pair.hl).low := by decide

theorem witness_FlagViewWritesOneBit : (7 : Nat) < 8 ∧ (0 : Nat) ≠ 7 := by decide

/-- Source and destination accessible, for every 8-bit operand kind, and where either fails. -/
theorem witness_NopAndLoads : (full.readsVal8 (.loc atHL) = true ∧ full.writes8 (.pptr 0xFFFF (.imm 0x01)) = true) ∧
    (full.readsVal16 (.loc (.mem 0xFFFF)) = true ∧ full.writes16 (.pptr 0xFFBF (.reg .b)) = true) ∧
    Fails (readVal8 (.loc (.reg .b))) empty ∧ (Gives (readVal8 (.imm 0)) (deaf .gb) ∧ Fails (writeLoc8 (.mem 0) 0) (deaf .gb)) ∧
    Fails (readVal16 (.loc (.pair .hl))) empty ∧ (Gives (readVal16 (.imm 0)) (deaf .gb) ∧ Fails (writeLoc16 (.mem 0xFFFF) 0) (deaf .gb)) :=
  ⟨by decide, by decide, ⟨_, _, rfl⟩, ⟨⟨_, _, rfl⟩, ⟨_, _, rfl⟩⟩, ⟨_, _, rfl⟩, ⟨⟨_, _, rfl⟩, ⟨_, _, rfl⟩⟩⟩

theorem witness_PushAndPop : (full.readsVal16 (.loc (.reg .sp)) = true ∧ full.written16 .sp = true ∧
      full.busWrites16 (full.reg16 .sp - 2) = true) ∧
    (full.busReads16 (full.reg16 .sp) = true ∧ full.writes16 (.mem 0xFFFF) = true) ∧
    Fails (readVal16 (.loc (.pair .hl))) empty ∧ (Gives (readVal16 (.imm 0)) empty ∧ empty.written16 .sp = false) ∧
    ((deaf .gb).written16 .sp = true ∧ Fails (memWrite16 (0x8000 - 2) 0) ((deaf .gb).setReg16 .sp (0x8000 - 2))) ∧
    Fails (memRead16 ((deaf .gb).reg16 .sp)) (deaf .gb) ∧
    (Gives (memRead16 ((machine .z80 [] [(.sp, 0x2000)] [(0x2000, 1), (0x2001, 2)]).reg16 .sp)) (machine .z80 [] [(.sp, 0x2000)] [(0x2000, 1), (0x2001, 2)]) ∧
      Fails (writeLoc16 (.pptr 0 (.reg .b)) 0) (machine .z80 [] [(.sp, 0x2002)] [(0x2000, 1), (0x2001, 2)])) :=
  ⟨by decide, by decide, ⟨_, _, rfl⟩, ⟨⟨_, _, rfl⟩, rfl⟩, ⟨rfl, ⟨_, _, rfl⟩⟩, ⟨_, _, rfl⟩, ⟨⟨_, _, rfl⟩, ⟨_, _, rfl⟩⟩⟩

/-- Both operands readable and SRC writable at the end; and the second store failing: DST holds SRC's offset. -/
theorem witness_ExchangeWords : (full.reads16 (.mem 0x4040) = true ∧ full.reads16 (.pair .de) = true ∧ full.exchangeWrites (.mem 0x4040) (.pair .de)) ∧
    Fails (readLoc16 (.pair .hl)) empty ∧ (Gives (readLoc16 (.reg .sp)) (noF .gb) ∧ Fails (readLoc16 (.pair .af)) (noF .gb)) :=
  ⟨⟨by decide, by decide, fun _ _ _ _ _ _ => rfl⟩, ⟨_, _, rfl⟩, ⟨⟨_, _, rfl⟩, ⟨_, _, rfl⟩⟩⟩

/-- The state of the second store's failure: the block ends at 0x0041, and DST is the pair that holds SRC's offset. -/
def narrow : State := routed .gb [{ first := 0x0000, last := 0x0041, device := .flat FlatBlock.whole }]
  [(.b, 0x40), (.c, 0x00)] [] [(0x40, 0x00), (0x41, 0x42)]

theorem witness_ExchangeWords_second_store : Gives (readLoc16 (.pair .bc)) narrow ∧ Gives (readLoc16 (.pptr 0 (.reg .b))) narrow ∧
    Gives (writeLoc16 (.pair .bc) 0x4200) narrow ∧ Fails (writeLoc16 (.pptr 0 (.reg .b)) 0x4000) (narrow.setPair .bc 0x4200) :=
  ⟨⟨_, _, rfl⟩, ⟨_, _, rfl⟩, ⟨_, _, rfl⟩, ⟨_, _, rfl⟩⟩

theorem witness_ExchangeSets : (full.writtenPair .bc = true ∧ full.writtenPair .bc' = true ∧ full.writtenPair .de = true ∧
      full.writtenPair .de' = true ∧ full.writtenPair .hl = true ∧ full.writtenPair .hl' = true) ∧
    (Reg8.l' ∈ [Reg8.b, .c, .b', .c', .d, .e, .d', .e', .h, .l, .h', .l'] ∧ empty.written8 .l' = false) := by decide

/-- The hypotheses shared by the statements of 8-bit operations with a DST and a SRC: completing, then each error. -/
def BinaryHypotheses8 : Prop :=
  (full.reads8 atHL = true ∧ full.readsVal8 (.loc (.mem 0xFFFF)) = true ∧ full.written8 .f = true) ∧
    Fails (readLoc8 regB) empty ∧ (Gives (readLoc8 regA) (noF .gb) ∧ Fails (readVal8 valB) (noF .gb)) ∧
    (Gives (readLoc8 regA) (noF .z80) ∧ Gives (readVal8 (.imm 1)) (noF .z80) ∧ Gives (writeLoc8 regA 2) (noF .z80) ∧
      ((noF .z80).setReg8 .a 2).written8 .f = false ∧ (noF .z80).written8 .f = false)

theorem witness_AddAndSubtract8 : BinaryHypotheses8 :=
  ⟨by decide, ⟨_, _, rfl⟩, ⟨⟨_, _, rfl⟩, ⟨_, _, rfl⟩⟩, ⟨_, _, rfl⟩, ⟨_, _, rfl⟩, ⟨_, _, rfl⟩, rfl, rfl⟩

/-- The same with a DST alone. -/
def UnaryHypotheses8 : Prop :=
  (full.reads8 (.ptr (.reg .ix)) = true ∧ full.written8 .f = true ∧ fullGb.reads8 (.pptr 0xFFBF (.reg .b)) = true ∧
      fullGb.written8 .f = true ∧ fullGb.cfg.variant = .gb) ∧
    Fails (readLoc8 (.mem 1)) fullGb ∧ (Gives (readLoc8 regA) (noF .gb) ∧ Gives (writeLoc8 regA 2) (noF .gb) ∧
      ((noF .gb).setReg8 .a 2).written8 .f = false ∧ (noF .gb).written8 .f = false)

theorem witness_IncrementAndDecrement8 : UnaryHypotheses8 :=
  ⟨by decide, ⟨_, _, rfl⟩, ⟨_, _, rfl⟩, ⟨_, _, rfl⟩, rfl, rfl⟩

theorem witness_AddAndSubtractWithCarry8 : BinaryHypotheses8 := witness_AddAndSubtract8

theorem witness_BitwiseLogic8 : BinaryHypotheses8 := witness_AddAndSubtract8

theorem witness_ShiftAndRotate8 : UnaryHypotheses8 := witness_IncrementAndDecrement8

theorem witness_RotateThroughCarry8 : UnaryHypotheses8 := witness_IncrementAndDecrement8

theorem witness_SetAndResetBit : UnaryHypotheses8 := witness_IncrementAndDecrement8


theorem witness_Compare8 : (full.readsVal8 (.imm 0) = true ∧ full.readsVal8 (.loc atHL) = true ∧ full.written8 .f = true) ∧
    Fails (readVal8 valB) empty ∧ (Gives (readVal8 (.imm 0)) empty ∧ Fails (readVal8 valB) empty) ∧
    (Gives (readVal8 (.imm 0)) empty ∧ Gives (readVal8 (.imm 0)) empty ∧ empty.written8 .f = false) :=
  ⟨by decide, ⟨_, _, rfl⟩, ⟨⟨_, _, rfl⟩, ⟨_, _, rfl⟩⟩, ⟨_, _, rfl⟩, ⟨_, _, rfl⟩, rfl⟩

/-- A and F written on each variant, A unwritten, F unwritten. -/
def AccumulatorHypotheses : Prop :=
  (full.written8 .a = true ∧ full.written8 .f = true ∧ full.cfg.variant = .z80) ∧
    (fullGb.written8 .a = true ∧ fullGb.written8 .f = true ∧ fullGb.cfg.variant = .gb) ∧ empty.written8 .a = false ∧ empty.written8 .f = false ∧
    ((noF .z80).written8 .a = true ∧ (noF .z80).written8 .f = false ∧ (noF .z80).cfg.variant = .z80)

theorem witness_NegateAndComplement : AccumulatorHypotheses := by unfold AccumulatorHypotheses; decide

theorem witness_SetAndComplementCarry : AccumulatorHypotheses := witness_NegateAndComplement

theorem witness_RotateAccumulator : AccumulatorHypotheses := witness_NegateAndComplement


/-- DAA's cases: N clear and set, on each variant. -/
theorem witness_DecimalAdjust : (machine .z80 [(.a, 0x9A), (.f, 0x00)] [] []).flag .n = false ∧
    (machine .z80 [(.a, 0x0F), (.f, 0x12)] [] []).flag .n = true ∧ (machine .gb [(.a, 0x9A), (.f, 0x00)] [] []).flag .n = false ∧
    (machine .gb [(.a, 0x0F), (.f, 0x60)] [] []).flag .n = true ∧ empty.written8 .a = false ∧
    ((noF .gb).written8 .a = true ∧ (noF .gb).written8 .f = false) := by decide

/-- 16-bit operations with a DST and a SRC. -/
def BinaryHypotheses16 : Prop :=
  (full.cfg.variant = .z80 ∧ full.reads16 (.mem 0xFFFF) = true ∧ full.readsVal16 (.loc (.reg .iy)) = true ∧
      full.written8 .f = true) ∧
    Fails (readLoc16 (.pair .hl)) empty ∧ (Gives (readLoc16 (.reg .sp)) (noF .z80) ∧ Fails (readVal16 (.loc (.pair .hl))) (noF .z80)) ∧
    (Gives (readLoc16 (.reg .sp)) (noF .z80) ∧ Gives (readVal16 (.imm 1)) (noF .z80) ∧ Gives (writeLoc16 (.reg .sp) 0) (noF .z80) ∧
      ((noF .z80).setReg16 .sp 0).written8 .f = false ∧ (noF .z80).written8 .f = false)

theorem witness_Add16 : BinaryHypotheses16 :=
  ⟨by decide, ⟨_, _, rfl⟩, ⟨⟨_, _, rfl⟩, ⟨_, _, rfl⟩⟩, ⟨_, _, rfl⟩, ⟨_, _, rfl⟩, ⟨_, _, rfl⟩, rfl, rfl⟩

theorem witness_AddAndSubtractWithCarry16 : BinaryHypotheses16 := witness_Add16


theorem witness_IncrementAndDecrement16 : full.reads16 (.mem 0xFFFF) = true ∧ Fails (readLoc16 (.reg .sp)) empty := ⟨by decide, ⟨_, _, rfl⟩⟩

theorem witness_AddSignedToStackPointer : (fullGb.cfg.variant = .gb ∧ fullGb.readsVal8 (.loc (.mem 0xFFFF)) = true ∧ fullGb.written16 .sp = true ∧
      fullGb.written8 .f = true) ∧
    Fails (readVal8 valB) empty ∧ (Gives (readVal8 (.imm 0)) empty ∧ empty.written16 .sp = false) ∧
    (Gives (readVal8 (.imm 0)) (noF .gb) ∧ (noF .gb).written16 .sp = true ∧ (noF .gb).written8 .f = false ∧ (noF .gb).cfg.variant = .gb) :=
  ⟨by decide, ⟨_, _, rfl⟩, ⟨⟨_, _, rfl⟩, rfl⟩, ⟨_, _, rfl⟩, rfl, rfl, rfl⟩

theorem witness_TestBit : (full.readsVal8 (.imm 0) = true ∧ full.written8 .f = true) ∧ Fails (readVal8 valB) empty ∧
    (Gives (readVal8 (.loc regA)) (noF .z80) ∧ (noF .z80).written8 .f = false) := ⟨by decide, ⟨_, _, rfl⟩, ⟨_, _, rfl⟩, rfl⟩

/-- Each branch of a condition, and each error. -/
theorem witness_Jumps : ((machine .z80 [(.f, 0x80)] [] []).condReads .m = true ∧ (machine .z80 [(.f, 0x80)] [] []).holds .m = true) ∧
    ((machine .z80 [(.f, 0x80)] [] []).holds .p = false) ∧ (full.condReads .always = true ∧ full.holds .always = true ∧
      full.readsVal16 (.loc pairHL) = true ∧ full.readsVal8 (.imm 0x80) = true ∧ full.written16 .pc = true) ∧
    empty.condReads .z = false ∧ (empty.condReads .always = true ∧ Fails (readVal16 (.loc pairHL)) empty ∧ Fails (readVal8 valB) empty) ∧
    (Gives (readVal8 (.imm 0)) empty ∧ empty.written16 .pc = false) :=
  ⟨by decide, by decide, by decide, by decide, ⟨by decide, ⟨_, _, rfl⟩, ⟨_, _, rfl⟩⟩, ⟨_, _, rfl⟩, rfl⟩

theorem witness_CallAndReturn : (full.condReads .pe = true ∧ full.holds .pe = false) ∧
    (full.condReads .po = true ∧ full.holds .po = true ∧ full.readsVal16 (.imm 0xFFFF) = true ∧ full.written16 .pc = true ∧ full.written16 .sp = true ∧
      full.busWrites16 (full.reg16 .sp - 2) = true ∧ full.busReads16 (full.reg16 .sp) = true) ∧
    empty.condReads .nz = false ∧ (empty.holds .always = true ∧ Fails (readVal16 (.loc pairHL)) empty) ∧
    (Gives (readVal16 (.imm 0)) empty ∧ empty.written16 .pc = false) ∧
    ((machine .gb [] [(.pc, 0)] []).written16 .pc = true ∧ (machine .gb [] [(.pc, 0)] []).written16 .sp = false) ∧
    Fails (memWrite16 (0x8000 - 2) 0x0100) ((deaf .gb).setReg16 .sp (0x8000 - 2)) ∧ empty.written16 .sp = false ∧
    ((deaf .gb).written16 .sp = true ∧ Fails (memRead16 ((deaf .gb).reg16 .sp)) (deaf .gb)) :=
  ⟨by decide, by decide, by decide, ⟨by decide, ⟨_, _, rfl⟩⟩, ⟨⟨_, _, rfl⟩, rfl⟩, by decide, ⟨_, _, rfl⟩, rfl, rfl, ⟨_, _, rfl⟩⟩

/-- B = 1, B = 0 and B = 2; B unwritten; SRC failing; PC unwritten. -/
theorem witness_DecrementAndJump : ((machine .z80 [(.b, 1)] [] []).written8 .b = true ∧ (machine .z80 [(.b, 1)] [] []).reg8 .b = 1) ∧
    ((machine .z80 [(.b, 0)] [(.pc, 0)] []).reg8 .b ≠ 1 ∧ (machine .z80 [(.b, 0)] [(.pc, 0)] []).readsVal8 (.imm 0xFF) = true ∧
      (machine .z80 [(.b, 0)] [(.pc, 0)] []).written16 .pc = true) ∧
    empty.written8 .b = false ∧ ((deaf .z80).reg8 .b ≠ 1 ∧ Fails (readVal8 (.loc (.mem 0))) (deaf .z80)) ∧
    (Gives (readVal8 (.imm 0)) (machine .z80 [(.b, 2)] [] []) ∧ (machine .z80 [(.b, 2)] [] []).written16 .pc = false) :=
  ⟨by decide, by decide, rfl, ⟨by decide, ⟨_, _, rfl⟩⟩, ⟨_, _, rfl⟩, rfl⟩

/-- One instruction of each frame, completing, and one ended by an error. -/
def FrameHypotheses : Prop :=
  ∃ t1 t2 t3 t4 t5 t6, exec (.ld8 (.mem 0xFFFF) valB) full = .next t1 ∧ exec (.inc8 atHL) full = .next t2 ∧
    exec (.add16 (.mem 0x4040) valBC) full = .next t3 ∧ exec (.call .po (.imm 0)) full = .next t4 ∧ exec (.ld8 regA valB) empty = .next t5 ∧
    exec (.push valBC) (deaf .gb) = .next t6

theorem witness_FrameOfTransfers : FrameHypotheses := ⟨_, _, _, _, _, _, rfl, rfl, rfl, rfl, rfl, rfl⟩

theorem witness_FrameOf8BitOperations : FrameHypotheses := witness_FrameOfTransfers

theorem witness_FrameOf16BitOperations : FrameHypotheses := witness_FrameOfTransfers

theorem witness_FrameOfControlTransfer : FrameHypotheses := witness_FrameOfTransfers


/-- The second store reached, and not reached. -/
theorem witness_FrameOfExchange : (∃ t, exec (.ex16 (.mem 0x4040) (.pair .de)) full = .next t) ∧
    (Gives (readLoc16 (.mem 0x4040)) full ∧ Gives (readLoc16 (.pair .de)) full ∧ Gives (writeLoc16 (.mem 0x4040) 0x4040) full) ∧
    (∀ va vb s1 s2 s3, readLoc16 (.mem 0) empty = .ok va s1 → readLoc16 (.pair .de) s1 = .ok vb s2 → writeLoc16 (.mem 0) vb s2 ≠ .ok () s3) :=
  ⟨⟨_, rfl⟩, ⟨⟨_, _, rfl⟩, ⟨_, _, rfl⟩, ⟨_, _, rfl⟩⟩, fun _ _ _ _ _ h => nomatch h⟩

theorem witness_UnlistedFlagsUnchanged : (∃ t, exec (.inc8 regB) (machine .z80 [(.b, 0x0F), (.f, 0x29)] [] []) = .next t ∧
      (Instr.inc8 regB).dest8 .f = false ∧ (Instr.inc8 regB).writesFlag .z80 .c = false) ∧
    (∃ t, exec (.ld8 regA valB) fullGb = .next t ∧ (Instr.ld8 regA valB).writesFlags = false) ∧
    ((machine .z80 [] [] []).cfg.variant = .z80 ∧ (machine .z80 [] [] []).cfg.xyPolicy = .preserve) ∧
    (fullGb.cfg.variant = .gb ∧ fullGb.fMasked ∧ fullGb.written8 .f = true) :=
  ⟨⟨_, rfl, rfl, rfl⟩, ⟨_, rfl, rfl⟩, ⟨rfl, rfl⟩, rfl, fun _ h => absurd h (by decide), rfl⟩

theorem witness_RegisterOperationsUseNoBus : (Instr.add8 regA valB).usesBus = false ∧ (∃ t, exec (.add8 regA valB) full = .next t) ∧
    (Instr.jp .always (.loc pairHL)).usesBus = false ∧ (∃ t e, exec (.add8 regA valB) empty = .next t ∧ t.outputs = .error e :: empty.outputs) :=
  ⟨rfl, ⟨_, rfl⟩, rfl, ⟨_, _, rfl, rfl⟩⟩

end Sys2Proof.Tests
end

section
/-! PROOFS. The decoder answers commands of its variant only (spec/30_encoding.md R104, R106 to R109, R111). -/

namespace Sys2Proof

variable {v : Variant} {d : Desc}

/-! ## A descriptor with a legal SEL resolves to an operand of the variant (R104, R106) -/

theorem Desc.offset?_inVariant {f : Offset} (h : d.offset? = some f)
    (hs : (if d.offImm then d.sel == 0 else (Reg8.ofId d.sel).any (·.inVariant v)) = true) : f.inVariant v = true := by
  unfold Desc.offset? at h
  split at h
  · obtain rfl := Option.some.inj h; rfl
  · rename_i hi
    obtain ⟨x, hx, rfl⟩ := Option.map_eq_some_iff.1 h
    rw [if_neg hi, hx] at hs; exact hs

theorem Desc.loc8?_inVariant {o : Loc8} (h : d.loc8? = some o) (hs : d.selLegal v = true) : o.inVariant v = true := by
  unfold Desc.loc8? at h
  unfold Desc.selLegal at hs
  split at h <;> rename_i hk <;> simp only [hk] at hs
  · obtain ⟨x, hx, rfl⟩ := Option.map_eq_some_iff.1 h; rw [hx] at hs; exact hs
  · obtain ⟨p, hp, rfl⟩ := Option.map_eq_some_iff.1 h; rw [hp] at hs; exact hs
  · obtain ⟨f, hf, rfl⟩ := Option.map_eq_some_iff.1 h; exact Desc.offset?_inVariant hf hs
  · obtain rfl := Option.some.inj h; rfl
  · exact nomatch h

theorem Desc.val8?_inVariant {o : Val8} (h : d.val8? = some o) (hs : d.selLegal v = true) : o.inVariant v = true := by
  unfold Desc.val8? at h
  split at h
  · obtain rfl := Option.some.inj h; rfl
  · obtain ⟨l, hl, rfl⟩ := Option.map_eq_some_iff.1 h; exact Desc.loc8?_inVariant hl hs

theorem Desc.loc16?_inVariant {o : Loc16} (h : d.loc16? = some o) (hs : d.selLegal v = true) :
    o.inVariant v = true := by
  unfold Desc.loc16? at h
  unfold Desc.selLegal at hs
  split at h <;> rename_i hk <;> simp only [hk] at hs
  · obtain ⟨x, hx, rfl⟩ := Option.map_eq_some_iff.1 h; rw [hx] at hs; exact hs
  · obtain ⟨p, hp, rfl⟩ := Option.map_eq_some_iff.1 h; rw [hp] at hs; exact hs
  · obtain ⟨f, hf, rfl⟩ := Option.map_eq_some_iff.1 h; exact Desc.offset?_inVariant hf hs
  · obtain rfl := Option.some.inj h; rfl
  · exact nomatch h

theorem Desc.val16?_inVariant {o : Val16} (h : d.val16? = some o) (hs : d.selLegal v = true) :
    o.inVariant v = true := by
  unfold Desc.val16? at h
  split at h
  · obtain rfl := Option.some.inj h; rfl
  · obtain ⟨l, hl, rfl⟩ := Option.map_eq_some_iff.1 h; exact Desc.loc16?_inVariant hl hs

/-! ## The instruction built from legal fields is well-formed -/

/-- A row of R109 with legal fields builds a command of the variant. The cases are the operand shapes of R109. -/
theorem Op.build_wellFormed {o : Op} {aux : Byte} {dst src : Desc} {i : Instr} (h : o.build aux dst src = some i)
    (hv : o.inVariant v = true) (ha : o.auxLegal v aux = true) (hd : dst.selLegal v = true)
    (hs : src.selLegal v = true) : i.wellFormed v = true := by
  rw [Instr.wellFormed_iff]
  cases o <;> simp only [Op.build, Option.bind_eq_bind, Option.bind_eq_some_iff, Option.pure_def, Option.some.injEq] at h
  case nop | exx | neg | cpl | daa | scf | ccf | rlca | rrca | rla | rra =>
    subst h; exact ⟨hv, rfl, rfl, rfl⟩
  case inc8 | dec8 | rlc | rrc | rl | rr | sla | sra | srl | swap =>
    obtain ⟨a, hx, rfl⟩ := h; exact ⟨hv, rfl, Desc.loc8?_inVariant hx hd, rfl⟩
  case pop | inc16 | dec16 =>
    obtain ⟨a, hx, rfl⟩ := h; exact ⟨hv, rfl, Desc.loc16?_inVariant hx hd, rfl⟩
  case addspe | ldhlspe | djnz =>
    obtain ⟨b, hy, rfl⟩ := h; exact ⟨hv, rfl, rfl, Desc.val8?_inVariant hy hs⟩
  case push =>
    obtain ⟨b, hy, rfl⟩ := h; exact ⟨hv, rfl, rfl, Desc.val16?_inVariant hy hs⟩
  case ld8 | add8 | adc8 | sub8 | sbc8 | and8 | xor8 | or8 =>
    obtain ⟨a, hx, b, hy, rfl⟩ := h; exact ⟨hv, rfl, Desc.loc8?_inVariant hx hd, Desc.val8?_inVariant hy hs⟩
  case cp8 =>
    obtain ⟨a, hx, b, hy, rfl⟩ := h; exact ⟨hv, rfl, Desc.val8?_inVariant hx hd, Desc.val8?_inVariant hy hs⟩
  case ld16 | add16 | adc16 | sbc16 =>
    obtain ⟨a, hx, b, hy, rfl⟩ := h; exact ⟨hv, rfl, Desc.loc16?_inVariant hx hd, Desc.val16?_inVariant hy hs⟩
  case ex16 =>
    obtain ⟨a, hx, b, hy, rfl⟩ := h; exact ⟨hv, rfl, Desc.loc16?_inVariant hx hd, Desc.loc16?_inVariant hy hs⟩
  case bit =>
    obtain ⟨n, -, b, hy, rfl⟩ := h; exact ⟨hv, rfl, rfl, Desc.val8?_inVariant hy hs⟩
  case set | res =>
    obtain ⟨n, -, a, hx, rfl⟩ := h; exact ⟨hv, rfl, Desc.loc8?_inVariant hx hd, rfl⟩
  case jp | call =>
    obtain ⟨k, hk, b, hy, rfl⟩ := h
    simp only [Op.auxLegal, Op.auxUse, hk, Option.any_some] at ha
    exact ⟨hv, ha, rfl, Desc.val16?_inVariant hy hs⟩
  case jr =>
    obtain ⟨k, hk, b, hy, rfl⟩ := h
    simp only [Op.auxLegal, Op.auxUse, hk, Option.any_some] at ha
    exact ⟨hv, ha, rfl, Desc.val8?_inVariant hy hs⟩
  case ret =>
    obtain ⟨k, hk, rfl⟩ := h
    simp only [Op.auxLegal, Op.auxUse, hk, Option.any_some] at ha
    exact ⟨hv, ha, rfl, rfl⟩

/-- What decodes is a command of the variant (R111). -/
theorem decode_wellFormed {w : Command} {i : Instr} (h : decode v w = .ok i) : i.wellFormed v = true := by
  obtain ⟨o, -, -, hr, hb⟩ := decode_eq_ok h
  obtain ⟨hv, ha, -, -, -, -, hd, hs, -, -⟩ := Op.refusal_eq_none hr
  exact Op.build_wellFormed hb hv ha hd hs

end Sys2Proof
end

section
/-! PROOFS. The invariant is kept: by what is taken from the queue, by what a step's accesses may change, and by what the
step hands out. -/

namespace Sys2Proof.Machine

variable {s t u : State} {w8 : Reg8 → Bool} {w16 : Reg16 → Bool} {ks : Nat → Prop}

/-- Taking an input and latching a command touch no part of the invariant. -/
theorem State.Inv.take (h : s.Inv) (rest : List Input) (k : Command) :
    ({ s with inputs := rest, command := k } : State).Inv :=
  ⟨h.memory, h.absent, h.masked, h.routed, h.record⟩

/-- Where only registers of the variant may change, the absent ones stay unwritten (10_state.md R21, R23). -/
theorem Within.absentUnwritten (h : Within w8 w16 ks s t) (h8 : ∀ x, w8 x = true → x.inVariant s.cfg.variant = true)
    (h16 : ∀ x, w16 x = true → x.inVariant s.cfg.variant = true) (hs : s.absentUnwritten) : t.absentUnwritten := by
  obtain ⟨hs8, hs16⟩ := hs
  unfold State.absentUnwritten
  rw [h.cfg]
  refine ⟨fun x hx => ?_, fun x hx => ?_⟩
  · have hw : w8 x = false := Bool.eq_false_iff.2 fun hw => by simp [h8 x hw] at hx
    rw [State.written8, h.regs8 x hw]; exact hs8 x hx
  · have hw : w16 x = false := Bool.eq_false_iff.2 fun hw => by simp [h16 x hw] at hx
    rw [State.written16, h.regs16 x hw]; exact hs16 x hx

/-- Accesses that write registers of the variant only keep the invariant. -/
theorem Within.inv (h : Within w8 w16 ks s t) (h8 : ∀ x, w8 x = true → x.inVariant s.cfg.variant = true)
    (h16 : ∀ x, w16 x = true → x.inVariant s.cfg.variant = true) (hs : s.Inv) : t.Inv where
  memory := h.wf hs.memory
  absent := h.absentUnwritten h8 h16 hs.absent
  masked := h.masked hs.masked
  routed := h.routed hs.routed
  record := by rw [State.recordIsLast, h.faultRecord, h.outputs]; exact hs.record

/-- Handing out what is no error of a command leaves the record the last error. -/
theorem State.Inv.emit {o : Output} (h : s.Inv) (ho : o.error? = none) : (s.emit o).Inv :=
  ⟨h.memory, h.absent, h.masked, h.routed, by simpa [State.recordIsLast, ho] using h.record⟩

/-- Taking an error makes it the record and the last error handed out (60_exceptions.md R306). -/
theorem State.Inv.takeError (h : s.Inv) (e : Error) (k : Command) : (s.takeError e k).Inv :=
  ⟨h.memory, h.absent, h.masked, h.routed, by simp [State.recordIsLast, List.findSome?_cons]⟩

theorem EndsIn.inv (h : EndsIn u t) (hu : u.Inv) : t.Inv := by
  obtain rfl | ⟨o, ho, rfl⟩ | ⟨e, k, rfl⟩ := h
  · exact hu
  · exact hu.emit ho
  · exact hu.takeError e k

/-- Every step keeps the invariant: its accesses write registers of the variant only, since a command that decodes is
well-formed. -/
theorem step_inv (hs : s.Inv) (h : step s = .next t) : t.Inv := by
  obtain ⟨-, rfl⟩ | ⟨x, rest, w8, w16, u, k, -, hw, hend, hregs⟩ := step_cases h
  · exact hs
  · have hvar : (∀ y, w8 y = true → y.inVariant s.cfg.variant = true) ∧
        ∀ y, w16 y = true → y.inVariant s.cfg.variant = true := by
      obtain ⟨bits, i, -, hdec, rfl, rfl⟩ | hvar := hregs
      · have hwf := decode_wellFormed hdec
        exact ⟨fun _ => Instr.inVariant_of_mayWrite8 hwf, fun _ => Instr.inVariant_of_mayWrite16 hwf⟩
      · exact hvar
    exact hend.inv (hw.inv hvar.1 hvar.2 (hs.take rest k))

/-- Settles O4: what a step may change, one clause of the invariant at a time. -/
theorem stepKeepsInvariant : Obligations.StepKeepsInvariant := fun _ _ hs h => step_inv hs h

end Sys2Proof.Machine
end

section
/-! PROOFS. Registers, pairs and flag views: reads after writes (spec/10_state.md R20 to R34). -/

namespace Sys2Proof.Machine

/-! ## Registers -/

/-- What a Register8 write stores (R20, R34). -/
theorem stored8_eq (cfg : Config) (x : Reg8) (v : Byte) :
    stored8 cfg x v = if x = .f ∧ cfg.variant = .gb ∧ cfg.gbFLowMask = true then v &&& 0xF0 else v := by
  simp [stored8, and_assoc]

/-- Settles O24: the register files' reads after writes. -/
theorem registerWriteThenRead : Obligations.RegisterWriteThenRead := by
  intro s x y z w v u
  refine ⟨by simp, ?_, fun hy => ?_, rfl, by simp, by simp, fun hw => ?_, rfl⟩
  · rw [State.setReg8_reg8_self, stored8_eq]
  · exact Regs8.get_put_ne _ _ hy.symm
  · exact Regs16.get_put_ne _ _ hw.symm

/-! ## Pairs -/

/-- F is no pair's high half (R24). -/
theorem high_ne_f (p : Pair) : p.high ≠ .f := by cases p <;> decide

/-- F is the low half of AF alone (R24). -/
theorem low_ne_f {p : Pair} (h : p ≠ .af) : p.low ≠ .f := by revert h; cases p <;> decide

/-- A high half is never masked (R34). -/
@[simp] theorem stored8_high (cfg : Config) (p : Pair) (v : Byte) : stored8 cfg p.high v = v :=
  stored8_of_ne cfg v (high_ne_f p)

@[simp] theorem State.setPair_reg8_high (s : State) (p : Pair) (w : Word) :
    (s.setPair p w).reg8 p.high = w.extractLsb' 8 8 := by
  rw [State.setPair, State.setReg8_reg8_ne _ _ (high_ne_low p).symm, State.setReg8_reg8_self, stored8_high]

@[simp] theorem State.setPair_reg8_low (s : State) (p : Pair) (w : Word) :
    (s.setPair p w).reg8 p.low = stored8 s.cfg p.low (w.extractLsb' 0 8) := by
  rw [State.setPair, State.setReg8_reg8_self, State.setReg8_cfg]

/-- A pair whose low half is not masked reads what was written (R25, R26). -/
theorem State.setPair_pair (s : State) {p : Pair} (w : Word) (h : p ≠ .af) : (s.setPair p w).pair p = w := by
  rw [State.pair, State.setPair_reg8_high, State.setPair_reg8_low, stored8_of_ne _ _ (low_ne_f h)]
  exact BitVec.extractLsb'_append_extractLsb'

/-- A pair write writes both halves (R26, R44). -/
theorem State.setPair_writtenPair (s : State) (p : Pair) (w : Word) : (s.setPair p w).writtenPair p = true := by
  have hhigh : (s.setPair p w).written8 p.high = true :=
    State.setReg8_written8_mono _ _ _ _ (State.setReg8_written8_self ..)
  have hlow : (s.setPair p w).written8 p.low = true := State.setReg8_written8_self ..
  rw [State.writtenPair, hhigh, hlow]; rfl

/-- Settles O25: each clause from the halves' reads after writes. -/
theorem pairIsItsHalves : Obligations.PairIsItsHalves := by
  intro s p w v
  refine ⟨(ofNat_append _ _).symm, ?_, ?_, s.setPair_pair w, s.setPair_writtenPair p w, fun x hh hl => ?_, ?_, ?_⟩
  · rw [State.setPair_reg8_high, ofNat_high]
  · have hmod : BitVec.ofNat 8 (w.toNat % 256) = BitVec.ofNat 8 w.toNat := BitVec.eq_of_toNat_eq (by simp)
    rw [State.setPair_reg8_low, hmod, ofNat_low]
  · exact (within_setPair s p w).regs8 x (by simp [hh.symm, hl.symm])
  · rw [State.pair, high_append, State.setReg8_reg8_self, stored8_high]
  · rw [State.pair, low_append, State.setReg8_reg8_self]

/-! ## Flag views -/

/-- A flag read is a bit of the number (R29). -/
theorem flagRead_eq_decide (v : Byte) (n : Nat) : flagRead v n = decide (v.toNat / 2 ^ n % 2 = 1) := by
  rw [flagRead, ← BitVec.testBit_toNat, Nat.testBit_eq_decide_div_mod_eq]

/-- Settles O26: a view's write sets its own bit and keeps every other; the flags' bits are the tables of R31 and R32. -/
theorem flagViewWritesOneBit : Obligations.FlagViewWritesOneBit := by
  refine ⟨fun v n m b hn => ⟨?_, fun hm => ?_⟩, flagRead_eq_decide, fun v => rfl, fun v => rfl⟩
  · rw [flagRead_flagWrite v n b hn, if_pos rfl]
  · rw [flagRead_flagWrite v m b hn, if_neg hm]

end Sys2Proof.Machine
end

section
/-! PROOFS. Routing, flat blocks and the bus (spec/20_memory.md R60 to R69, R92). -/

namespace Sys2Proof.Machine

variable {s t : State} {fb : FlatBlock} {a : Addr}

/-! ## Routing (R60, R61) -/

/-- Both bounds are inclusive (R60). -/
theorem owns_iff (l : Listener) (a : Addr) :
    l.owns a = true ↔ l.first.toNat ≤ a.toNat ∧ a.toNat ≤ l.last.toNat := by
  simp [Listener.owns, BitVec.le_def]

/-- Settles O16: `route` is the library's search for the first owner. -/
theorem routeIsFirstOwner : Obligations.RouteIsFirstOwner := by
  refine ⟨owns_iff, fun ls a l => ?_, fun ls a => ?_⟩
  · rw [route, List.find?_eq_some_iff_append]
    constructor
    · rintro ⟨hown, pre, post, hls, hpre⟩
      exact ⟨pre, post, hls, hown, by simpa using hpre⟩
    · rintro ⟨pre, post, hls, hown, hpre⟩
      exact ⟨hown, pre, post, hls, by simpa using hpre⟩
  · rw [route, List.find?_eq_none]
    simp

/-! ## A flat block's own accesses (R65) -/

/-- Both bounds of a window are inclusive (R65). -/
theorem inWindow_iff (fb : FlatBlock) (a : Addr) :
    fb.inWindow a = true ↔ fb.first.toNat ≤ a.toNat ∧ a.toNat ≤ fb.last.toNat := by
  simp [FlatBlock.inWindow, BitVec.le_def]

/-- From the window's first address on, the key is the store's byte `a - first`, with no wraparound (R65). -/
theorem key_eq_of_le (h : fb.first.toNat ≤ a.toNat) :
    fb.key a = 65536 * fb.store + (a.toNat - fb.first.toNat) := by
  rw [FlatBlock.key, BitVec.toNat_sub_of_le h]

theorem flatRead_ok {v : Byte} (hw : fb.inWindow a = true) (hm : Memory.read s.mem (fb.key a) = some v) :
    flatRead fb a s = .ok v s := by
  simp [flatRead, hw, hm]

theorem flatRead_unwritten (hw : fb.inWindow a = true) (hm : Memory.read s.mem (fb.key a) = none) :
    flatRead fb a s = .error (.unwritten (.byte a)) s := by
  simp [flatRead, hw, hm]

theorem flatRead_outOfRange (hw : ¬ fb.inWindow a = true) :
    flatRead fb a s = .error (.outOfRange a fb.first fb.last .read) s := by
  simp [flatRead, hw]

theorem flatWrite_ok (v : Byte) (hw : fb.inWindow a = true) :
    flatWrite fb a v s = .ok () { s with mem := Memory.write s.mem (fb.key a) v } := by
  simp [flatWrite, hw]

theorem flatWrite_outOfRange (v : Byte) (hw : ¬ fb.inWindow a = true) :
    flatWrite fb a v s = .error (.outOfRange a fb.first fb.last .write) s := by
  simp [flatWrite, hw]

/-- Settles O18: each clause is the block's access inside or outside its window. -/
theorem flatBlockAccess : Obligations.FlatBlockAccess := by
  intro s fb a v
  refine ⟨fun hfirst hlast => ?_, fun hout => ?_⟩
  · have hw : fb.inWindow a = true := (inWindow_iff fb a).2 ⟨hfirst, hlast⟩
    exact ⟨key_eq_of_le hfirst, flatWrite_ok v hw, fun b => flatRead_ok hw, flatRead_unwritten hw⟩
  · have hw : ¬ fb.inWindow a = true := mt (inWindow_iff fb a).1 hout
    exact ⟨flatRead_outOfRange hw, flatWrite_outOfRange v hw⟩

/-! ## The bus goes by the route (R62 to R66) -/

/-- The block itself logs nothing: events are the bus's (R76). -/
theorem flatRead_busLog {b : Byte} (h : flatRead fb a s = .ok b t) : t.busLog = s.busLog := by
  by_cases hw : fb.inWindow a = true
  · cases hm : Memory.read s.mem (fb.key a) with
    | none => rw [flatRead_unwritten hw hm] at h; cases h
    | some v => rw [flatRead_ok hw hm] at h; cases h; rfl
  · rw [flatRead_outOfRange hw] at h; cases h

theorem flatWrite_busLog {v : Byte} (h : flatWrite fb a v s = .ok () t) : t.busLog = s.busLog := by
  by_cases hw : fb.inWindow a = true
  · rw [flatWrite_ok v hw] at h; cases h; rfl
  · rw [flatWrite_outOfRange v hw] at h; cases h

section Routed

variable {l : Listener} (hr : route s.cfg.listeners a = some l)
include hr

/-- A routed read that its device answers gives the device's value, as one event (R62, R76). -/
theorem busRead8_of_ok {b : Byte} (h : deviceRead l.device a s = .ok b t) :
    busRead8 a s = .ok b { t with
      busLog := { device := l.device, kind := .read, addr := a, value := b } :: t.busLog } := by
  rw [busRead8, getState_bind, hr]
  exact M.bind_ok h

/-- A routed read that its device refuses is refused alike (R65). -/
theorem busRead8_of_error {e : Error} (h : deviceRead l.device a s = .error e t) : busRead8 a s = .error e t := by
  rw [busRead8, getState_bind, hr]
  exact M.bind_error h

/-- A routed write that its device takes leaves what the device leaves, and one event (R63, R76). -/
theorem busWrite8_of_ok {v : Byte} (h : deviceWrite l.device a v s = .ok () t) :
    busWrite8 a v s = .ok () { t with
      busLog := { device := l.device, kind := .write, addr := a, value := v } :: t.busLog } := by
  rw [busWrite8, getState_bind, hr]
  exact M.bind_ok h

/-- A routed write that its device refuses is refused alike (R65). -/
theorem busWrite8_of_error {v : Byte} {e : Error} (h : deviceWrite l.device a v s = .error e t) :
    busWrite8 a v s = .error e t := by
  rw [busWrite8, getState_bind, hr]
  exact M.bind_error h

end Routed

/-- Settles O17: no owner, a peripheral, or a flat block, whose own access the bus access is. -/
theorem busAccessFollowsRoute : Obligations.BusAccessFollowsRoute := by
  intro s a v
  refine ⟨fun hr => ⟨busRead8_unmapped hr, busWrite8_unmapped v hr⟩, ?_, ?_⟩
  · rintro ⟨_, _, _⟩ n hr rfl
    exact ⟨busRead8_of_ok hr rfl, busWrite8_of_ok hr rfl⟩
  · rintro ⟨_, _, _⟩ fb hr rfl
    refine ⟨fun b t h => ?_, fun e t => busRead8_of_error hr, fun t h => ?_, fun e t => busWrite8_of_error hr⟩
    · rw [← flatRead_busLog h]; exact busRead8_of_ok hr h
    · rw [← flatWrite_busLog h]; exact busWrite8_of_ok hr h

/-! ## Flat memory through the bus (R92) -/

/-- A write to an address with a flat byte behind it sets that byte, and routes nothing anew (R65). -/
theorem busWrite8_storeKey {v : Byte} {k : Nat} (hk : s.storeKey a = some k) (h : busWrite8 a v s = .ok () t) :
    t.cfg = s.cfg ∧ t.mem = Memory.write s.mem k v := by
  obtain ⟨l, fb, hr, hd, hw, rfl⟩ := storeKey_eq_some hk
  rw [busWrite8_flat v hr hd hw] at h
  cases h
  exact ⟨rfl, rfl⟩

/-- The address written reads the value written (R92). -/
theorem busWrite8_byteAt_self {v : Byte} {k : Nat} (hk : s.storeKey a = some k) (h : busWrite8 a v s = .ok () t) :
    t.byteAt a = some v := by
  obtain ⟨hcfg, hmem⟩ := busWrite8_storeKey hk h
  rw [byteAt_eq hcfg, hk, hmem]
  exact Memory.read_write_self ..

/-- An address with another byte behind it, or none, reads as before (R92). -/
theorem busWrite8_byteAt_ne {v : Byte} {k : Nat} {b : Addr} (hk : s.storeKey a = some k)
    (h : busWrite8 a v s = .ok () t) (hb : s.storeKey b ≠ some k) : t.byteAt b = s.byteAt b := by
  obtain ⟨hcfg, hmem⟩ := busWrite8_storeKey hk h
  rw [byteAt_eq hcfg, byteAt_eq rfl, hmem]
  cases hj : s.storeKey b with
  | none => rfl
  | some j => exact Memory.read_write_ne _ _ fun hkj => hb (hj.trans (congrArg some hkj.symm))

/-- The bus reads the flat byte behind an address (R62, R65). -/
theorem busRead8_of_byteAt {v : Byte} (h : s.byteAt a = some v) : ∃ u, busRead8 a s = .ok v u := by
  rw [byteAt_eq rfl] at h
  obtain ⟨k, hk, hm⟩ := Option.bind_eq_some_iff.1 h
  obtain ⟨l, fb, hr, hd, hw, rfl⟩ := storeKey_eq_some hk
  exact ⟨_, busRead8_flat hr hd hw hm⟩

/-- The Register16 cells say all there is of the file. -/
theorem Regs16.ext_get {g g' : Regs16} (h : ∀ x, g.get x = g'.get x) : g = g' := by
  obtain ⟨_, _, _, _⟩ := g
  obtain ⟨_, _, _, _⟩ := g'
  exact (Regs16.mk.injEq ..).mpr ⟨h .sp, h .pc, h .ix, h .iy⟩

/-- Settles O19: the written byte through the bus, every other byte, and what the read leaves. -/
theorem flatByteReadsLastWrite : Obligations.FlatByteReadsLastWrite := by
  intro s t a v k hk h
  have hself : t.byteAt a = some v := busWrite8_byteAt_self hk h
  refine ⟨hself, fun b => busWrite8_byteAt_ne hk h, ?_⟩
  obtain ⟨u, hu⟩ := busRead8_of_byteAt hself
  have hread : ReadsOnly t u := (within_busRead8 a t).of_ok hu
  have hwrite := (within_busWrite8 a v s).of_ok h
  exact ⟨u, hu, hread.mem_eq, Regs8.ext_get fun x => (hread.get8 x).trans (hwrite.regs8 x rfl),
    Regs16.ext_get fun x => (hread.get16 x).trans (hwrite.regs16 x rfl)⟩

end Sys2Proof.Machine
end

section
/-! PROOFS. The canonical form of flat memory: equal reads are equal lists (spec/20_memory.md R65, 10_state.md R44). -/

namespace Sys2Proof.Machine

/-- The canonical form along the list: the first key is below every other. -/
theorem Memory.wf_cons_iff (k : Nat) (v : Byte) (m : Memory) :
    Memory.wf ((k, v) :: m) = true ↔ (∀ i ∈ m.map Prod.fst, k < i) ∧ Memory.wf m = true := by
  rw [Memory.wf_iff_pairwise, Memory.wf_iff_pairwise, List.map_cons, List.pairwise_cons]

/-- The first key of a canonical memory is the least that reads. -/
theorem Memory.head_le_of_read {k j : Nat} {v b : Byte} {m : Memory} (h : Memory.wf ((k, v) :: m) = true)
    (hb : Memory.read ((k, v) :: m) j = some b) : k ≤ j := by
  by_contra hlt
  have hbelow : ∀ i ∈ ((k, v) :: m).map Prod.fst, j < i := by
    rintro i (_ | ⟨_, hi⟩)
    · omega
    · have := ((Memory.wf_cons_iff k v m).1 h).1 i hi; omega
  rw [Memory.read_of_lt _ _ hbelow] at hb
  cases hb

@[simp] theorem Memory.read_cons_self (k : Nat) (v : Byte) (m : Memory) : Memory.read ((k, v) :: m) k = some v :=
  if_pos rfl

@[simp] theorem Memory.read_cons_ne {k j : Nat} (v : Byte) (m : Memory) (h : k ≠ j) :
    Memory.read ((k, v) :: m) j = Memory.read m j :=
  if_neg h

/-- Canonical memories that read alike are equal: their first keys bound each other, and so on along the lists. -/
theorem Memory.eq_of_read_eq (m n : Memory) (hm : Memory.wf m = true) (hn : Memory.wf n = true)
    (h : ∀ k, Memory.read m k = Memory.read n k) : m = n := by
  induction m generalizing n with
  | nil =>
    cases n with
    | nil => rfl
    | cons e n => obtain ⟨k, v⟩ := e; simpa using h k
  | cons e m ih =>
    obtain ⟨k, v⟩ := e
    cases n with
    | nil => simpa using h k
    | cons e' n =>
      obtain ⟨k', v'⟩ := e'
      have hle : k' ≤ k := Memory.head_le_of_read hn ((h k).symm.trans (Memory.read_cons_self k v m))
      have hge : k ≤ k' := Memory.head_le_of_read hm ((h k').trans (Memory.read_cons_self k' v' n))
      obtain rfl : k = k' := Nat.le_antisymm hge hle
      obtain rfl : v = v' := by simpa using h k
      obtain ⟨hkm, hm'⟩ := (Memory.wf_cons_iff k v m).1 hm
      obtain ⟨hkn, hn'⟩ := (Memory.wf_cons_iff k v n).1 hn
      have htail : ∀ j, Memory.read m j = Memory.read n j := by
        intro j
        by_cases hj : k = j
        · rw [← hj, Memory.read_of_lt m k hkm, Memory.read_of_lt n k hkn]
        · simpa [hj] using h j
      rw [ih n hm' hn' htail]

/-- Settles O20: the extensionality above, and what every write keeps. -/
theorem canonicalMemoryIsExtensional : Obligations.CanonicalMemoryIsExtensional :=
  ⟨Memory.eq_of_read_eq, Memory.write_wf⟩

end Sys2Proof.Machine
end

section
/-! PROOFS. Word accesses and the operand forms (spec/20_memory.md R67 to R88). -/

namespace Sys2Proof.Machine

variable {s t : State} {a : Addr}

/-! ## Words (R67, R69) -/

/-- After a word write over two stored bytes the low byte stands at `a` and the high byte at `a + 1` (R67). -/
theorem memWrite16_byteAt {v : Word} {k j : Nat} (hk : s.storeKey a = some k) (hj : s.storeKey (a + 1) = some j)
    (hkj : k ≠ j) (h : memWrite16 a v s = .ok () t) :
    t.byteAt a = some (v.extractLsb' 0 8) ∧ t.byteAt (a + 1) = some (v.extractLsb' 8 8) := by
  obtain ⟨_, u, hlow, hhigh⟩ := M.bind_eq_ok.1 h
  have hcfg : u.cfg = s.cfg := (busWrite8_storeKey hk hlow).1
  have hku : u.storeKey a = some k := (storeKey_congr hcfg a).trans hk
  have hju : u.storeKey (a + 1) = some j := (storeKey_congr hcfg _).trans hj
  have hother : t.byteAt a = u.byteAt a := busWrite8_byteAt_ne hju hhigh (by simp [hku, hkj])
  exact ⟨hother.trans (busWrite8_byteAt_self hk hlow), busWrite8_byteAt_self hju hhigh⟩

/-- Settles O21: a word access is the sequence of its two byte accesses. -/
theorem wordIsTwoBytesLowFirst : Obligations.WordIsTwoBytesLowFirst := by
  intro s a v
  rw [ofNat_low, ofNat_high]
  refine ⟨fun lo hi s1 s2 hlo hhi => ?_, fun s1 s2 hlo hhi => (M.bind_ok hlo).trans hhi, fun e t => M.bind_error,
    fun lo e s1 t hlo hhi => (M.bind_ok hlo).trans (M.bind_error hhi), fun e t => M.bind_error,
    fun e s1 t hlo hhi => (M.bind_ok hlo).trans hhi, fun k j t => memWrite16_byteAt⟩
  rw [ofNat_append]
  exact (M.bind_ok hlo).trans (M.bind_ok hhi)

/-! ## Effective addresses (R82, R83, R86) -/

/-- R83's address as a sum of signed numbers, mod 2^16. -/
theorem pseudoAddr_eq_ofInt (base : Word) (off : Byte) :
    pseudoAddr base off = BitVec.ofInt 16 (base.toInt + off.toInt) := by
  rw [BitVec.ofInt_add, BitVec.ofInt_toInt]; rfl

theorem pseudoEa_imm (base : Word) (o : Byte) (s : State) :
    pseudoEa base (.imm o) s = .ok (BitVec.ofInt 16 (base.toInt + o.toInt)) s := by
  rw [pseudoEa_ok rfl, pseudoAddr_eq_ofInt]; rfl

theorem pseudoEa_reg {x : Reg8} (base : Word) (h : s.written8 x = true) :
    pseudoEa base (.reg x) s = .ok (BitVec.ofInt 16 (base.toInt + (s.reg8 x).toInt)) s := by
  have hoff : s.offsetWritten (.reg x) = true := h
  rw [pseudoEa_ok hoff, pseudoAddr_eq_ofInt]; rfl

theorem pseudoEa_unwritten {x : Reg8} (base : Word) (h : s.written8 x = false) :
    pseudoEa base (.reg x) s = .error (.unwritten (.reg8 x)) s :=
  M.bind_error (readReg8_unwritten h)

theorem writtenPair_of_halves {p : Pair} (hh : s.written8 p.high = true) (hl : s.written8 p.low = true) :
    s.writtenPair p = true := by
  rw [State.writtenPair, hh, hl]; rfl

/-! ## Operand kinds (R81 to R88) -/

/-- Settles O22: a register, or a bus access at the address the operand gives, or the error of reading that address. -/
theorem operandForms8 : Obligations.OperandForms8 := by
  intro s x p y base m o v
  refine ⟨readReg8_ok, rfl, fun hh hl => ?_, fun hy => ?_, fun hx => ?_, M.bind_ok (pseudoEa_imm ..),
    M.bind_ok (pseudoEa_imm ..), rfl, rfl, rfl, fun hx => ?_, fun hy => ?_, fun hp => ?_⟩
  · have hsrc : readSrc16 (.pair p) s = .ok (s.pair p) s := readPair_ok (writtenPair_of_halves hh hl)
    exact ⟨M.bind_ok hsrc, M.bind_ok hsrc⟩
  · have hsrc : readSrc16 (.reg y) s = .ok (s.reg16 y) s := readReg16_ok hy
    exact ⟨M.bind_ok hsrc, M.bind_ok hsrc⟩
  · exact ⟨M.bind_ok (pseudoEa_reg base hx), M.bind_ok (pseudoEa_reg base hx)⟩
  · have hea := pseudoEa_unwritten base hx
    exact ⟨readReg8_unwritten hx, M.bind_error hea, M.bind_error hea⟩
  · have hsrc : readSrc16 (.reg y) s = .error (.unwritten (.reg16 y)) s := readReg16_unwritten hy
    exact ⟨M.bind_error hsrc, M.bind_error hsrc⟩
  · obtain ⟨hw, -⟩ | ⟨q, hq, hqw, hread⟩ := readPair_cases p s
    · rw [hp] at hw; cases hw
    · have hsrc : readSrc16 (.pair p) s = .error (.unwritten (.reg8 q)) s := hread
      exact ⟨q, hq, hqw, M.bind_error hsrc, M.bind_error hsrc⟩

/-- Settles O23: a register, a pair, or a word access at the address the operand gives, or the first read's error. -/
theorem operandForms16 : Obligations.OperandForms16 := by
  intro s x p y base m v o
  refine ⟨readReg16_ok, rfl, fun hh hl => readPair_ok (writtenPair_of_halves hh hl), rfl, fun hx => ?_,
    M.bind_ok (pseudoEa_imm ..), M.bind_ok (pseudoEa_imm ..), rfl, rfl, rfl, readReg16_unwritten, fun hx => ?_,
    fun hh => M.bind_error (readReg8_unwritten hh),
    fun hh hl => (M.bind_ok (readReg8_ok hh)).trans (M.bind_error (readReg8_unwritten hl))⟩
  · exact ⟨M.bind_ok (pseudoEa_reg base hx), M.bind_ok (pseudoEa_reg base hx)⟩
  · exact ⟨M.bind_error (pseudoEa_unwritten base hx), M.bind_error (pseudoEa_unwritten base hx)⟩

end Sys2Proof.Machine
end

section
/-! PROOFS. Decoder and encoder are inverse (spec/30_encoding.md R100 to R112): the checks of the decoder on an encoded
term are the term's own checks, and the fields of a word that decodes are those of what it decodes to. -/

namespace Sys2Proof

variable {v : Variant} {d : Desc}

/-! ## From a term to its word -/

/-- The checks on terms and the tables agree on every row of R109. -/
theorem Laws.TableAgrees.holds : ∀ i : Instr, Statement i
  | .nop => nop | .ld8 d s => ld8 d s | .ld16 d s => ld16 d s | .push s => push s | .pop d => pop d
  | .ex16 d s => ex16 d s | .exx => exx
  | .add8 d s => add8 d s | .adc8 d s => adc8 d s | .sub8 d s => sub8 d s | .sbc8 d s => sbc8 d s
  | .and8 d s => and8 d s | .xor8 d s => xor8 d s | .or8 d s => or8 d s | .cp8 d s => cp8 d s
  | .inc8 d => inc8 d | .dec8 d => dec8 d | .neg => neg | .cpl => cpl | .daa => daa | .scf => scf | .ccf => ccf
  | .add16 d s => add16 d s | .adc16 d s => adc16 d s | .sbc16 d s => sbc16 d s
  | .inc16 d => inc16 d | .dec16 d => dec16 d | .addspe s => addspe s | .ldhlspe s => ldhlspe s
  | .rlc d => rlc d | .rrc d => rrc d | .rl d => rl d | .rr d => rr d
  | .sla d => sla d | .sra d => sra d | .srl d => srl d | .swap d => swap d
  | .rlca => rlca | .rrca => rrca | .rla => rla | .rra => rra
  | .bit b s => bit b s | .set b d => set b d | .res b d => res b d
  | .jp k s => jp k s | .jr k s => jr k s | .call k s => call k s | .ret k => ret k | .djnz s => djnz s

/-- The decoder's checks on an encoded term are the term's own, in the same order: the others pass (R111). -/
theorem Instr.refusal_eq_illFormed (v : Variant) (i : Instr) :
    i.op.refusal v i.aux i.dstDesc.toBits i.srcDesc.toBits = i.illFormed v := by
  obtain ⟨hv, ha, ⟨hdk, hdf, hds⟩, ⟨hsk, hsf, hss⟩⟩ := Laws.TableAgrees.holds i v
  simp [Op.refusal, Instr.illFormed, hv, ha, hdk, hdf, hds, hsk, hsf, hss]

/-- A term's row, AUX and descriptors build it back (R106). -/
theorem Instr.build_eq_self (i : Instr) : i.op.build i.aux i.dstDesc i.srcDesc = some i := by
  cases i <;> simp [Instr.op, Instr.aux, Instr.dstDesc, Instr.srcDesc, Op.build, Loc8.desc_loc8?, Val8.desc_val8?,
    Loc16.desc_loc16?, Val16.desc_val16?, bitIndex?_ofNat]

/-- Decoding an encoded term gives the term, or the check that `illFormed` names. -/
theorem decode_encode (v : Variant) (i : Instr) :
    decode v (encode i) = (i.illFormed v).elim (.ok i) .error := by
  simp only [decode, encode_eq, cwOf_command, dstOf_command, srcOf_command, cw_reserved, cw_op, cw_aux,
    Op.ofCode_code, Instr.refusal_eq_illFormed, Desc.ofBits_toBits, Instr.build_eq_self]
  cases i.illFormed v <;> rfl

/-- Settles O7: a well-formed term fails no check. -/
theorem decodeOfEncode : Obligations.DecodeOfEncode := by
  intro v i hwf
  have hnone : i.illFormed v = none := Option.isNone_iff_eq_none.1 hwf
  rw [decode_encode, hnone]; rfl

/-- Settles O9: the check an ill-formed term fails is the decoder's refusal. -/
theorem illFormedIsRefusedByItsCheck : Obligations.IllFormedIsRefusedByItsCheck := by
  intro v i c hc
  rw [decode_encode, hc]; rfl

/-! ## From a descriptor to its operand and back (R104 to R106) -/

/-- A descriptor of class NONE that passes the checks is the empty one (R105). -/
theorem Desc.empty_eq (h : d.Fits .none v true) : Desc.empty = d := by
  obtain ⟨hk, hf, hs⟩ := h
  obtain ⟨k, hkind, hnone⟩ := (Option.any_eq_true ..).1 hk
  obtain rfl : k = .none := by simpa [OperandClass.has] using hnone
  have hcode := Kind.code_of_ofCode hkind
  obtain ⟨kind, sel, offImm, off8, value⟩ := d
  simp_all [Desc.fieldsLegal, Desc.selLegal, Desc.empty]

/-- Of a register, a pair or a Pointer the checks leave KIND and SEL (R105). -/
theorem Desc.ofSel_eq {k : Kind} (hkind : Kind.ofCode d.kind = some k) (hf : d.fieldsLegal = true)
    (hk : k = .reg8 ∨ k = .reg16 ∨ k = .pair ∨ k = .ptr) : Desc.ofSel k d.sel = d := by
  have hcode := Kind.code_of_ofCode hkind
  obtain ⟨kind, sel, offImm, off8, value⟩ := d
  rcases hk with rfl | rfl | rfl | rfl <;> simp_all [Desc.fieldsLegal, Desc.ofSel, Desc.empty]

/-- Of a memory operand or a 16-bit immediate they leave KIND and VALUE (R104, R105). -/
theorem Desc.ofValue_eq {k : Kind} (hkind : Kind.ofCode d.kind = some k) (hf : d.fieldsLegal = true)
    (hs : d.selLegal v = true) (hk : k = .mem8 ∨ k = .mem16 ∨ k = .imm16) : Desc.ofValue k d.value = d := by
  have hcode := Kind.code_of_ofCode hkind
  obtain ⟨kind, sel, offImm, off8, value⟩ := d
  rcases hk with rfl | rfl | rfl <;> simp_all [Desc.fieldsLegal, Desc.selLegal, Desc.ofValue, Desc.empty]

/-- A word with its high byte clear is its low byte. -/
theorem zeroExtend_low_eq {w : Word} (h : w.extractLsb' 8 8 = 0) : (w.extractLsb' 0 8).zeroExtend 16 = w := by
  calc (w.extractLsb' 0 8).zeroExtend 16 = (0 : Byte) ++ w.extractLsb' 0 8 := BitVec.setWidth_eq_append (by decide)
    _ = w.extractLsb' 8 8 ++ w.extractLsb' 0 8 := by rw [h]
    _ = w := BitVec.extractLsb'_append_extractLsb'

/-- Of an 8-bit immediate they leave KIND and the low byte of VALUE (R105). -/
theorem Desc.ofValue_imm8_eq (hkind : Kind.ofCode d.kind = some .imm8) (hf : d.fieldsLegal = true)
    (hs : d.selLegal v = true) : Desc.ofValue .imm8 ((d.value.extractLsb' 0 8).zeroExtend 16) = d := by
  have hcode := Kind.code_of_ofCode hkind
  simp only [Desc.fieldsLegal, hkind, Bool.and_eq_true, beq_iff_eq] at hf
  rw [zeroExtend_low_eq hf.2]
  obtain ⟨kind, sel, offImm, off8, value⟩ := d
  simp_all [Desc.selLegal, Desc.ofValue, Desc.empty]

/-- Of a PseudoPointer they leave its base and its offset, in SEL or in OFF8 (R104, R105). -/
theorem Desc.ofPptr_eq {k : Kind} {f : Offset} (hkind : Kind.ofCode d.kind = some k) (hoff : d.offset? = some f)
    (hf : d.fieldsLegal = true) (hs : d.selLegal v = true) (hk : k = .pptr8 ∨ k = .pptr16) :
    Desc.ofPptr k d.value f = d := by
  have hcode := Kind.code_of_ofCode hkind
  obtain ⟨kind, sel, offImm, off8, value⟩ := d
  cases offImm with
  | true =>
    obtain rfl : Offset.imm off8 = f := by simpa [Desc.offset?] using hoff
    rcases hk with rfl | rfl <;> simp_all [Desc.selLegal, Desc.ofPptr, Desc.empty]
  | false =>
    obtain ⟨x, hx, rfl⟩ : ∃ x, Reg8.ofId sel = some x ∧ Offset.reg x = f := by simpa [Desc.offset?] using hoff
    have hid := Reg8.id_of_ofId hx
    rcases hk with rfl | rfl <;> simp_all [Desc.fieldsLegal, Desc.ofPptr, Desc.empty]

/-- The descriptor of the operand a legal descriptor resolves to is that descriptor. -/
theorem Desc.loc8?_desc {c : OperandClass} {o : Loc8} (h : d.loc8? = some o) (hd : d.Fits c v true) : o.desc = d := by
  obtain ⟨-, hf, hs⟩ := hd
  unfold Desc.loc8? at h
  split at h <;> rename_i hk
  · obtain ⟨x, hx, rfl⟩ := Option.map_eq_some_iff.1 h
    rw [Loc8.desc, Reg8.id_of_ofId hx]; exact Desc.ofSel_eq hk hf (by simp)
  · obtain ⟨x, hx, rfl⟩ := Option.map_eq_some_iff.1 h
    rw [Loc8.desc, Src16.id_of_ofId hx]; exact Desc.ofSel_eq hk hf (by simp)
  · obtain ⟨f, hoff, rfl⟩ := Option.map_eq_some_iff.1 h
    exact Desc.ofPptr_eq hk hoff hf hs (by simp)
  · obtain rfl := Option.some.inj h
    exact Desc.ofValue_eq hk hf hs (by simp)
  · exact nomatch h

theorem Desc.val8?_desc {c : OperandClass} {o : Val8} (h : d.val8? = some o) (hd : d.Fits c v true) : o.desc = d := by
  unfold Desc.val8? at h
  split at h
  · rename_i hk
    obtain ⟨-, hf, hs⟩ := hd
    obtain rfl := Option.some.inj h
    exact Desc.ofValue_imm8_eq hk hf hs
  · obtain ⟨l, hl, rfl⟩ := Option.map_eq_some_iff.1 h
    exact Desc.loc8?_desc hl hd

theorem Desc.loc16?_desc {c : OperandClass} {o : Loc16} (h : d.loc16? = some o) (hd : d.Fits c v true) :
    o.desc = d := by
  obtain ⟨-, hf, hs⟩ := hd
  unfold Desc.loc16? at h
  split at h <;> rename_i hk
  · obtain ⟨x, hx, rfl⟩ := Option.map_eq_some_iff.1 h
    rw [Loc16.desc, Reg16.id_of_ofId hx]; exact Desc.ofSel_eq hk hf (by simp)
  · obtain ⟨x, hx, rfl⟩ := Option.map_eq_some_iff.1 h
    rw [Loc16.desc, Pair.id_of_ofId hx]; exact Desc.ofSel_eq hk hf (by simp)
  · obtain ⟨f, hoff, rfl⟩ := Option.map_eq_some_iff.1 h
    exact Desc.ofPptr_eq hk hoff hf hs (by simp)
  · obtain rfl := Option.some.inj h
    exact Desc.ofValue_eq hk hf hs (by simp)
  · exact nomatch h

theorem Desc.val16?_desc {c : OperandClass} {o : Val16} (h : d.val16? = some o) (hd : d.Fits c v true) :
    o.desc = d := by
  unfold Desc.val16? at h
  split at h
  · rename_i hk
    obtain ⟨-, hf, hs⟩ := hd
    obtain rfl := Option.some.inj h
    exact Desc.ofValue_eq hk hf hs (by simp)
  · obtain ⟨l, hl, rfl⟩ := Option.map_eq_some_iff.1 h
    exact Desc.loc16?_desc hl hd

/-! ## From a word to its term and back -/

/-- A row of R109 with legal fields builds the term with that row and those fields. The cases are the operand shapes
of R109. -/
theorem Op.build_fields {o : Op} {aux : Byte} {dst src : Desc} {i : Instr} (h : o.build aux dst src = some i)
    (ha : o.auxLegal v aux = true) (hd : dst.Fits o.dstClass v true) (hs : src.Fits o.srcClass v true) :
    i.op = o ∧ i.aux = aux ∧ i.dstDesc = dst ∧ i.srcDesc = src := by
  have hzero : o.auxUse = .zero → 0 = aux := by
    intro hu
    rw [Op.auxLegal, hu] at ha
    exact (beq_iff_eq.1 ha).symm
  cases o <;> simp only [Op.build, Option.bind_eq_bind, Option.bind_eq_some_iff, Option.pure_def, Option.some.injEq] at h
  case nop | exx | neg | cpl | daa | scf | ccf | rlca | rrca | rla | rra =>
    subst h; exact ⟨rfl, hzero rfl, Desc.empty_eq hd, Desc.empty_eq hs⟩
  case inc8 | dec8 | rlc | rrc | rl | rr | sla | sra | srl | swap =>
    obtain ⟨a, hx, rfl⟩ := h; exact ⟨rfl, hzero rfl, Desc.loc8?_desc hx hd, Desc.empty_eq hs⟩
  case pop | inc16 | dec16 =>
    obtain ⟨a, hx, rfl⟩ := h; exact ⟨rfl, hzero rfl, Desc.loc16?_desc hx hd, Desc.empty_eq hs⟩
  case addspe | ldhlspe | djnz =>
    obtain ⟨b, hy, rfl⟩ := h; exact ⟨rfl, hzero rfl, Desc.empty_eq hd, Desc.val8?_desc hy hs⟩
  case push =>
    obtain ⟨b, hy, rfl⟩ := h; exact ⟨rfl, hzero rfl, Desc.empty_eq hd, Desc.val16?_desc hy hs⟩
  case ld8 | add8 | adc8 | sub8 | sbc8 | and8 | xor8 | or8 =>
    obtain ⟨a, hx, b, hy, rfl⟩ := h; exact ⟨rfl, hzero rfl, Desc.loc8?_desc hx hd, Desc.val8?_desc hy hs⟩
  case cp8 =>
    obtain ⟨a, hx, b, hy, rfl⟩ := h; exact ⟨rfl, hzero rfl, Desc.val8?_desc hx hd, Desc.val8?_desc hy hs⟩
  case ld16 | add16 | adc16 | sbc16 =>
    obtain ⟨a, hx, b, hy, rfl⟩ := h; exact ⟨rfl, hzero rfl, Desc.loc16?_desc hx hd, Desc.val16?_desc hy hs⟩
  case ex16 =>
    obtain ⟨a, hx, b, hy, rfl⟩ := h; exact ⟨rfl, hzero rfl, Desc.loc16?_desc hx hd, Desc.loc16?_desc hy hs⟩
  case bit =>
    obtain ⟨n, hn, b, hy, rfl⟩ := h; exact ⟨rfl, aux_of_bitIndex? hn, Desc.empty_eq hd, Desc.val8?_desc hy hs⟩
  case set | res =>
    obtain ⟨n, hn, a, hx, rfl⟩ := h; exact ⟨rfl, aux_of_bitIndex? hn, Desc.loc8?_desc hx hd, Desc.empty_eq hs⟩
  case jp | call =>
    obtain ⟨k, hk, b, hy, rfl⟩ := h; exact ⟨rfl, Cond.code_of_ofCode hk, Desc.empty_eq hd, Desc.val16?_desc hy hs⟩
  case jr =>
    obtain ⟨k, hk, b, hy, rfl⟩ := h; exact ⟨rfl, Cond.code_of_ofCode hk, Desc.empty_eq hd, Desc.val8?_desc hy hs⟩
  case ret =>
    obtain ⟨k, hk, rfl⟩ := h; exact ⟨rfl, Cond.code_of_ofCode hk, Desc.empty_eq hd, Desc.empty_eq hs⟩

/-- The fields of a word that decodes are those of the term it decodes to (R101, R102). -/
theorem decode_fields {w : Command} {i : Instr} (h : decode v w = .ok i) :
    i.op.code = (cwOf w).extractLsb' 0 8 ∧ i.aux = (cwOf w).extractLsb' 8 8 ∧
      i.dstDesc = Desc.ofBits (dstOf w) ∧ i.srcDesc = Desc.ofBits (srcOf w) := by
  obtain ⟨o, ho, -, hr, hb⟩ := decode_eq_ok h
  obtain ⟨-, ha, -, -, hdk, hsk, hds, hss, hdf, hsf⟩ := Op.refusal_eq_none hr
  obtain ⟨rfl, haux, hdst, hsrc⟩ := Op.build_fields hb ha ⟨hdk, hdf, hds⟩ ⟨hsk, hsf, hss⟩
  exact ⟨Op.code_of_ofCode ho, haux, hdst, hsrc⟩

/-- Every word that decodes is its term's encoding: its fields are the term's, and its reserved bits are 0. -/
theorem encode_decode {w : Command} {i : Instr} (h : decode v w = .ok i) : encode i = w := by
  obtain ⟨o, -, hz, hr, -⟩ := decode_eq_ok h
  obtain ⟨-, -, hrd, hrs, -⟩ := Op.refusal_eq_none hr
  obtain ⟨hop, haux, hdst, hsrc⟩ := decode_fields h
  rw [encode_eq, Instr.cw, hop, haux, hdst, hsrc, cw_eq hz, Desc.toBits_ofBits hrd, Desc.toBits_ofBits hrs,
    command_words]

/-- Settles O8: by the fields of the word, and the checks it has passed. -/
theorem encodeOfDecode : Obligations.EncodeOfDecode := fun _ _ _ h => ⟨encode_decode h, decode_wellFormed h⟩

end Sys2Proof
end

section
/-! PROOFS. What the decoder's checks say of a word's bits: no reserved encoding passes (spec/30_encoding.md R101 to R113). -/

namespace Sys2Proof

variable {v : Variant} {d : Desc}

/-! ## The numbers that exist on a variant (10_state.md R21 to R24, R104) -/

theorem Reg8.toNat_le_of_ofId {n : BitVec 5} (h : (Reg8.ofId n).any (·.inVariant v) = true) :
    n.toNat ≤ if v = .z80 then 17 else 7 := by
  obtain ⟨x, hx, hv⟩ := (Option.any_eq_true ..).1 h
  rw [← Reg8.id_of_ofId hx]
  revert hv; cases v <;> cases x <;> decide

theorem Reg16.toNat_bounds_of_ofId {n : BitVec 5} (h : (Reg16.ofId n).any (·.inVariant v) = true) :
    8 ≤ n.toNat ∧ n.toNat ≤ if v = .z80 then 11 else 9 := by
  obtain ⟨x, hx, hv⟩ := (Option.any_eq_true ..).1 h
  rw [← Reg16.id_of_ofId hx]
  revert hv; cases v <;> cases x <;> decide

theorem Pair.toNat_le_of_ofId {n : BitVec 5} (h : (Pair.ofId n).any (·.inVariant v) = true) :
    n.toNat ≤ if v = .z80 then 7 else 3 := by
  obtain ⟨p, hp, hv⟩ := (Option.any_eq_true ..).1 h
  rw [← Pair.id_of_ofId hp]
  revert hv; cases v <;> cases p <;> decide

/-- On the Game Boy the numbers of the absent pairs lie between those of its pairs and its Register16 cells. -/
theorem Src16.toNat_bounds_of_ofId {n : BitVec 5} (h : (Src16.ofId n).any (·.inVariant v) = true) :
    (n.toNat ≤ if v = .z80 then 11 else 9) ∧ (v = .gb → ¬(4 ≤ n.toNat ∧ n.toNat ≤ 7)) := by
  obtain ⟨s, hs, hv⟩ := (Option.any_eq_true ..).1 h
  rw [← Src16.id_of_ofId hs]
  rcases s with p | x
  · revert hv; cases v <;> cases p <;> decide
  · revert hv; cases v <;> cases x <;> decide

/-! ## SEL by KIND (R103, R104) -/

/-- KIND 11 to 15 fail the kind check of every operand class. -/
theorem Desc.kind_le_of_kindLegal {c : OperandClass} (h : d.kindLegal c = true) : d.kind.toNat ≤ 10 := by
  obtain ⟨k, hk, -⟩ := (Option.any_eq_true ..).1 h
  rw [← Kind.code_of_ofCode hk]
  cases k <;> decide

/-- What the SEL check says of SEL, by the rows of R104. -/
theorem Desc.sel_of_selLegal (h : d.selLegal v = true) :
    ((d.kind = 1 ∨ ((d.kind = 5 ∨ d.kind = 6) ∧ d.offImm = false)) → d.sel.toNat ≤ if v = .z80 then 17 else 7) ∧
    (d.kind = 2 → 8 ≤ d.sel.toNat ∧ d.sel.toNat ≤ if v = .z80 then 11 else 9) ∧
    (d.kind = 3 → d.sel.toNat ≤ if v = .z80 then 7 else 3) ∧
    (d.kind = 4 → (d.sel.toNat ≤ if v = .z80 then 11 else 9) ∧ (v = .gb → ¬(4 ≤ d.sel.toNat ∧ d.sel.toNat ≤ 7))) ∧
    ((d.kind = 0 ∨ d.kind = 7 ∨ d.kind = 8 ∨ d.kind = 9 ∨ d.kind = 10 ∨
      ((d.kind = 5 ∨ d.kind = 6) ∧ d.offImm = true)) → d.sel = 0) := by
  rw [Desc.selLegal] at h
  refine ⟨?_, fun hk => ?_, fun hk => ?_, fun hk => ?_, ?_⟩
  · rintro (hk | ⟨hk | hk, hoff⟩)
    · rw [hk] at h; exact Reg8.toNat_le_of_ofId h
    · rw [hk, hoff] at h; exact Reg8.toNat_le_of_ofId h
    · rw [hk, hoff] at h; exact Reg8.toNat_le_of_ofId h
  · rw [hk] at h; exact Reg16.toNat_bounds_of_ofId h
  · rw [hk] at h; exact Pair.toNat_le_of_ofId h
  · rw [hk] at h; exact Src16.toNat_bounds_of_ofId h
  · rintro (hk | hk | hk | hk | hk | ⟨hk | hk, hoff⟩)
    case inl | inr.inl | inr.inr.inl | inr.inr.inr.inl | inr.inr.inr.inr.inl => rw [hk] at h; exact beq_iff_eq.1 h
    · rw [hk, hoff] at h; exact beq_iff_eq.1 h
    · rw [hk, hoff] at h; exact beq_iff_eq.1 h

theorem reservedClear_iff {w : BitVec 64} :
    reservedClear w = true ↔ w.extractLsb' 10 6 = 0 ∧ w.extractLsb' 24 8 = 0 ∧ w.extractLsb' 48 16 = 0 := by
  simp only [reservedClear, Bool.and_eq_true, beq_iff_eq, and_assoc]

/-- NOP is the one term of its row (R109). -/
theorem Instr.op_eq_nop_iff {i : Instr} : i.op = .nop ↔ i = .nop := by cases i <;> simp [Instr.op]

/-- Settles O10: the op map's row is the term's, and each descriptor has passed its three checks. -/
theorem reservedEncodingsRefused : Obligations.ReservedEncodingsRefused := by
  intro v w i h
  obtain ⟨o, ho, hz, hr, hb⟩ := decode_eq_ok h
  obtain ⟨hv, ha, hrd, hrs, hdk, hsk, hds, hss, hdf, hsf⟩ := Op.refusal_eq_none hr
  obtain ⟨rfl, -, -, -⟩ := Op.build_fields hb ha ⟨hdk, hdf, hds⟩ ⟨hsk, hsf, hss⟩
  refine ⟨hz, ⟨i.op, List.mem_of_find?_eq_some ho, Op.code_of_ofCode ho, hv, ha, Instr.op_eq_nop_iff.1,
    Instr.op_eq_nop_iff.2⟩, fun d hd => ?_⟩
  obtain ⟨hclear, ⟨c, hkind⟩, hsel⟩ : reservedClear d = true ∧ (∃ c, (Desc.ofBits d).kindLegal c = true) ∧
      (Desc.ofBits d).selLegal v = true := by
    rcases hd with rfl | rfl
    · exact ⟨hrd, ⟨_, hdk⟩, hds⟩
    · exact ⟨hrs, ⟨_, hsk⟩, hss⟩
  obtain ⟨h10, h24, h48⟩ := reservedClear_iff.1 hclear
  exact ⟨h10, h24, h48, Desc.kind_le_of_kindLegal hkind, Desc.sel_of_selLegal hsel⟩

end Sys2Proof
end

section
/-! PROOFS. The fields of an encoded command as numbers (spec/30_encoding.md R101 to R109). -/

namespace Sys2Proof

theorem toNat_append_eq_add {m n : Nat} (x : BitVec m) (y : BitVec n) :
    (x ++ y).toNat = 2 ^ n * x.toNat + y.toNat := by
  rw [BitVec.toNat_append, ← Nat.shiftLeft_add_eq_or_of_lt y.isLt, Nat.shiftLeft_eq, Nat.mul_comm]

/-- A descriptor's 64 bits as a number: each field at its place (R102). -/
theorem Desc.toBits_eq_ofNat (d : Desc) :
    d.toBits = BitVec.ofNat 64
      (2 ^ 32 * d.value.toNat + 2 ^ 16 * d.off8.toNat + 2 ^ 9 * d.offImm.toNat + 16 * d.sel.toNat + d.kind.toNat) := by
  apply BitVec.eq_of_toNat_eq
  simp only [Desc.toBits, toNat_append_eq_add, BitVec.toNat_ofBool, BitVec.ofNat_eq_ofNat, BitVec.toNat_ofNat]
  have := d.offImm.toNat_le
  omega

/-! ## The encoder's forms of a descriptor -/

theorem Desc.ofSel_toBits (k : Kind) (sel : BitVec 5) :
    (Desc.ofSel k sel).toBits = BitVec.ofNat 64 (16 * sel.toNat + k.code.toNat) := by
  simp [Desc.toBits_eq_ofNat, Desc.ofSel, Desc.empty]

theorem Desc.ofValue_toBits (k : Kind) (value : Word) :
    (Desc.ofValue k value).toBits = BitVec.ofNat 64 (2 ^ 32 * value.toNat + k.code.toNat) := by
  simp [Desc.toBits_eq_ofNat, Desc.ofValue, Desc.empty]

theorem Desc.ofPptr_reg_toBits (k : Kind) (base : Word) (x : Reg8) :
    (Desc.ofPptr k base (.reg x)).toBits =
      BitVec.ofNat 64 (2 ^ 32 * base.toNat + 16 * x.id.toNat + k.code.toNat) := by
  simp [Desc.toBits_eq_ofNat, Desc.ofPptr, Desc.empty]

theorem Desc.ofPptr_imm_toBits (k : Kind) (base : Word) (o : Byte) :
    (Desc.ofPptr k base (.imm o)).toBits =
      BitVec.ofNat 64 (2 ^ 32 * base.toNat + 2 ^ 16 * o.toNat + 2 ^ 9 + k.code.toNat) := by
  simp [Desc.toBits_eq_ofNat, Desc.ofPptr, Desc.empty]

theorem Val8.imm_toBits (u : Byte) : (Val8.imm u).desc.toBits = BitVec.ofNat 64 (2 ^ 32 * u.toNat + 9) := by
  have hu : (u.zeroExtend 16).toNat = u.toNat := BitVec.toNat_setWidth_of_le (by decide)
  rw [Val8.desc, Desc.ofValue_toBits, hu]; rfl

/-! ## The control word -/

theorem encode_op (i : Instr) : (cwOf (encode i)).extractLsb' 0 8 = i.op.code := by
  rw [encode_eq, cwOf_command, cw_op]

theorem encode_aux (i : Instr) : (cwOf (encode i)).extractLsb' 8 8 = i.aux := by
  rw [encode_eq, cwOf_command, cw_aux]

/-- Rows that take neither a bit index nor a condition have AUX 0 (R107). -/
theorem Instr.aux_eq_zero {i : Instr} (h : i.op ∉ [Op.bit, .set, .res, .jp, .jr, .call, .ret]) : i.aux = 0 := by
  cases i
  case bit | set | res | jp | jr | call | ret => simp [Instr.op] at h
  all_goals rfl

/-- A function that agrees with a table at each of its rows. -/
theorem eq_of_mem_table {α β : Type} {f : α → β} {l : List (α × β)} {a : α} {b : β} (h : (a, b) ∈ l)
    (hl : ∀ r ∈ l, f r.1 = r.2) : f a = b := hl _ h

/-- Settles O11: the control word's fields, and the encoder's descriptors by the numbers of the registers. -/
theorem commandFields : Obligations.CommandFields := by
  refine ⟨fun i => ?_, fun i o n ho hn => ?_, fun b v d i hi => ?_, fun k n v w hn i hi => ?_, fun i hi => ?_,
    fun x n hn => ?_, fun y n hn => ?_, fun p n hn => ?_, fun b m v o u => ?_⟩
  · rw [encode_eq, cwOf_command, dstOf_command, srcOf_command]
    exact ⟨cw_reserved i, rfl, rfl⟩
  · rw [encode_op, ho]
    exact eq_of_mem_table hn (by decide)
  · have haux : i.aux = BitVec.ofNat 8 b.val := by
      simp only [List.mem_cons, List.not_mem_nil, or_false] at hi
      rcases hi with rfl | rfl | rfl <;> rfl
    rw [encode_aux, haux, BitVec.toNat_ofNat]
    omega
  · have haux : i.aux = k.code := by
      simp only [List.mem_cons, List.not_mem_nil, or_false] at hi
      rcases hi with rfl | rfl | rfl | rfl <;> rfl
    rw [encode_aux, haux]
    exact eq_of_mem_table hn (by decide)
  · rw [encode_aux, Instr.aux_eq_zero hi]
  · obtain rfl : x.id.toNat = n := eq_of_mem_table (f := fun x => x.id.toNat) hn (by decide)
    exact ⟨Desc.ofSel_toBits .reg8 x.id, fun b => ⟨Desc.ofPptr_reg_toBits .pptr8 b x, Desc.ofPptr_reg_toBits .pptr16 b x⟩⟩
  · obtain rfl : y.id.toNat = n := eq_of_mem_table (f := fun y => y.id.toNat) hn (by decide)
    exact ⟨Desc.ofSel_toBits .reg16 y.id, Desc.ofSel_toBits .ptr y.id⟩
  · obtain rfl : p.id.toNat = n := eq_of_mem_table (f := fun p => p.id.toNat) hn (by decide)
    exact ⟨Desc.ofSel_toBits .pair p.id, Desc.ofSel_toBits .ptr p.id⟩
  · exact ⟨Desc.ofPptr_imm_toBits .pptr8 b o, Desc.ofPptr_imm_toBits .pptr16 b o, Desc.ofValue_toBits .mem8 m,
      Desc.ofValue_toBits .mem16 m, Val8.imm_toBits u, Desc.ofValue_toBits .imm16 v⟩

/-- Settles O12: six closed words, run through the decoder. -/
theorem writtenWordsDecode : Obligations.WrittenWordsDecode := by
  unfold Obligations.WrittenWordsDecode
  decide

end Sys2Proof
end

section
/-! PROOFS. A step with a command waiting decodes it first (spec/30_encoding.md R111, R112, R114). -/

namespace Sys2Proof.Machine

variable {s : State} {bits : Command} {rest : List Input}

/-- A waiting command is taken from the queue and issued. -/
theorem step_command (h : s.inputs = .command bits :: rest) :
    step s = issueCommand exec bits { s with inputs := rest } := by
  rw [step, takeInput, h]; rfl

theorem issueCommand_ok {run : Instr → State → Host.Outcome State Fault Refusal} {i : Instr}
    (h : decode s.cfg.variant bits = .ok i) : issueCommand run bits s = run i { s with command := bits } := by
  rw [issueCommand, h]

theorem issueCommand_error {run : Instr → State → Host.Outcome State Fault Refusal} {c : Check}
    (h : decode s.cfg.variant bits = .error c) : issueCommand run bits s =
      .next (({ s with command := bits } : State).takeError (.illegalCommand bits c) bits) := by
  rw [issueCommand, h]

/-- Settles O13: the refused command is issued, and taking its error is all that follows. -/
theorem illegalCommandHasNoOtherEffect : Obligations.IllegalCommandHasNoOtherEffect := by
  intro s bits rest c hin hdec
  exact (step_command hin).trans (issueCommand_error hdec)

/-- Settles O14: the waiting command is issued; `withFetchWord` makes its word the one that waits. -/
theorem stepRunsDecodedCommand : Obligations.StepRunsDecodedCommand := by
  refine ⟨fun s bits rest i hin hdec => ?_, fun s nbits w i hdec => ?_⟩
  · exact (step_command hin).trans (issueCommand_ok hdec)
  · have hin : (s.withFetchWord nbits w).inputs = .command (commandOfTable nbits w) :: s.inputs := rfl
    exact (step_command hin).trans (issueCommand_ok hdec)

end Sys2Proof.Machine
end

section
/-! PROOFS. The flag-condition library and the shift primitives as arithmetic (spec/40_flag_library.md R142 to R158). -/

namespace Sys2Proof.Machine

theorem bit_le_one (c : Bool) : bit c ≤ 1 := by cases c <;> decide

theorem mul_bit_decide (n : Nat) (p : Prop) [Decidable p] : n * bit (decide p) = if p then n else 0 := by
  simp [bit]

@[simp] theorem lowNibble_eq_mod (v : Byte) : lowNibble v = v.toNat % 16 := by
  rw [lowNibble, BitVec.toNat_and]
  exact Nat.and_two_pow_sub_one_eq_mod v.toNat 4

section Width

variable {w : Nat} (a b : BitVec w) (c : Bool)

/-! ## Carry and borrow: the bit beyond the width (R149, R150, R153, R154) -/

/-- An exact sum is its low `w` bits and the carry out of them. -/
theorem toNat_add_carry : a.toNat + b.toNat + bit c =
    2 ^ w * bit (decide (2 ^ w ≤ a.toNat + b.toNat + bit c)) + (a + b + BitVec.ofNat w (bit c)).toNat := by
  have hsum : (a + b + BitVec.ofNat w (bit c)).toNat = (a.toNat + b.toNat + bit c) % 2 ^ w := by
    simp [BitVec.toNat_add]
  have ha := a.isLt
  have hb := b.isLt
  have hc := bit_le_one c
  rw [hsum, mul_bit_decide]
  split
  next h => rw [Nat.mod_eq_sub_mod h, Nat.mod_eq_of_lt (by omega)]; omega
  next h => rw [Nat.mod_eq_of_lt (by omega)]; omega

/-- The difference and what was subtracted sum to the minuend, with a carry exactly where there was a borrow. -/
theorem toNat_sub_borrow : a.toNat + 2 ^ w * bit (decide (a.toNat < b.toNat + bit c)) =
    b.toNat + bit c + (a - b - BitVec.ofNat w (bit c)).toNat := by
  have hback : a - b - BitVec.ofNat w (bit c) + b + BitVec.ofNat w (bit c) = a := by
    rw [BitVec.add_assoc, BitVec.add_comm b, ← BitVec.add_assoc, BitVec.sub_add_cancel, BitVec.sub_add_cancel]
  have hsum := toNat_add_carry (a - b - BitVec.ofNat w (bit c)) b c
  have hr := (a - b - BitVec.ofNat w (bit c)).isLt
  rw [hback, mul_bit_decide] at hsum
  rw [mul_bit_decide]
  split at hsum <;> split <;> omega

/-! ## Overflow: the signed result does not fit (R143, R144, R154) -/

theorem toInt_add_bit : (a + b + BitVec.ofNat w (bit c)).toInt = (a.toInt + b.toInt + bit c).bmod (2 ^ w) := by
  simp [BitVec.toInt_add, BitVec.toInt_ofNat']

theorem toInt_sub_bit : (a - b - BitVec.ofNat w (bit c)).toInt = (a.toInt - b.toInt - bit c).bmod (2 ^ w) := by
  simp [BitVec.toInt_sub, BitVec.toInt_ofNat']

/-- A number less than `m` away from 0 is moved by at most one `m` when it is brought into the signed range. -/
theorem bmod_eq_or {x : Int} {m : Nat} (hlo : -m ≤ x) (hhi : x < m) :
    x.bmod m = x ∨ x.bmod m = x + m ∨ x.bmod m = x - m := by
  have hmod : x % m = x ∨ x % m = x + m := by
    rcases le_or_gt 0 x with h0 | h0
    · exact .inl (Int.emod_eq_of_lt h0 hhi)
    · exact .inr (by rw [← Int.add_emod_right, Int.emod_eq_of_lt] <;> omega)
  rw [Int.bmod_def]
  split <;> omega

/-- At a positive width the signed range is half the numbers. -/
theorem two_pow_eq_two_mul (hw : 0 < w) : (2 : Int) ^ w = 2 * 2 ^ (w - 1) := by
  rw [← pow_succ', Nat.sub_add_cancel hw]

/-- A signed sum is off exactly where its operands have one sign and its result the other. -/
theorem toInt_add_ne_iff (hw : 0 < w) {r : BitVec w} (hr : r = a + b + BitVec.ofNat w (bit c)) :
    r.toInt ≠ a.toInt + b.toInt + bit c ↔
      (a.toInt < 0 ∧ b.toInt < 0 ∧ ¬ r.toInt < 0) ∨ (¬ a.toInt < 0 ∧ ¬ b.toInt < 0 ∧ r.toInt < 0) := by
  have hpow := two_pow_eq_two_mul hw
  have ha := And.intro a.le_toInt a.toInt_lt
  have hb := And.intro b.le_toInt b.toInt_lt
  have hrange := And.intro r.le_toInt r.toInt_lt
  have hc := bit_le_one c
  have hwrap := bmod_eq_or (x := a.toInt + b.toInt + bit c) (m := 2 ^ w) (by push_cast; omega) (by push_cast; omega)
  rw [← toInt_add_bit, ← hr] at hwrap
  push_cast at hwrap
  omega

/-- A signed difference is off exactly where its operands differ in sign and its result has the second's. -/
theorem toInt_sub_ne_iff (hw : 0 < w) {r : BitVec w} (hr : r = a - b - BitVec.ofNat w (bit c)) :
    r.toInt ≠ a.toInt - b.toInt - bit c ↔
      (a.toInt < 0 ∧ ¬ b.toInt < 0 ∧ ¬ r.toInt < 0) ∨ (¬ a.toInt < 0 ∧ b.toInt < 0 ∧ r.toInt < 0) := by
  have hpow := two_pow_eq_two_mul hw
  have ha := And.intro a.le_toInt a.toInt_lt
  have hb := And.intro b.le_toInt b.toInt_lt
  have hrange := And.intro r.le_toInt r.toInt_lt
  have hc := bit_le_one c
  have hwrap := bmod_eq_or (x := a.toInt - b.toInt - bit c) (m := 2 ^ w) (by push_cast; omega) (by push_cast; omega)
  rw [← toInt_sub_bit, ← hr] at hwrap
  push_cast at hwrap
  omega

end Width

theorem isNegative8_eq (v : Byte) : isNegative8 v = decide (v.toInt < 0) :=
  (BitVec.msb_eq_getLsbD_last v).symm.trans BitVec.msb_eq_toInt

theorem isNegative16_eq (v : Word) : isNegative16 v = decide (v.toInt < 0) :=
  (BitVec.msb_eq_getLsbD_last v).symm.trans BitVec.msb_eq_toInt

theorem addOverflow_iff (a b r : Byte) : addOverflow a b r = true ↔
    (a.toInt < 0 ∧ b.toInt < 0 ∧ ¬ r.toInt < 0) ∨ (¬ a.toInt < 0 ∧ ¬ b.toInt < 0 ∧ r.toInt < 0) := by
  simp [addOverflow, isNegative8_eq, and_assoc]

theorem subOverflow_iff (a b r : Byte) : subOverflow a b r = true ↔
    (a.toInt < 0 ∧ ¬ b.toInt < 0 ∧ ¬ r.toInt < 0) ∨ (¬ a.toInt < 0 ∧ b.toInt < 0 ∧ r.toInt < 0) := by
  simp [subOverflow, isNegative8_eq, and_assoc]

theorem addOverflow16_iff (a b r : Word) : addOverflow16 a b r = true ↔
    (a.toInt < 0 ∧ b.toInt < 0 ∧ ¬ r.toInt < 0) ∨ (¬ a.toInt < 0 ∧ ¬ b.toInt < 0 ∧ r.toInt < 0) := by
  simp [addOverflow16, isNegative16_eq, and_assoc]

theorem subOverflow16_iff (a b r : Word) : subOverflow16 a b r = true ↔
    (a.toInt < 0 ∧ ¬ b.toInt < 0 ∧ ¬ r.toInt < 0) ∨ (¬ a.toInt < 0 ∧ b.toInt < 0 ∧ r.toInt < 0) := by
  simp [subOverflow16, isNegative16_eq, and_assoc]

/-- Settles O27: the facts of every width at 8 and at 16 bits; a carry-in of 0 adds nothing. -/
theorem carryAndOverflowAreArithmetic : Obligations.CarryAndOverflowAreArithmetic := by
  refine ⟨fun a b c => ⟨?_, ?_, toNat_add_carry a b c, toNat_sub_borrow a b c⟩, fun a b => ⟨rfl, rfl, rfl, ?_, ?_⟩,
    fun h a b => ⟨rfl, rfl⟩, fun a b c => ⟨?_, ?_, toNat_add_carry a b c, toNat_sub_borrow a b c⟩⟩
  · rw [addOverflow_iff, toInt_add_ne_iff a b c (by decide) rfl]
  · rw [subOverflow_iff, toInt_sub_ne_iff a b c (by decide) rfl]
  · rw [addHalfCarry8, lowNibble_eq_mod, lowNibble_eq_mod]
  · rw [subHalfBorrow, lowNibble_eq_mod, lowNibble_eq_mod]
  · rw [addOverflow16_iff, toInt_add_ne_iff a b c (by decide) rfl]
  · rw [subOverflow16_iff, toInt_sub_ne_iff a b c (by decide) rfl]

/-! ## Parity and the half-carry's two forms (R142, R146) -/

theorem setBits_eq_countP (v : Byte) : setBits v = (List.range 8).countP (fun n => v.toNat / 2 ^ n % 2 = 1) := by
  have hbit (n : Nat) : bit (v.getLsbD n) = if v.toNat / 2 ^ n % 2 = 1 then 1 else 0 := by
    rw [show v.getLsbD n = _ from flagRead_eq_decide v n, bit]; simp
  simp only [setBits, hbit, List.range_succ, List.range_zero, List.nil_append, List.countP_append,
    List.countP_singleton, decide_eq_true_eq]

/-- The carry-in `Or` puts in has no weight in the nibble's carry (R146). -/
theorem or_bit_ge_iff (n : Nat) (c : Bool) : n ||| bit c ≥ 16 ↔ n ≥ 16 := by
  refine ⟨fun h => ?_, fun h => le_trans h Nat.left_le_or⟩
  by_contra hn
  have hc := bit_le_one c
  have hor : n ||| bit c < 2 ^ 4 := Nat.or_lt_two_pow (by omega) (by omega)
  omega

theorem addHalfCarry8c_or (a b : Byte) (c : Bool) : addHalfCarry8c .or a b c = addHalfCarry8 a b := by
  simp only [addHalfCarry8c, addHalfCarry8, or_bit_ge_iff]

theorem addHalfCarry8c_add (a b : Byte) (c : Bool) :
    addHalfCarry8c .add a b c = decide (a.toNat % 16 + b.toNat % 16 + bit c ≥ 16) := by
  simp only [addHalfCarry8c, lowNibble_eq_mod]

/-- Settles O28: only a carry-in of 1 at the sum 15 reaches 16 in one form and not in the other. -/
theorem parityAndHalfCarryCombine : Obligations.ParityAndHalfCarryCombine := by
  refine ⟨fun v => ?_, fun a b c => ⟨addHalfCarry8c_or a b c, addHalfCarry8c_add a b c, ?_⟩⟩
  · rw [parity, setBits_eq_countP]; rfl
  · rw [addHalfCarry8c_or, addHalfCarry8c_add, addHalfCarry8, lowNibble_eq_mod, lowNibble_eq_mod, ne_eq,
      decide_eq_decide]
    cases c with
    | false => simp [bit]
    | true => simp [bit]; omega

/-! ## Shifts and rotates (R155 to R158) -/

theorem shiftLeft_toNat (x : Byte) : (shiftLeft x).toNat = x.toNat * 2 % 256 := by
  rw [shiftLeft, BitVec.toNat_shiftLeft, Nat.shiftLeft_eq]

theorem logicalShiftRight_toNat (x : Byte) : (logicalShiftRight x).toNat = x.toNat / 2 := by
  rw [logicalShiftRight, BitVec.toNat_ushiftRight, Nat.shiftRight_eq_div_pow]

/-- R157 is the library's shift that copies the sign. -/
theorem arithmeticShiftRight_eq (x : Byte) : arithmeticShiftRight x = x.sshiftRight 1 := by
  apply BitVec.eq_of_getLsbD_eq
  intro i hi
  simp only [arithmeticShiftRight, BitVec.getLsbD_or, BitVec.getLsbD_ushiftRight, BitVec.getLsbD_and,
    BitVec.getLsbD_sshiftRight, BitVec.msb_eq_getLsbD_last]
  interval_cases i <;> simp

theorem arithmeticShiftRight_toInt (x : Byte) : (arithmeticShiftRight x).toInt = x.toInt / 2 := by
  rw [arithmeticShiftRight_eq, BitVec.toInt_sshiftRight, Int.shiftRight_eq_div_pow]; rfl

/-- The bit shifted out comes in at bit 0, which the shift has left clear. -/
theorem rotateLeft_toNat (x : Byte) : (rotateLeft x).toNat = x.toNat * 2 % 256 + x.toNat / 128 := by
  have hx := x.isLt
  have hbit : x.toNat / 128 < 2 ^ 1 := by omega
  have hshift : x.toNat * 2 % 256 = 2 ^ 1 * (x.toNat % 128) := by omega
  rw [rotateLeft, BitVec.toNat_or, BitVec.toNat_shiftLeft, BitVec.toNat_ushiftRight, Nat.shiftLeft_eq,
    Nat.shiftRight_eq_div_pow]
  show x.toNat * 2 % 256 ||| x.toNat / 128 = _
  rw [hshift, Nat.two_pow_add_eq_or_of_lt hbit]

/-- The bit shifted out comes in at bit 7. -/
theorem rotateRight_toNat (x : Byte) : (rotateRight x).toNat = x.toNat / 2 + x.toNat % 2 * 128 := by
  have hx := x.isLt
  have hlow : (x &&& 1).toNat = x.toNat % 2 := by
    rw [BitVec.toNat_and]; exact Nat.and_two_pow_sub_one_eq_mod x.toNat 1
  have hshift : x.toNat / 2 < 2 ^ 7 := by omega
  have hbit : x.toNat % 2 * 128 % 256 = 2 ^ 7 * (x.toNat % 2) := by omega
  rw [rotateRight, BitVec.toNat_or, BitVec.toNat_shiftLeft, BitVec.toNat_ushiftRight, Nat.shiftLeft_eq,
    Nat.shiftRight_eq_div_pow, hlow]
  show x.toNat / 2 ||| x.toNat % 2 * 128 % 256 = _
  rw [hbit, Nat.lor_comm, ← Nat.two_pow_add_eq_or_of_lt hshift, Nat.add_comm, Nat.mul_comm]

theorem rotateRight_rotateLeft (x : Byte) : rotateRight (rotateLeft x) = x := by
  apply BitVec.eq_of_toNat_eq
  have hx := x.isLt
  have hhalf : (x.toNat * 2 % 256 + x.toNat / 128) / 2 = x.toNat % 128 := by omega
  have hlow : (x.toNat * 2 % 256 + x.toNat / 128) % 2 = x.toNat / 128 := by omega
  rw [rotateRight_toNat, rotateLeft_toNat, hhalf, hlow]
  omega

theorem rotateLeft_rotateRight (x : Byte) : rotateLeft (rotateRight x) = x := by
  apply BitVec.eq_of_toNat_eq
  have hx := x.isLt
  have hdouble : (x.toNat / 2 + x.toNat % 2 * 128) * 2 % 256 = x.toNat / 2 * 2 := by omega
  have hhigh : (x.toNat / 2 + x.toNat % 2 * 128) / 128 = x.toNat % 2 := by omega
  rw [rotateLeft_toNat, rotateRight_toNat, hdouble, hhigh]
  omega

/-- Settles O29: the primitives' numbers, and the rotates undone as numbers. -/
theorem shiftsAndRotates : Obligations.ShiftsAndRotates := fun x =>
  ⟨shiftLeft_toNat x, logicalShiftRight_toNat x, arithmeticShiftRight_toInt x, rotateLeft_toNat x,
    rotateRight_toNat x, rotateRight_rotateLeft x, rotateLeft_rotateRight x⟩

end Sys2Proof.Machine
end

section
/-! PROOFS. Frames: what a command leaves unchanged, completed or ended by an error (spec/40_flag_library.md R160,
60_exceptions.md R305, R306), read off what its parts stay within. -/

namespace Sys2Proof.Machine

variable {s t : State} {i : Instr} {m : M Unit} {w8 : Reg8 → Bool} {w16 : Reg16 → Bool} {ks : Nat → Prop}

/-! ## The end of a command (R305, R306) -/

/-- The end of a command adds one output, and after an error the fault record; the rest is as its parts left it. -/
theorem runCommand_next (h : runCommand m s = .next t) : ∃ o r,
    t = { M.final m s with outputs := o :: (M.final m s).outputs, faultRecord := r } ∧
    ((∃ n, o = .cycles n) ∧ r = (M.final m s).faultRecord ∨
      ∃ e, o = .error e ∧ r = some { error := e, command := (M.final m s).command }) := by
  rcases runCommand_final m s with h' | ⟨e, h'⟩ <;> rw [h'] at h <;> cases h
  · exact ⟨_, _, rfl, .inl ⟨⟨_, rfl⟩, rfl⟩⟩
  · exact ⟨_, _, rfl, .inr ⟨e, rfl, rfl⟩⟩

/-- Everything that is no register and no flat memory follows from what the parts stay within. -/
theorem Within.restFramed (hw : Within w8 w16 ks s (M.final m s)) (h : runCommand m s = .next t) : s.RestFramed t := by
  obtain ⟨o, r, rfl, hend⟩ := runCommand_next h
  rw [hw.faultRecord, hw.command] at hend
  exact ⟨hw.cfg, hw.inputs, hw.command, hw.busLog, hw.draws, o, congrArg _ hw.outputs, hend⟩

theorem Within.registersFramed (hw : Within i.mayWrite8 i.mayWrite16 ks s (M.final m s))
    (h : runCommand m s = .next t) : s.RegistersFramed t i := by
  obtain ⟨o, r, rfl, -⟩ := runCommand_next h
  exact ⟨hw.regs8, hw.regs16⟩

/-- A byte read through the bus is the byte behind its address: what a store leaves of the keys it leaves of the bus
(R61, R65). -/
theorem memoryFramed_of_read {ks : List Nat} (hcfg : t.cfg = s.cfg)
    (hmem : ∀ k, k ∉ ks → Memory.read t.mem k = Memory.read s.mem k) : s.MemoryFramed t ks := by
  refine ⟨hmem, fun a ha => ?_⟩
  rw [byteAt_eq hcfg, byteAt_eq rfl]
  cases hk : s.storeKey a with
  | none => rfl
  | some k => exact hmem k fun hin => ha k hin hk

theorem Within.memoryFramed {ks : List Nat} (hw : Within w8 w16 (fun k => k ∈ ks) s (M.final m s))
    (h : runCommand m s = .next t) : s.MemoryFramed t ks := by
  obtain ⟨o, r, rfl, -⟩ := runCommand_next h
  exact memoryFramed_of_read hw.cfg hw.mem

/-! ## The frames -/

/-- The frame of every instruction but EX16. -/
theorem exec_frame (hi : i.op ≠ .ex16) (h : exec i s = .next t) :
    s.RegistersFramed t i ∧ s.MemoryFramed t (s.keysOf (i.stores s)) ∧ s.RestFramed t := by
  obtain ⟨m, hm, hw⟩ := exec_framed i s fun _ _ he => hi (congrArg Instr.op he)
  rw [hm] at h
  exact ⟨hw.registersFramed h, hw.memoryFramed h, hw.restFramed h⟩

/-- Settles O54: EX16 is none of these rows. -/
theorem frameOfTransfers : Obligations.FrameOfTransfers := fun _ _ _ hi =>
  exec_frame (ne_of_mem_of_not_mem hi (by decide))

/-- Settles O56: EX16 is none of these rows. -/
theorem frameOf8BitOperations : Obligations.FrameOf8BitOperations := fun _ _ _ hi =>
  exec_frame (ne_of_mem_of_not_mem hi (by decide))

/-- Settles O57: EX16 is none of these rows. -/
theorem frameOf16BitOperations : Obligations.FrameOf16BitOperations := fun _ _ _ hi =>
  exec_frame (ne_of_mem_of_not_mem hi (by decide))

/-- Settles O58: EX16 is none of these rows. -/
theorem frameOfControlTransfer : Obligations.FrameOfControlTransfer := fun _ _ _ hi =>
  exec_frame (ne_of_mem_of_not_mem hi (by decide))

/-- The flat memory after EX16, for any keys that hold DST's and, where the second write is reached, those SRC has then
(41_transfer.md R185). -/
theorem ex16_memoryFramed {d e : Loc16} {ks : List Nat} (h : exec (.ex16 d e) s = .next t)
    (hd : ∀ k ∈ s.keysOf (s.stores16 d), k ∈ ks)
    (he : ∀ va vb s1 s2 s3, readLoc16 d s = .ok va s1 → readLoc16 e s1 = .ok vb s2 → writeLoc16 d vb s2 = .ok () s3 →
      ∀ k ∈ s.keysOf (s3.stores16 e), k ∈ ks) : s.MemoryFramed t ks := by
  obtain ⟨m, hm, hw⟩ := ex16_within d e s (fun k => k ∈ ks) hd he
  rw [hm] at h
  exact hw.memoryFramed h

theorem keysOf_append (s : State) (as bs : List Addr) : s.keysOf (as ++ bs) = s.keysOf as ++ s.keysOf bs :=
  List.filterMap_append

/-- Settles O55: the second store goes to SRC's address in the state the first write reached, if it was reached. -/
theorem frameOfExchange : Obligations.FrameOfExchange := by
  intro d e s t h
  obtain ⟨m, hm, hw⟩ := exec_within (.ex16 d e) s
  refine ⟨hw.registersFramed (hm ▸ h), hw.restFramed (hm ▸ h), fun va vb s1 s2 s3 h1 h2 h3 => ?_, fun hnone => ?_⟩
  · rw [keysOf_append]
    refine ex16_memoryFramed h (fun k => List.mem_append_left _) fun va' vb' s1' s2' s3' h1' h2' h3' k hk => ?_
    cases h1.symm.trans h1'
    cases h2.symm.trans h2'
    cases h3.symm.trans h3'
    exact List.mem_append_right _ hk
  · exact ex16_memoryFramed h (fun _ hk => hk) fun va vb s1 s2 s3 h1 h2 h3 => absurd h3 (hnone va vb s1 s2 s3 h1 h2)

end Sys2Proof.Machine
end

section
/-! PROOFS. What a command leaves of F when F is no destination: the flags its rule does not list, and the bits that are
no flag (spec/40_flag_library.md R163 to R165, 10_state.md R33, R34). -/

namespace Sys2Proof.Machine

variable {q : Variant → Flag → Bool} {s t u : State} {w8 : Reg8 → Bool} {w16 : Reg16 → Bool} {ks : Nat → Prop}

/-! ## One relation for the parts of a command -/

/-- The machine stores the bits of F that are no flag as they are: the Z80 under `Preserve` (R33), the Game Boy without
`GB_F_LOW_MASK` (R34). -/
def KeepsPlainBits (cfg : Config) : Prop :=
  (cfg.variant = .z80 → cfg.xyPolicy = .preserve) ∧ (cfg.variant = .gb → cfg.gbFLowMask = false)

/-- From `s` to `t` no flag outside `q` changes, nor a bit of F that is no flag where the machine keeps those. -/
structure FlagsKept (q : Variant → Flag → Bool) (s t : State) : Prop where
  cfg : t.cfg = s.cfg
  flags : ∀ f, q s.cfg.variant f = false → t.flag f = s.flag f
  plain : KeepsPlainBits s.cfg → t.reg8 .f &&& plainBits s.cfg.variant = s.reg8 .f &&& plainBits s.cfg.variant

theorem FlagsKept.refl (q : Variant → Flag → Bool) (s : State) : FlagsKept q s s :=
  ⟨rfl, fun _ _ => rfl, fun _ => rfl⟩

theorem FlagsKept.trans (h : FlagsKept q s t) (g : FlagsKept q t u) : FlagsKept q s u where
  cfg := g.cfg.trans h.cfg
  flags f hf := (g.flags f (by rwa [h.cfg])).trans (h.flags f hf)
  plain hp := by
    have hg := g.plain
    rw [h.cfg] at hg
    exact (hg hp).trans (h.plain hp)

theorem FlagsKept.bind {α β : Type} {m : M α} {f : α → M β} (hm : FlagsKept q s (M.final m s))
    (hf : ∀ a t, m s = .ok a t → FlagsKept q t (M.final (f a) t)) : FlagsKept q s (M.final (m >>= f) s) :=
  M.final_bind (R := FlagsKept q) FlagsKept.trans hm hf

/-- Where the cell of F does not change nothing of it does. -/
theorem FlagsKept.of_get (hcfg : t.cfg = s.cfg) (hF : t.regs8.get .f = s.regs8.get .f) : FlagsKept q s t where
  cfg := hcfg
  flags f _ := by rw [State.flag, State.flag, State.reg8, State.reg8, hcfg, hF]
  plain _ := by rw [State.reg8, State.reg8, hF]

/-- A part that may not write F keeps all of it. -/
theorem Within.flagsKept (h : Within w8 w16 ks s t) (hf : w8 .f = false) : FlagsKept q s t :=
  .of_get h.cfg (h.regs8 .f hf)

/-! ## The flag phase -/

/-- The flags that an update declares for a variant are in `q`. -/
def Covers (q : Variant → Flag → Bool) (z80 gb : FlagUpdate) : Prop :=
  ∀ f, (q .z80 f = false → z80.get f = none) ∧ (q .gb f = false → gb.get f = none)

theorem Covers.of_all {z80 gb : FlagUpdate} (hq : ∀ v f, q v f = true) : Covers q z80 gb := fun f =>
  ⟨fun h => by simp [hq] at h, fun h => by simp [hq] at h⟩

theorem stored8_of_keepsPlainBits {cfg : Config} (h : KeepsPlainBits cfg) (v : Byte) : stored8 cfg .f v = v := by
  rw [stored8_eq, if_neg]
  rintro ⟨-, hg, hmask⟩
  rw [h.2 hg] at hmask
  cases hmask

/-- A flag the variant lacks reads false in every state (30_encoding.md R107). -/
theorem flag_of_absent {f : Flag} (h : ¬ (flagBit s.cfg.variant f).isSome = true) : s.flag f = false := by
  rw [Bool.not_eq_true, Option.isSome_eq_false_iff, Option.isNone_iff_eq_none] at h
  rw [State.flag, flagOf, h]

/-- The views' writes keep every flag the update does not declare, and the bits that are no flag (R30, R164). -/
theorem writeFlagSet_flagsKept {w : FlagUpdate} (hw : ∀ f, q s.cfg.variant f = false → w.get f = none) :
    FlagsKept q s (M.final (writeFlagSet w) s) := by
  by_cases hempty : w = {}
  · rw [writeFlagSet, if_pos hempty]; exact FlagsKept.refl ..
  cases hF : s.written8 .f with
  | false => rw [M.final_error (writeFlagSet_unwritten hF hempty)]; exact FlagsKept.refl ..
  | true =>
    obtain ⟨t, ht, heq, -, hflag, hplain⟩ := writeFlagSet_ok hF hempty
    have hcfg : t.cfg = s.cfg := by rw [heq]
    rw [M.final_ok ht]
    refine ⟨hcfg, fun f hf => ?_, fun hp => ?_⟩
    · by_cases hbit : (flagBit s.cfg.variant f).isSome = true
      · rw [hflag f hbit, hw f hf]; rfl
      · rw [flag_of_absent hbit, flag_of_absent (hcfg ▸ hbit)]
    · rw [(hplain fun hd => by simp [hp.1 hd.1] at hd).1, stored8_of_keepsPlainBits hp]

theorem writeFlags_flagsKept {z80 gb : FlagUpdate} (hc : Covers q z80 gb) :
    FlagsKept q s (M.final (writeFlags z80 gb) s) := by
  simp only [writeFlags, M.final_getState_bind]
  split
  next hv => exact writeFlagSet_flagsKept fun f hf => (hc f).1 (hv ▸ hf)
  next hv => exact writeFlagSet_flagsKept fun f hf => (hc f).2 (hv ▸ hf)

/-! ## The shapes -/

section Shapes8

variable {d : Loc8} {v : Val8} (hd : d.isReg8 .f = false)
include hd

theorem writeLoc8_flagsKept (b : Byte) : FlagsKept q s (M.final (writeLoc8 d b) s) :=
  (within_writeLoc8 d b s).flagsKept hd

theorem binary8_flagsKept {f : Byte → Byte → Effect8} (hc : ∀ a b, Covers q (f a b).z80 (f a b).gb) :
    FlagsKept q s (M.final (binary8 f d v) s) :=
  .bind ((within_readLoc8 d s).flagsKept rfl) fun a s1 _ =>
    .bind ((within_readVal8 v s1).flagsKept rfl) fun b _ _ =>
      .bind (writeLoc8_flagsKept hd _) fun _ _ _ => writeFlags_flagsKept (hc a b)

theorem binary8c_flagsKept {f : Byte → Byte → Bool → Effect8} (hc : ∀ a b c, Covers q (f a b c).z80 (f a b c).gb) :
    FlagsKept q s (M.final (binary8c f d v) s) :=
  .bind ((within_readLoc8 d s).flagsKept rfl) fun a s1 _ =>
    .bind ((within_readVal8 v s1).flagsKept rfl) fun b s2 _ =>
      .bind ((within_readFlag .c s2).flagsKept rfl) fun c _ _ =>
        .bind (writeLoc8_flagsKept hd _) fun _ _ _ => writeFlags_flagsKept (hc a b c)

theorem unary8_flagsKept {f : Byte → Effect8} (hc : ∀ a, Covers q (f a).z80 (f a).gb) :
    FlagsKept q s (M.final (unary8 f d) s) :=
  .bind ((within_readLoc8 d s).flagsKept rfl) fun a _ _ =>
    .bind (writeLoc8_flagsKept hd _) fun _ _ _ => writeFlags_flagsKept (hc a)

theorem unary8c_flagsKept {f : Byte → Bool → Effect8} (hc : ∀ a c, Covers q (f a c).z80 (f a c).gb) :
    FlagsKept q s (M.final (unary8c f d) s) :=
  .bind ((within_readLoc8 d s).flagsKept rfl) fun a s1 _ =>
    .bind ((within_readFlag .c s1).flagsKept rfl) fun c _ _ =>
      .bind (writeLoc8_flagsKept hd _) fun _ _ _ => writeFlags_flagsKept (hc a c)

end Shapes8

section Shapes16

variable {d : Loc16} {v : Val16} (hd : d.isReg8 .f = false)
include hd

theorem binary16_flagsKept {f : Word → Word → Effect16} (hc : ∀ a b, Covers q (f a b).z80 (f a b).gb) :
    FlagsKept q s (M.final (binary16 f d v) s) :=
  .bind ((within_readLoc16 d s).flagsKept rfl) fun a s1 _ =>
    .bind ((within_readVal16 v s1).flagsKept rfl) fun b s2 _ =>
      .bind ((within_writeLoc16 d _ s2).flagsKept hd) fun _ _ _ => writeFlags_flagsKept (hc a b)

theorem binary16c_flagsKept {f : Word → Word → Bool → Effect16} (hc : ∀ a b c, Covers q (f a b c).z80 (f a b c).gb) :
    FlagsKept q s (M.final (binary16c f d v) s) :=
  .bind ((within_readLoc16 d s).flagsKept rfl) fun a s1 _ =>
    .bind ((within_readVal16 v s1).flagsKept rfl) fun b s2 _ =>
      .bind ((within_readFlag .c s2).flagsKept rfl) fun c s3 _ =>
        .bind ((within_writeLoc16 d _ s3).flagsKept hd) fun _ _ _ => writeFlags_flagsKept (hc a b c)

end Shapes16

/-! ## The rows of R163's table that leave a flag out -/

/-- INC8, DEC8 and BIT leave C. -/
theorem covers_all_but_c {sgn z h pv n z' h' n' : Option Bool} :
    Covers (fun _ f => f != .c) { s := sgn, z := z, h := h, pv := pv, n := n } { z := z', h := h', n := n' } :=
  fun f => by cases f <;> simp [FlagUpdate.get]

/-- SCF, CCF and ADD16 write H, N and C. -/
theorem covers_h_n_c {h n c h' n' c' : Option Bool} :
    Covers (fun _ f => f == .h || f == .n || f == .c) { h := h, n := n, c := c } { h := h', n := n', c := c' } :=
  fun f => by cases f <;> simp [FlagUpdate.get]

theorem aFlags_covers {r : Byte} {co : Bool} :
    Covers (Instr.writesFlag · .rlca) (aFlags r co).z80 (aFlags r co).gb := fun f => by
  cases f <;> simp [Instr.writesFlag, aFlags, FlagUpdate.get]

theorem cpl8_covers (a : Byte) : Covers (Instr.writesFlag · .cpl) (cpl8 a).z80 (cpl8 a).gb := fun f => by
  cases f <;> simp [Instr.writesFlag, cpl8, FlagUpdate.get]

theorem daa8_covers (v : Variant) (a : Byte) (n h c : Bool) :
    Covers (Instr.writesFlag · .daa) (daa8 v a n h c).z80 (daa8 v a n h c).gb := fun f => by
  cases v <;> cases f <;> simp [Instr.writesFlag, daa8, FlagUpdate.get]

/-- BIT's flag phase declares every flag but C, after its draws on the Z80 (45_bit.md R270). -/
theorem bitFlags_flagsKept (z : Bool) : FlagsKept (fun _ f => f != .c) s (M.final (bitFlags z) s) := by
  simp only [bitFlags, M.final_getState_bind]
  split
  · refine .bind ((within_drawBit s).flagsKept rfl) fun sgn s1 _ =>
      .bind ((within_drawBit s1).flagsKept rfl) fun pv s2 _ => ?_
    exact writeFlagSet_flagsKept fun f =>
      (covers_all_but_c (z' := none) (h' := none) (n' := none) f).1
  · exact writeFlagSet_flagsKept fun f =>
      (covers_all_but_c (sgn := none) (z := none) (h := none) (pv := none) (n := none) f).2

/-! ## Every instruction -/

/-- An instruction whose destination is not F keeps the flags outside its row of R163's table. -/
theorem exec_flagsKept (i : Instr) (s : State) (hi : i.dest8 .f = false) :
    ∃ m, exec i s = runCommand m s ∧ FlagsKept (Instr.writesFlag · i) s (M.final m s) := by
  by_cases hwrites : i.writesFlags = true
  case neg =>
    obtain ⟨m, hm, hw⟩ := exec_within i s
    exact ⟨m, hm, hw.flagsKept (by simp [Instr.mayWrite8, hi, hwrites])⟩
  cases i
  case nop | ld8 | ld16 | push | pop | ex16 | exx | inc16 | dec16 | set | res | jp | jr | call | ret | djnz =>
    exact nomatch hwrites
  case add8 | sub8 | and8 | xor8 | or8 => exact ⟨_, rfl, binary8_flagsKept hi fun _ _ => .of_all fun _ _ => rfl⟩
  case adc8 | sbc8 => exact ⟨_, rfl, binary8c_flagsKept hi fun _ _ _ => .of_all fun _ _ => rfl⟩
  case add16 => exact ⟨_, rfl, binary16_flagsKept hi fun _ _ => covers_h_n_c⟩
  case adc16 | sbc16 => exact ⟨_, rfl, binary16c_flagsKept hi fun _ _ _ => .of_all fun _ _ => rfl⟩
  case rlc | rrc | sla | sra | srl | swap => exact ⟨_, rfl, unary8_flagsKept hi fun _ => .of_all fun _ _ => rfl⟩
  case rl | rr => exact ⟨_, rfl, unary8c_flagsKept hi fun _ _ => .of_all fun _ _ => rfl⟩
  case inc8 | dec8 => exact ⟨_, rfl, unary8_flagsKept hi fun _ => covers_all_but_c⟩
  case neg => exact ⟨_, rfl, unary8_flagsKept rfl fun _ => .of_all fun _ _ => rfl⟩
  case cpl => exact ⟨_, rfl, unary8_flagsKept rfl cpl8_covers⟩
  case rlca | rrca => exact ⟨_, rfl, unary8_flagsKept rfl fun _ => aFlags_covers⟩
  case rla | rra => exact ⟨_, rfl, unary8c_flagsKept rfl fun _ _ => aFlags_covers⟩
  case cp8 a b =>
    exact ⟨_, rfl, .bind ((within_readVal8 a s).flagsKept rfl) fun _ s1 _ =>
      .bind ((within_readVal8 b s1).flagsKept rfl) fun _ _ _ => writeFlags_flagsKept (.of_all fun _ _ => rfl)⟩
  case scf => exact ⟨_, rfl, writeFlags_flagsKept covers_h_n_c⟩
  case ccf =>
    exact ⟨_, rfl, .bind ((within_readFlag .c s).flagsKept rfl) fun _ _ _ => writeFlags_flagsKept covers_h_n_c⟩
  case daa =>
    exact ⟨_, rfl, .bind ((within_readReg8 .a s).flagsKept rfl) fun a s1 _ =>
      .bind ((within_readFlag .n s1).flagsKept rfl) fun n s2 _ =>
        .bind ((within_readFlag .h s2).flagsKept rfl) fun h s3 _ =>
          .bind ((within_readFlag .c s3).flagsKept rfl) fun c s4 _ =>
            .bind ((within_writeReg8 .a _ s4).flagsKept rfl) fun _ _ _ =>
              writeFlags_flagsKept (daa8_covers s.cfg.variant a n h c)⟩
  case addspe v =>
    exact ⟨_, rfl, .bind ((within_readVal8 v s).flagsKept rfl) fun _ s1 _ =>
      .bind ((within_readReg16 .sp s1).flagsKept rfl) fun _ s2 _ =>
        .bind ((within_writeReg16 .sp _ s2).flagsKept rfl) fun _ _ _ =>
          writeFlags_flagsKept (.of_all fun _ _ => rfl)⟩
  case ldhlspe v =>
    exact ⟨_, rfl, .bind ((within_readVal8 v s).flagsKept rfl) fun _ s1 _ =>
      .bind ((within_readReg16 .sp s1).flagsKept rfl) fun _ s2 _ =>
        .bind ((within_writePair .hl _ s2).flagsKept rfl) fun _ _ _ =>
          writeFlags_flagsKept (.of_all fun _ _ => rfl)⟩
  case bit b v =>
    exact ⟨_, rfl, .bind ((within_readVal8 v s).flagsKept rfl) fun _ _ _ => bitFlags_flagsKept _⟩

/-- Ending the command does not touch F. -/
theorem FlagsKept.next {m : M Unit} (hk : FlagsKept q s (M.final m s)) (h : runCommand m s = .next t) :
    FlagsKept q s t := by
  obtain ⟨o, r, rfl, -⟩ := runCommand_next h
  exact hk.trans (.of_get rfl rfl)

/-- Under the Game Boy's mask the bits that are no flag are 0 in a written F before and after a command (R34). -/
theorem exec_maskedBits {i : Instr} (h : exec i s = .next t) (hg : s.cfg.variant = .gb)
    (hmask : s.cfg.gbFLowMask = true) (hs : s.fMasked) (hF : s.written8 .f = true) :
    t.reg8 .f &&& 0x0F = s.reg8 .f &&& 0x0F := by
  obtain ⟨m, hm, hw⟩ := exec_within i s
  obtain ⟨o, r, rfl, -⟩ := runCommand_next (hm ▸ h)
  rw [hs hg hmask hF]
  exact hw.masked hs (hw.cfg ▸ hg) (hw.cfg ▸ hmask) (hw.written8 .f hF)

/-- Settles O59: `exec_flagsKept`, but for the operations that may not write F at all, and F under the mask. -/
theorem unlistedFlagsUnchanged : Obligations.UnlistedFlagsUnchanged := by
  intro i s t hi h
  obtain ⟨m, hm, hw⟩ := exec_within i s
  obtain ⟨m', hm', hk'⟩ := exec_flagsKept i s hi
  have hk : FlagsKept (Instr.writesFlag · i) s t := hk'.next (hm' ▸ h)
  have hregs : s.RegistersFramed t i := hw.registersFramed (hm ▸ h)
  refine ⟨hk.flags, fun hnone => hregs.1 .f (by simp [Instr.mayWrite8, hi, hnone]), fun hz hp => ?_,
    fun hg hmasked hF => ?_⟩
  · simpa [hz, plainBits] using hk.plain ⟨fun _ => hp, fun hg => by simp [hz] at hg⟩
  · cases hmask : s.cfg.gbFLowMask with
    | true => exact exec_maskedBits h hg hmask hmasked hF
    | false => simpa [hg, plainBits] using hk.plain ⟨fun hz => by simp [hg] at hz, fun _ => hmask⟩

end Sys2Proof.Machine
end

section
/-! PROOFS. Transfers: results, completion and errors (spec/41_transfer.md R180 to R186). -/

namespace Sys2Proof.Machine

variable {s t : State}

/-! ## Commands that end with an error (60_exceptions.md R305) -/

/-- A command whose parts raise an error ends with it: no part changes the latched command (R306). -/
theorem abortsWith_of_run {i : Instr} {m : M Unit} {e : Error} (hi : exec i s = runCommand m s)
    (h : m s = .error e t) : i.abortsWith s e t := by
  obtain ⟨m', hm', hw⟩ := exec_within i s
  have hnext : runCommand m' s = .next (t.takeError e t.command) := by rw [← hm', hi, runCommand_error h]
  obtain ⟨-, -, hcmd, -⟩ := hw.restFramed hnext
  exact abortsWith_of_error hi h hcmd

/-! ## A byte write that fails changes nothing (R181) -/

theorem readReg8_error {x : Reg8} {e : Error} (h : readReg8 x s = .error e t) : t = s := by
  cases hx : s.written8 x with
  | true => rw [readReg8_ok hx] at h; cases h
  | false => rw [readReg8_unwritten hx] at h; cases h; rfl

theorem readReg16_error {x : Reg16} {e : Error} (h : readReg16 x s = .error e t) : t = s := by
  cases hx : s.written16 x with
  | true => rw [readReg16_ok hx] at h; cases h
  | false => rw [readReg16_unwritten hx] at h; cases h; rfl

theorem readPair_error {p : Pair} {e : Error} (h : readPair p s = .error e t) : t = s := by
  obtain ⟨-, hok⟩ | ⟨x, -, -, herr⟩ := readPair_cases p s
  · rw [hok] at h; cases h
  · rw [herr] at h; cases h; rfl

theorem readSrc16_error {p : Src16} {e : Error} (h : readSrc16 p s = .error e t) : t = s := by
  cases p with
  | pair p => exact readPair_error h
  | reg x => exact readReg16_error h

theorem pseudoEa_error {base : Word} {o : Offset} {e : Error} (h : pseudoEa base o s = .error e t) : t = s := by
  cases o with
  | reg x =>
    obtain hx | ⟨_, _, _, hpure⟩ := M.bind_eq_error.1 h
    · exact readReg8_error hx
    · cases hpure
  | imm v => cases h

theorem busWrite8_error {a : Addr} {v : Byte} {e : Error} (h : busWrite8 a v s = .error e t) : t = s := by
  cases hr : route s.cfg.listeners a with
  | none => rw [busWrite8_unmapped v hr] at h; cases h; rfl
  | some l =>
    obtain ⟨first, last, d⟩ := l
    cases d with
    | peripheral n => rw [busWrite8_of_ok hr rfl] at h; cases h
    | flat fb =>
      by_cases hw : fb.inWindow a = true
      · rw [busWrite8_of_ok hr (flatWrite_ok v hw)] at h; cases h
      · rw [busWrite8_of_error hr (flatWrite_outOfRange v hw)] at h; cases h; rfl

/-- `Write8` raises an error at the reads of its address or at the bus, and neither changes anything. -/
theorem writeLoc8_error {o : Loc8} {v : Byte} {e : Error} (h : writeLoc8 o v s = .error e t) : t = s := by
  cases o with
  | reg x => cases h
  | ptr p =>
    obtain hsrc | ⟨_, _, hsrc, hbus⟩ := M.bind_eq_error.1 h
    · exact readSrc16_error hsrc
    · obtain ⟨-, -, rfl⟩ := readSrc16_eq_ok.1 hsrc
      exact busWrite8_error hbus
  | pptr base o =>
    obtain hea | ⟨_, _, hea, hbus⟩ := M.bind_eq_error.1 h
    · exact pseudoEa_error hea
    · obtain ⟨-, -, rfl⟩ := pseudoEa_eq_ok.1 hea
      exact busWrite8_error hbus
  | mem m => exact busWrite8_error h

/-! ## NOP and the loads (R180 to R182) -/

/-- LD8 completes where SRC reads and DST writes: the read leaves DST's address and its device as they were. -/
theorem exec_ld8_ok {d : Loc8} {v : Val8} (hv : s.readsVal8 v = true) (hd : s.writes8 d = true) :
    ∃ a s1 t, readVal8 v s = .ok a s1 ∧ writeLoc8 d a s1 = .ok () t ∧ exec (.ld8 d v) s = .next (t.complete s) := by
  obtain ⟨a, s1, h1⟩ := readVal8_ok hv
  have r1 : ReadsOnly s s1 := (within_readVal8 v s).of_ok h1
  obtain ⟨t, h2⟩ := writeLoc8_after r1 a hd
  exact ⟨a, s1, t, h1, h2, runCommand_ok ((M.bind_ok h1).trans h2)⟩

theorem exec_ld16_ok {d : Loc16} {v : Val16} (hv : s.readsVal16 v = true) (hd : s.writes16 d = true) :
    ∃ a s1 t, readVal16 v s = .ok a s1 ∧ writeLoc16 d a s1 = .ok () t ∧
      exec (.ld16 d v) s = .next (t.complete s) := by
  obtain ⟨a, s1, h1⟩ := readVal16_ok hv
  have r1 : ReadsOnly s s1 := (within_readVal16 v s).of_ok h1
  obtain ⟨t, h2⟩ := writeLoc16_after r1 a hd
  exact ⟨a, s1, t, h1, h2, runCommand_ok ((M.bind_ok h1).trans h2)⟩

/-- Settles O30: a load is its read, then its write; a byte write that fails changes nothing. -/
theorem nopAndLoads : Obligations.NopAndLoads := by
  refine ⟨fun s => rfl, fun s d v => exec_ld8_ok, fun s d v => exec_ld16_ok,
    fun s s1 t d v a e => ⟨fun h => ?_, fun h1 h2 => ⟨?_, writeLoc8_error h2⟩⟩,
    fun s s1 t d v a e => ⟨fun h => ?_, fun h1 h2 => ?_⟩⟩
  · exact abortsWith_of_run rfl (M.bind_error h)
  · exact abortsWith_of_run rfl ((M.bind_ok h1).trans h2)
  · exact abortsWith_of_run rfl (M.bind_error h)
  · exact abortsWith_of_run rfl ((M.bind_ok h1).trans h2)

/-! ## PUSH and POP (R183, R184) -/

theorem busWrites16_congr (hcfg : t.cfg = s.cfg) (a : Addr) : t.busWrites16 a = s.busWrites16 a := by
  simp [State.busWrites16, State.busWrites, hcfg]

/-- Whether `Write16` succeeds is a matter of the listeners and the Register8 file: an address is fixed or comes from an
offset (20_memory.md R83, R87). -/
theorem writes16_congr (hcfg : t.cfg = s.cfg) (h8 : ∀ x, t.regs8.get x = s.regs8.get x) (o : Loc16) :
    t.writes16 o = s.writes16 o := by
  cases o with
  | reg x => rfl
  | pair p => rfl
  | pptr base off =>
    have hwritten : t.offsetWritten off = s.offsetWritten off := by
      cases off with
      | reg x => exact congrArg Cell8.written (h8 x)
      | imm v => rfl
    have hoff : t.offset off = s.offset off := by
      cases off with
      | reg x => exact congrArg Cell8.value (h8 x)
      | imm v => rfl
    rw [State.writes16, State.writes16, hwritten, hoff, busWrites16_congr hcfg]
  | mem m => exact busWrites16_congr hcfg m

theorem push16_unwritten {v : Word} (h : s.written16 .sp = false) :
    push16 v s = .error (.unwritten (.reg16 .sp)) s := M.bind_error (readReg16_unwritten h)

theorem pop16_unwritten (h : s.written16 .sp = false) : pop16 s = .error (.unwritten (.reg16 .sp)) s :=
  M.bind_error (readReg16_unwritten h)

/-- A word write leaves every Register16 alone, whether it succeeds or fails. -/
theorem memWrite16_reg16 (a : Addr) (v : Word) (s : State) (x : Reg16) :
    (M.final (memWrite16 a v) s).reg16 x = s.reg16 x :=
  congrArg Cell16.value ((within_memWrite16 a v s).regs16 x rfl)

theorem exec_push_ok {v : Val16} (hv : s.readsVal16 v = true) (hsp : s.written16 .sp = true)
    (hw : s.busWrites16 (s.reg16 .sp - 2) = true) :
    ∃ a s1 t, readVal16 v s = .ok a s1 ∧
      memWrite16 (s.reg16 .sp - 2) a (s1.setReg16 .sp (s.reg16 .sp - 2)) = .ok () t ∧
      t.reg16 .sp = s.reg16 .sp - 2 ∧ exec (.push v) s = .next (t.complete s) := by
  obtain ⟨a, s1, h1⟩ := readVal16_ok hv
  have r1 : ReadsOnly s s1 := (within_readVal16 v s).of_ok h1
  have hw1 : (s1.setReg16 .sp (s.reg16 .sp - 2)).busWrites16 (s.reg16 .sp - 2) = true :=
    (busWrites16_congr (t := s1.setReg16 .sp (s.reg16 .sp - 2)) r1.cfg _).trans hw
  obtain ⟨t, h2⟩ := memWrite16_ok a hw1
  have hpush : push16 a s1 = .ok () t := by
    rw [push16_run a (r1.written16_eq .sp ▸ hsp), r1.reg16_eq, h2]
  refine ⟨a, s1, t, h1, h2, ?_, runCommand_ok ((M.bind_ok h1).trans hpush)⟩
  rw [← M.final_ok h2, memWrite16_reg16, State.setReg16_reg16_self]

theorem exec_pop_ok {d : Loc16} (hsp : s.written16 .sp = true) (hr : s.busReads16 (s.reg16 .sp) = true)
    (hd : s.writes16 d = true) :
    ∃ a s1 t, memRead16 (s.reg16 .sp) s = .ok a s1 ∧
      writeLoc16 d a (s1.setReg16 .sp (s.reg16 .sp + 2)) = .ok () t ∧ exec (.pop d) s = .next (t.complete s) := by
  obtain ⟨a, s1, h1⟩ := memRead16_ok hr
  have r1 : ReadsOnly s s1 := (within_memRead16 _ s).of_ok h1
  have hd1 : (s1.setReg16 .sp (s.reg16 .sp + 2)).writes16 d = true :=
    (writes16_congr (t := s1.setReg16 .sp (s.reg16 .sp + 2)) r1.cfg r1.get8 d).trans hd
  obtain ⟨t, h2⟩ := writeLoc16_ok a hd1
  exact ⟨a, s1, t, h1, h2, runCommand_ok ((M.bind_ok (pop16_ok hsp h1)).trans h2)⟩

/-- PUSH's failed stack write leaves SP decremented: neither SRC's read nor the bus changes SP. -/
theorem exec_push_error {s1 : State} {v : Val16} {a : Word} {e : Error} (h1 : readVal16 v s = .ok a s1)
    (hsp : s1.written16 .sp = true)
    (h2 : memWrite16 (s1.reg16 .sp - 2) a (s1.setReg16 .sp (s1.reg16 .sp - 2)) = .error e t) :
    (Instr.push v).abortsWith s e t ∧ t.reg16 .sp = s.reg16 .sp - 2 := by
  have r1 : ReadsOnly s s1 := (within_readVal16 v s).of_ok h1
  refine ⟨abortsWith_of_run rfl ((M.bind_ok h1).trans ((push16_run a hsp).trans h2)), ?_⟩
  rw [← M.final_error h2, memWrite16_reg16, State.setReg16_reg16_self, r1.reg16_eq]

/-- Settles O31: each command's accesses in order, and what a failed stack access leaves of SP. -/
theorem pushAndPop : Obligations.PushAndPop := by
  refine ⟨fun s v => exec_push_ok, fun s d => exec_pop_ok, fun s s1 t v a e => ⟨fun h => ?_, fun h1 hsp => ?_,
    exec_push_error⟩, fun s s1 t d a e => ⟨fun hsp => ?_, fun hsp h => ⟨?_, ?_⟩, fun hsp h1 h2 => ?_⟩⟩
  · exact abortsWith_of_run rfl (M.bind_error h)
  · exact abortsWith_of_run rfl ((M.bind_ok h1).trans (push16_unwritten hsp))
  · exact abortsWith_of_run rfl (M.bind_error (pop16_unwritten hsp))
  · exact abortsWith_of_run rfl (M.bind_error (pop16_error hsp h))
  · exact ReadsOnly.reg16_eq ((within_memRead16 _ s).of_error h) .sp
  · exact abortsWith_of_run rfl ((M.bind_ok (pop16_ok hsp h1)).trans h2)

/-! ## EX16 (R185) -/

/-- After `Write16` another operand's write succeeds as it does after the write's effect on the registers alone: a store
changes no listener and no register. -/
theorem writes16_after_writeLoc16 {d : Loc16} {v : Word} (h : writeLoc16 d v s = .ok () t) (o : Loc16) :
    t.writes16 o = (s.regWrite16 d v).writes16 o := by
  have hw := (within_writeLoc16 d v s).of_ok h
  cases d with
  | reg x => cases h; rfl
  | pair p => cases h; rfl
  | pptr base off => exact writes16_congr hw.cfg (fun x => hw.regs8 x rfl) o
  | mem m => exact writes16_congr hw.cfg (fun x => hw.regs8 x rfl) o

theorem exec_ex16_ok {d e : Loc16} (hd : s.reads16 d = true) (he : s.reads16 e = true) (hx : s.exchangeWrites d e) :
    ∃ va vb s1 s2 s3 t, readLoc16 d s = .ok va s1 ∧ readLoc16 e s1 = .ok vb s2 ∧
      writeLoc16 d vb s2 = .ok () s3 ∧ writeLoc16 e va s3 = .ok () t ∧
      exec (.ex16 d e) s = .next (t.complete s) := by
  obtain ⟨va, s1, h1⟩ := readLoc16_ok hd
  have r1 : ReadsOnly s s1 := (within_readLoc16 d s).of_ok h1
  obtain ⟨vb, s2, h2⟩ := readLoc16_ok ((r1.reads16_eq e).trans he)
  have r2 : ReadsOnly s s2 := r1.trans ((within_readLoc16 e s1).of_ok h2)
  obtain ⟨s3, h3⟩ := writeLoc16_after r2 vb (reads16_writes16 hd)
  obtain ⟨t, h4⟩ := writeLoc16_ok va ((writes16_after_writeLoc16 h3 e).trans (hx va vb s1 s2 h1 h2))
  exact ⟨va, vb, s1, s2, s3, t, h1, h2, h3, h4,
    runCommand_ok ((M.bind_ok h1).trans ((M.bind_ok h2).trans ((M.bind_ok h3).trans h4)))⟩

/-- Settles O32: the four accesses in order; `exchangeWrites` speaks of the state the first write leaves. -/
theorem exchangeWords : Obligations.ExchangeWords := by
  refine ⟨fun s d e => exec_ex16_ok,
    fun s s1 s2 s3 t d e va vb err => ⟨fun h => ?_, fun h1 h => ?_, fun h1 h2 h3 h => ?_⟩⟩
  · exact abortsWith_of_run rfl (M.bind_error h)
  · exact abortsWith_of_run rfl ((M.bind_ok h1).trans (M.bind_error h))
  · exact abortsWith_of_run rfl ((M.bind_ok h1).trans ((M.bind_ok h2).trans ((M.bind_ok h3).trans h)))

/-! ## EXX (R186) -/

/-- The twelve halves, in the order EXX reads them. -/
def exchangedCells : List Reg8 := [.b, .c, .b', .c', .d, .e, .d', .e', .h, .l, .h', .l']

/-- The file with BC, DE and HL exchanged with BC', DE' and HL'. -/
def Regs8.exchanged (g : Regs8) : Regs8 :=
  { g with
    b := g.b', c := g.c', d := g.d', e := g.e', h := g.h', l := g.l'
    b' := g.b, c' := g.c, d' := g.d, e' := g.e, h' := g.h, l' := g.l }

theorem Regs8.exchanged_exchanged (g : Regs8) : g.exchanged.exchanged = g := rfl

theorem cell8_eq_of_written {x : Reg8} (h : s.written8 x = true) : (⟨s.reg8 x, true⟩ : Cell8) = s.regs8.get x := by
  rw [← h]; rfl

/-- Writing a pair with another pair's value, both its halves written, copies the two cells; AF's low half is left out
for its mask (10_state.md R34). -/
theorem State.setPair_eq_put {p q : Pair} (u : State) (hp : p ≠ .af) (hq : s.writtenPair q = true) :
    u.setPair p (s.pair q) =
      { u with regs8 := (u.regs8.put p.high (s.regs8.get q.high)).put p.low (s.regs8.get q.low) } := by
  rw [State.writtenPair, Bool.and_eq_true] at hq
  obtain ⟨hhigh, hlow⟩ := hq
  rw [← cell8_eq_of_written hhigh, ← cell8_eq_of_written hlow, State.setPair, State.pair, high_append, low_append,
    State.setReg8, State.setReg8, stored8_high, stored8_of_ne _ _ (low_ne_f hp)]

theorem readPairs_ok {p q : Pair} (hp : s.writtenPair p = true) (hq : s.writtenPair q = true) :
    readPairs p q s = .ok (s.pair p, s.pair q) s := (M.bind_ok (readPair_ok hp)).trans (M.bind_ok (readPair_ok hq))

/-- With the twelve halves written EXX exchanges the cells. -/
theorem exec_exx_ok (hbc : s.writtenPair .bc = true) (hbc' : s.writtenPair .bc' = true) (hde : s.writtenPair .de = true)
    (hde' : s.writtenPair .de' = true) (hhl : s.writtenPair .hl = true) (hhl' : s.writtenPair .hl' = true) :
    exec .exx s = .next (({ s with regs8 := s.regs8.exchanged } : State).complete s) := by
  refine runCommand_ok ((M.bind_ok (readPairs_ok hbc hbc')).trans ((M.bind_ok (readPairs_ok hde hde')).trans
    ((M.bind_ok (readPairs_ok hhl hhl')).trans ?_)))
  rw [M.bind_ok (exchangePairs_run ..), M.bind_ok (exchangePairs_run ..), exchangePairs_run,
    State.setPair_eq_put _ (by decide) hbc', State.setPair_eq_put _ (by decide) hbc,
    State.setPair_eq_put _ (by decide) hde', State.setPair_eq_put _ (by decide) hde,
    State.setPair_eq_put _ (by decide) hhl', State.setPair_eq_put _ (by decide) hhl]
  rfl

/-- With one of the twelve halves unwritten EXX ends at the first of them it reads, before any write
(40_flag_library.md R161). -/
theorem exec_exx_unwritten {x : Reg8} (hx : x ∈ exchangedCells) (hw : s.written8 x = false) :
    ∃ y ∈ exchangedCells, s.written8 y = false ∧ Instr.exx.abortsWith s (.unwritten (.reg8 y)) s := by
  obtain ⟨hbc, hbc', h1⟩ | ⟨y, hy, hyw, h1⟩ := readPairs_cases .bc .bc' s
  case inr =>
    refine ⟨y, ?_, hyw, abortsWith_of_run rfl (M.bind_error h1)⟩
    rcases hy with rfl | rfl | rfl | rfl <;> decide
  obtain ⟨hde, hde', h2⟩ | ⟨y, hy, hyw, h2⟩ := readPairs_cases .de .de' s
  case inr =>
    refine ⟨y, ?_, hyw, abortsWith_of_run rfl ((M.bind_ok h1).trans (M.bind_error h2))⟩
    rcases hy with rfl | rfl | rfl | rfl <;> decide
  obtain ⟨hhl, hhl', h3⟩ | ⟨y, hy, hyw, h3⟩ := readPairs_cases .hl .hl' s
  case inr =>
    refine ⟨y, ?_, hyw, abortsWith_of_run rfl ((M.bind_ok h1).trans ((M.bind_ok h2).trans (M.bind_error h3)))⟩
    rcases hy with rfl | rfl | rfl | rfl <;> decide
  have hall : ∀ z ∈ exchangedCells, s.written8 z = true := by
    simp only [State.writtenPair, Bool.and_eq_true, Pair.high, Pair.low] at hbc hbc' hde hde' hhl hhl'
    simp [exchangedCells, hbc, hbc', hde, hde', hhl, hhl']
  rw [hall x hx] at hw
  cases hw

/-- Settles O33: the exchange of the cells is its own inverse, and a second EXX finds the twelve halves written too. -/
theorem exchangeSets : Obligations.ExchangeSets := by
  refine ⟨fun s hbc hbc' hde hde' hhl hhl' => ?_, fun s x => exec_exx_unwritten,
    illFormedIsRefusedByItsCheck .gb .exx .opVariant rfl⟩
  exact ⟨_, exec_exx_ok hbc hbc' hde hde' hhl hhl', rfl, _, exec_exx_ok hbc' hbc hde' hde hhl' hhl,
    Regs8.exchanged_exchanged _, rfl, rfl⟩

end Sys2Proof.Machine
end

section
/-! PROOFS. 8-bit arithmetic and logic: results, flags, completion and errors (spec/42_alu8.md R200 to R214). -/

namespace Sys2Proof.Machine

variable {s s1 s2 s3 : State} {i : Instr} {d : Loc8} {v : Val8} {a b : Byte}

/-! ## What a rule's flag line declares (40_flag_library.md R163) -/

theorem FlagUpdate.ne_empty_of_h {u : FlagUpdate} {x : Bool} (h : u.h = some x) : u ≠ {} := by
  rintro rfl
  cases h

/-- Every rule of this family that both variants have declares H on both. -/
theorem declares_of_h {cfg : Config} {z80 gb : FlagUpdate} {x y : Bool} (hz : z80.h = some x) (hg : gb.h = some y)
    (hs : gb.s = none) (hpv : gb.pv = none) : Declares cfg z80 gb :=
  ⟨fun _ => FlagUpdate.ne_empty_of_h hz, fun _ => ⟨FlagUpdate.ne_empty_of_h hg, hs, hpv⟩⟩

theorem declares_of_z80 {cfg : Config} {z80 gb : FlagUpdate} {x : Bool} (hcfg : cfg.variant = .z80)
    (hz : z80.h = some x) : Declares cfg z80 gb :=
  ⟨fun _ => FlagUpdate.ne_empty_of_h hz, fun hg => by simp [hcfg] at hg⟩

theorem declares_of_gb {cfg : Config} {z80 gb : FlagUpdate} {x : Bool} (hcfg : cfg.variant = .gb)
    (hg : gb.h = some x) (hs : gb.s = none) (hpv : gb.pv = none) : Declares cfg z80 gb :=
  ⟨fun hz => by simp [hcfg] at hz, fun _ => ⟨FlagUpdate.ne_empty_of_h hg, hs, hpv⟩⟩

/-! ## An instruction that runs a phase shape: completion (40_flag_library.md R160) -/

theorem exec_binary8_ok {f : Byte → Byte → Effect8} (hi : exec i s = runCommand (binary8 f d v) s)
    (hd : s.reads8 d = true) (hv : s.readsVal8 v = true) (hF : s.written8 .f = true)
    (hdec : ∀ a b, Declares s.cfg (f a b).z80 (f a b).gb) :
    ∃ a b s1 s2 s3 t, readLoc8 d s = .ok a s1 ∧ readVal8 v s1 = .ok b s2 ∧
      writeLoc8 d (f a b).result s2 = .ok () s3 ∧ s3.FlagsSet t (f a b).z80 (f a b).gb ∧
      exec i s = .next (t.complete s) := by
  obtain ⟨a, b, s1, s2, s3, t, h1, h2, h3, hflags, hrun⟩ := binary8_ok hd hv (reads8_writes8 hd) hF hdec
  exact ⟨a, b, s1, s2, s3, t, h1, h2, h3, hflags, hi.trans (runCommand_ok hrun)⟩

theorem exec_binary8c_ok {f : Byte → Byte → Bool → Effect8} (hi : exec i s = runCommand (binary8c f d v) s)
    (hd : s.reads8 d = true) (hv : s.readsVal8 v = true) (hF : s.written8 .f = true)
    (hdec : ∀ a b c, Declares s.cfg (f a b c).z80 (f a b c).gb) :
    ∃ a b s1 s2 s3 t, readLoc8 d s = .ok a s1 ∧ readVal8 v s1 = .ok b s2 ∧
      writeLoc8 d (f a b (s.flag .c)).result s2 = .ok () s3 ∧
      s3.FlagsSet t (f a b (s.flag .c)).z80 (f a b (s.flag .c)).gb ∧ exec i s = .next (t.complete s) := by
  obtain ⟨a, b, s1, s2, s3, t, h1, h2, h3, hflags, hrun⟩ := binary8c_ok hd hv (reads8_writes8 hd) hF hdec
  exact ⟨a, b, s1, s2, s3, t, h1, h2, h3, hflags, hi.trans (runCommand_ok hrun)⟩

theorem exec_unary8_ok {f : Byte → Effect8} (hi : exec i s = runCommand (unary8 f d) s) (hd : s.reads8 d = true)
    (hF : s.written8 .f = true) (hdec : ∀ a, Declares s.cfg (f a).z80 (f a).gb) :
    ∃ a s1 s2 t, readLoc8 d s = .ok a s1 ∧ writeLoc8 d (f a).result s1 = .ok () s2 ∧
      s2.FlagsSet t (f a).z80 (f a).gb ∧ exec i s = .next (t.complete s) := by
  obtain ⟨a, s1, s2, t, h1, h2, hflags, hrun⟩ := unary8_ok hd (reads8_writes8 hd) hF hdec
  exact ⟨a, s1, s2, t, h1, h2, hflags, hi.trans (runCommand_ok hrun)⟩

/-- The operations on the implicit A: its read and its write are plain. -/
theorem exec_unaryA_ok {f : Byte → Effect8} (hi : exec i s = runCommand (unary8 f (.reg .a)) s)
    (hA : s.written8 .a = true) (hF : s.written8 .f = true) (hdec : ∀ a, Declares s.cfg (f a).z80 (f a).gb) :
    ∃ t, (s.setReg8 .a (f (s.reg8 .a)).result).FlagsSet t (f (s.reg8 .a)).z80 (f (s.reg8 .a)).gb ∧
      exec i s = .next (t.complete s) := by
  obtain ⟨a, s1, s2, t, hread, hwrite, hflags, hrun⟩ := exec_unary8_ok hi hA hF hdec
  obtain ⟨-, rfl, rfl⟩ := readReg8_eq_ok.1 hread
  cases hwrite
  exact ⟨t, hflags, hrun⟩

/-! ## An instruction that runs a phase shape: errors (60_exceptions.md R305) -/

theorem unary8_unwritten {f : Byte → Effect8} (h1 : readLoc8 d s = .ok a s1)
    (h2 : writeLoc8 d (f a).result s1 = .ok () s2) (hF : s2.written8 .f = false)
    (hdec : Declares s2.cfg (f a).z80 (f a).gb) : unary8 f d s = .error (.unwritten (.reg8 .f)) s2 :=
  (M.bind_ok h1).trans ((M.bind_ok h2).trans (writeFlags_unwritten hF hdec))

theorem binary8_unwritten {f : Byte → Byte → Effect8} (h1 : readLoc8 d s = .ok a s1) (h2 : readVal8 v s1 = .ok b s2)
    (h3 : writeLoc8 d (f a b).result s2 = .ok () s3) (hF : s3.written8 .f = false)
    (hdec : Declares s3.cfg (f a b).z80 (f a b).gb) : binary8 f d v s = .error (.unwritten (.reg8 .f)) s3 :=
  (M.bind_ok h1).trans ((M.bind_ok h2).trans ((M.bind_ok h3).trans (writeFlags_unwritten hF hdec)))

theorem binary8_aborts {f : Byte → Byte → Effect8} (hi : ∀ s, exec i s = runCommand (binary8 f d v) s)
    (hdec : ∀ cfg a b, Declares cfg (f a b).z80 (f a b).gb) : i.abortsBinary8 d v (fun a b => (f a b).result) := by
  intro s s1 s2 s3 a b e
  refine ⟨fun h => ?_, fun h1 h => ?_, fun h1 h2 h3 hF => ?_⟩
  · exact abortsWith_of_run (hi s) (M.bind_error h)
  · exact abortsWith_of_run (hi s) ((M.bind_ok h1).trans (M.bind_error h))
  · exact abortsWith_of_run (hi s) (binary8_unwritten h1 h2 h3 hF (hdec s3.cfg a b))

/-- The carry is read before anything is computed, so the errors are the same for every effect. -/
theorem binary8c_aborts (hi : ∀ s, ∃ f, exec i s = runCommand (binary8c f d v) s) : i.abortsBinary8c d v := by
  intro s s1 s2 a b e
  obtain ⟨f, hf⟩ := hi s
  refine ⟨fun h => ?_, fun h1 h => ?_, fun h1 h2 hF => ?_⟩
  · exact abortsWith_of_run hf (M.bind_error h)
  · exact abortsWith_of_run hf ((M.bind_ok h1).trans (M.bind_error h))
  · exact abortsWith_of_run hf ((M.bind_ok h1).trans ((M.bind_ok h2).trans (M.bind_error (readFlag_unwritten hF))))

theorem unary8_aborts {f : Byte → Effect8} (hi : ∀ s, exec i s = runCommand (unary8 f d) s)
    (hdec : ∀ cfg a, Declares cfg (f a).z80 (f a).gb) : i.abortsUnary8 d (fun a => (f a).result) := by
  intro s s1 s2 a e
  refine ⟨fun h => ?_, fun h1 h2 hF => ?_⟩
  · exact abortsWith_of_run (hi s) (M.bind_error h)
  · exact abortsWith_of_run (hi s) (unary8_unwritten h1 h2 hF (hdec s2.cfg a))

theorem unaryA_aborts_unwritten_a {f : Byte → Effect8} (hi : exec i s = runCommand (unary8 f (.reg .a)) s)
    (hA : s.written8 .a = false) : i.abortsWith s (.unwritten (.reg8 .a)) s :=
  abortsWith_of_run hi (M.bind_error (readReg8_unwritten hA))

theorem unaryA_aborts_unwritten_f {f : Byte → Effect8} (hi : exec i s = runCommand (unary8 f (.reg .a)) s)
    (hA : s.written8 .a = true) (hF : s.written8 .f = false)
    (hdec : Declares s.cfg (f (s.reg8 .a)).z80 (f (s.reg8 .a)).gb) :
    i.abortsWith s (.unwritten (.reg8 .f)) (s.setReg8 .a (f (s.reg8 .a)).result) := by
  have hkeep : (s.setReg8 .a (f (s.reg8 .a)).result).written8 .f = false := by simp [hF]
  exact abortsWith_of_run hi (unary8_unwritten (readReg8_ok hA) rfl hkeep hdec)

/-! ## The operations' flag lines -/

theorem add8_declares (cfg : Config) (a b : Byte) : Declares cfg (add8 a b).z80 (add8 a b).gb :=
  declares_of_h rfl rfl rfl rfl

theorem sub8_declares (cfg : Config) (a b : Byte) : Declares cfg (sub8 a b).z80 (sub8 a b).gb :=
  declares_of_h rfl rfl rfl rfl

theorem logic8_declares (cfg : Config) (r : Byte) (h : Bool) : Declares cfg (logic8 r h).z80 (logic8 r h).gb :=
  declares_of_h rfl rfl rfl rfl

theorem inc8_declares (cfg : Config) (a : Byte) : Declares cfg (inc8 a).z80 (inc8 a).gb :=
  declares_of_h rfl rfl rfl rfl

theorem dec8_declares (cfg : Config) (a : Byte) : Declares cfg (dec8 a).z80 (dec8 a).gb :=
  declares_of_h rfl rfl rfl rfl

theorem cpl8_declares (cfg : Config) (a : Byte) : Declares cfg (cpl8 a).z80 (cpl8 a).gb :=
  declares_of_h rfl rfl rfl rfl

/-! ## Two operands (R200 to R206) -/

/-- Settles O34: both are `binary8`, with the effects of R200 and R202. -/
theorem addAndSubtract8 : Obligations.AddAndSubtract8 := by
  refine ⟨fun s d v hd hv hF => ⟨?_, ?_⟩, fun d v => ⟨?_, ?_⟩⟩
  · exact exec_binary8_ok (f := add8) rfl hd hv hF (add8_declares s.cfg)
  · exact exec_binary8_ok (f := sub8) rfl hd hv hF (sub8_declares s.cfg)
  · exact binary8_aborts (f := add8) (fun _ => rfl) add8_declares
  · exact binary8_aborts (f := sub8) (fun _ => rfl) sub8_declares

/-- Settles O35: both are `binary8c`, with the effects of R201 (in the machine's form of the half-carry) and R203. -/
theorem addAndSubtractWithCarry8 : Obligations.AddAndSubtractWithCarry8 := by
  refine ⟨fun s d v hd hv hF => ⟨?_, ?_⟩, fun d v => ⟨?_, ?_⟩⟩
  · obtain ⟨a, b, s1, s2, s3, t, h1, h2, h3, hflags, hrun⟩ := exec_binary8c_ok (i := .adc8 d v)
      (f := adc8 s.cfg.hc8Combine) rfl hd hv hF fun _ _ _ => declares_of_h rfl rfl rfl rfl
    exact ⟨a, b, _, _, s1, s2, s3, t, rfl, h1, h2, rfl, h3, hflags, hrun⟩
  · obtain ⟨a, b, s1, s2, s3, t, h1, h2, h3, hflags, hrun⟩ := exec_binary8c_ok (i := .sbc8 d v)
      (f := sbc8) rfl hd hv hF fun _ _ _ => declares_of_h rfl rfl rfl rfl
    exact ⟨a, b, _, _, s1, s2, s3, t, rfl, h1, h2, rfl, h3, hflags, hrun⟩
  · exact binary8c_aborts fun _ => ⟨_, rfl⟩
  · exact binary8c_aborts fun _ => ⟨_, rfl⟩

/-- Settles O36: each is `binary8` with the flags of `logic8`. -/
theorem bitwiseLogic8 : Obligations.BitwiseLogic8 := by
  refine ⟨fun s d v hd hv hF => ⟨?_, ?_, ?_⟩, fun d v => ⟨?_, ?_, ?_⟩⟩
  · exact exec_binary8_ok (f := and8) rfl hd hv hF fun _ _ => logic8_declares ..
  · exact exec_binary8_ok (f := xor8) rfl hd hv hF fun _ _ => logic8_declares ..
  · exact exec_binary8_ok (f := or8) rfl hd hv hF fun _ _ => logic8_declares ..
  · exact binary8_aborts (f := and8) (fun _ => rfl) fun _ _ _ => logic8_declares ..
  · exact binary8_aborts (f := xor8) (fun _ => rfl) fun _ _ _ => logic8_declares ..
  · exact binary8_aborts (f := or8) (fun _ => rfl) fun _ _ _ => logic8_declares ..

/-! ## CP8 (R207) -/

theorem exec_cp8_ok {d v : Val8} (hd : s.readsVal8 d = true) (hv : s.readsVal8 v = true) (hF : s.written8 .f = true) :
    ∃ a b s1 s2 t, readVal8 d s = .ok a s1 ∧ readVal8 v s1 = .ok b s2 ∧
      s2.FlagsSet t (sub8 a b).z80 (sub8 a b).gb ∧ exec (.cp8 d v) s = .next (t.complete s) := by
  obtain ⟨a, s1, h1⟩ := readVal8_ok hd
  have r1 : ReadsOnly s s1 := (within_readVal8 d s).of_ok h1
  obtain ⟨b, s2, h2⟩ := readVal8_after r1 hv
  have r2 : ReadsOnly s s2 := r1.trans ((within_readVal8 v s1).of_ok h2)
  obtain ⟨t, h3, hflags⟩ := writeFlags_complete (r2.written8 _ hF) (sub8_declares s2.cfg a b)
  exact ⟨a, b, s1, s2, t, h1, h2, hflags, runCommand_ok ((M.bind_ok h1).trans ((M.bind_ok h2).trans h3))⟩

/-- Settles O37: two reads and SUB8's flag phase, with no write between. -/
theorem compare8 : Obligations.Compare8 := by
  refine ⟨fun s d v => exec_cp8_ok, fun s s1 s2 d v a b e => ⟨fun h => ?_, fun h1 h => ?_, fun h1 h2 hF => ?_⟩⟩
  · exact abortsWith_of_run rfl (M.bind_error h)
  · exact abortsWith_of_run rfl ((M.bind_ok h1).trans (M.bind_error h))
  · exact abortsWith_of_run rfl ((M.bind_ok h1).trans ((M.bind_ok h2).trans
      (writeFlags_unwritten hF (sub8_declares s2.cfg a b))))

/-! ## One operand (R208 to R211) -/

/-- Settles O38: both are `unary8`, with the effects of R208 and R209, which name no C. -/
theorem incrementAndDecrement8 : Obligations.IncrementAndDecrement8 := by
  refine ⟨fun s d hd hF => ⟨?_, ?_⟩, fun d => ⟨?_, ?_⟩⟩
  · exact exec_unary8_ok (f := inc8) rfl hd hF (inc8_declares s.cfg)
  · exact exec_unary8_ok (f := dec8) rfl hd hF (dec8_declares s.cfg)
  · exact unary8_aborts (f := inc8) (fun _ => rfl) inc8_declares
  · exact unary8_aborts (f := dec8) (fun _ => rfl) dec8_declares

/-- Settles O39: both are `unary8` on A; NEG's flag line is the Z80's alone, and its row is not the Game Boy's. -/
theorem negateAndComplement : Obligations.NegateAndComplement := by
  refine ⟨fun s hA hF => ⟨fun hz => ?_, ?_⟩, fun s => ⟨fun hA => ⟨?_, ?_⟩, fun hA hF => ⟨fun hz => ?_, ?_⟩⟩,
    illFormedIsRefusedByItsCheck .gb .neg .opVariant rfl⟩
  · exact exec_unaryA_ok (f := neg8) rfl hA hF fun _ => declares_of_z80 hz rfl
  · exact exec_unaryA_ok (f := cpl8) rfl hA hF (cpl8_declares s.cfg)
  · exact unaryA_aborts_unwritten_a rfl hA
  · exact unaryA_aborts_unwritten_a rfl hA
  · exact unaryA_aborts_unwritten_f (f := neg8) rfl hA hF (declares_of_z80 hz rfl)
  · exact unaryA_aborts_unwritten_f (f := cpl8) rfl hA hF (cpl8_declares s.cfg _)

/-! ## DAA (R212) -/

/-- The two disjoint digit corrections put together are their sum. -/
theorem or_digits_eq_ofNat (low high : Prop) [Decidable low] [Decidable high] :
    ((if low then 0x06 else 0) ||| (if high then 0x60 else 0) : Byte) =
      BitVec.ofNat 8 ((if low then 0x06 else 0) + (if high then 0x60 else 0)) := by
  split_ifs <;> rfl

/-- The number the Z80's DAA adds to A or subtracts from it. -/
def daaDiff (a : Byte) (h c : Bool) : Nat :=
  (if h = true ∨ a.toNat % 16 > 9 then 0x06 else 0) + (if c = true ∨ a.toNat > 0x99 then 0x60 else 0)

theorem daaZ80_eq (a : Byte) (n h c : Bool) : daaZ80 a n h c =
    (if n then a - BitVec.ofNat 8 (daaDiff a h c) else a + BitVec.ofNat 8 (daaDiff a h c),
      c || decide (a.toNat > 0x99),
      if n then h && decide (a.toNat % 16 < 6) else decide (a.toNat % 16 > 9)) := by
  simp only [daaZ80, or_digits_eq_ofNat, lowNibble_eq_mod, Bool.or_eq_true, decide_eq_true_eq, ← Bool.or_assoc,
    Bool.or_self, daaDiff]
  cases n <;> rfl

/-- The Game Boy's correction of the high digit leaves the low one. -/
theorem toNat_add_0x60_mod (a : Byte) : (a + 0x60).toNat % 16 = a.toNat % 16 := by
  rw [BitVec.toNat_add]
  show (a.toNat + 0x60) % 2 ^ 8 % 16 = _
  omega

theorem daaGb_add (a : Byte) (h c : Bool) : daaGb a false h c =
    (a + (if (c || decide (a.toNat > 0x99)) = true then 0x60 else 0) +
      (if h = true ∨ a.toNat % 16 > 9 then 0x06 else 0), c || decide (a.toNat > 0x99)) := by
  have hlow : lowNibble (if (c || decide (a.toNat > 0x99)) = true then a + 0x60 else a) = a.toNat % 16 := by
    split_ifs
    · rw [lowNibble_eq_mod, toNat_add_0x60_mod]
    · exact lowNibble_eq_mod a
  simp only [daaGb, hlow, ← Bool.or_assoc, Bool.or_self, Bool.false_eq_true, if_false, add_ite, add_zero]
  simp only [Bool.or_eq_true, decide_eq_true_eq]

theorem daaGb_sub (a : Byte) (h c : Bool) :
    daaGb a true h c = (a - (if c = true then 0x60 else 0) - (if h = true then 0x06 else 0), c) := by
  cases h <;> cases c <;> simp [daaGb]

/-- What DAA computes from A and the flags it reads. -/
def State.daaEffect (s : State) : Effect8 :=
  daa8 s.cfg.variant (s.reg8 .a) (s.flag .n) (s.flag .h) (s.flag .c)

theorem daaEffect_declares (s : State) : Declares s.cfg s.daaEffect.z80 s.daaEffect.gb := by
  unfold State.daaEffect
  cases hv : s.cfg.variant with
  | z80 => exact declares_of_z80 hv rfl
  | gb => exact declares_of_gb hv rfl rfl rfl

theorem exec_daa_ok (hA : s.written8 .a = true) (hF : s.written8 .f = true) :
    ∃ t, (s.setReg8 .a s.daaEffect.result).FlagsSet t s.daaEffect.z80 s.daaEffect.gb ∧
      exec .daa s = .next (t.complete s) := by
  have hkeep : (s.setReg8 .a s.daaEffect.result).written8 .f = true := by simp [hF]
  obtain ⟨t, hphase, hflags⟩ := writeFlags_complete hkeep (daaEffect_declares s)
  refine ⟨t, hflags, runCommand_ok ?_⟩
  exact (M.bind_ok (readReg8_ok hA)).trans ((M.bind_ok (readFlag_ok .n hF)).trans
    ((M.bind_ok (readFlag_ok .h hF)).trans ((M.bind_ok (readFlag_ok .c hF)).trans ((M.bind_ok rfl).trans hphase))))

/-- Settles O40: DAA writes `daaEffect`, whose parts are the two algorithms on numbers. -/
theorem decimalAdjust : Obligations.DecimalAdjust := by
  refine ⟨fun s hA hF => ?_, fun s => ⟨fun hA => ?_, fun hA hF => ?_⟩⟩
  · obtain ⟨t, hflags, hrun⟩ := exec_daa_ok hA hF
    refine ⟨fun hz => ?_, fun hg => ?_⟩
    · simp only [State.daaEffect, hz, daa8, daaZ80_eq] at hflags
      exact ⟨_, _, _, _, t, rfl, rfl, fun hn => by simp [hn, daaDiff], fun hn => by simp [hn, daaDiff], hflags, hrun⟩
    · simp only [State.daaEffect, hg, daa8] at hflags
      exact ⟨_, _, t, fun hn => by simp [hn, daaGb_add], fun hn => by simp [hn, daaGb_sub], hflags, hrun⟩
  · exact abortsWith_of_run rfl (M.bind_error (readReg8_unwritten hA))
  · exact abortsWith_of_run rfl ((M.bind_ok (readReg8_ok hA)).trans (M.bind_error (readFlag_unwritten hF)))

/-! ## SCF and CCF (R213, R214) -/

/-- The flag lines of R213 and R214. -/
theorem declares_h_n_c (cfg : Config) (h n c h' n' c' : Bool) :
    Declares cfg { h := some h, n := some n, c := some c } { h := some h', n := some n', c := some c' } :=
  declares_of_h rfl rfl rfl rfl

/-- Settles O41: SCF is its flag phase; CCF reads the carry first. -/
theorem setAndComplementCarry : Obligations.SetAndComplementCarry := by
  refine ⟨fun s hF => ⟨?_, ?_⟩, fun s hF => ⟨?_, ?_⟩⟩
  · obtain ⟨t, hphase, hflags⟩ := writeFlags_complete hF (declares_h_n_c ..)
    exact ⟨t, hflags, runCommand_ok hphase⟩
  · obtain ⟨t, hphase, hflags⟩ := writeFlags_complete hF (declares_h_n_c ..)
    exact ⟨t, hflags, runCommand_ok ((M.bind_ok (readFlag_ok .c hF)).trans hphase)⟩
  · exact abortsWith_of_run rfl (writeFlags_unwritten hF (declares_h_n_c ..))
  · exact abortsWith_of_run rfl (M.bind_error (readFlag_unwritten hF))

end Sys2Proof.Machine
end

section
/-! PROOFS. 16-bit arithmetic: results, flags, completion and errors (spec/43_alu16.md R230 to R236). -/

namespace Sys2Proof.Machine

variable {s s1 s2 s3 : State} {i : Instr} {d : Loc16} {v : Val16} {a b : Word}

/-! ## An instruction that runs a phase shape: completion (40_flag_library.md R160) -/

theorem exec_binary16_ok {f : Word → Word → Effect16} (hi : exec i s = runCommand (binary16 f d v) s)
    (hd : s.reads16 d = true) (hv : s.readsVal16 v = true) (hF : s.written8 .f = true)
    (hdec : ∀ a b, Declares s.cfg (f a b).z80 (f a b).gb) :
    ∃ a b s1 s2 s3 t, readLoc16 d s = .ok a s1 ∧ readVal16 v s1 = .ok b s2 ∧
      writeLoc16 d (f a b).result s2 = .ok () s3 ∧ s3.FlagsSet t (f a b).z80 (f a b).gb ∧
      exec i s = .next (t.complete s) := by
  obtain ⟨a, b, s1, s2, s3, t, h1, h2, h3, hflags, hrun⟩ := binary16_ok hd hv (reads16_writes16 hd) hF hdec
  exact ⟨a, b, s1, s2, s3, t, h1, h2, h3, hflags, hi.trans (runCommand_ok hrun)⟩

theorem exec_binary16c_ok {f : Word → Word → Bool → Effect16} (hi : exec i s = runCommand (binary16c f d v) s)
    (hd : s.reads16 d = true) (hv : s.readsVal16 v = true) (hF : s.written8 .f = true)
    (hdec : ∀ a b c, Declares s.cfg (f a b c).z80 (f a b c).gb) :
    ∃ a b s1 s2 s3 t, readLoc16 d s = .ok a s1 ∧ readVal16 v s1 = .ok b s2 ∧
      writeLoc16 d (f a b (s.flag .c)).result s2 = .ok () s3 ∧
      s3.FlagsSet t (f a b (s.flag .c)).z80 (f a b (s.flag .c)).gb ∧ exec i s = .next (t.complete s) := by
  obtain ⟨a, b, s1, s2, s3, t, h1, h2, h3, hflags, hrun⟩ := binary16c_ok hd hv (reads16_writes16 hd) hF hdec
  exact ⟨a, b, s1, s2, s3, t, h1, h2, h3, hflags, hi.trans (runCommand_ok hrun)⟩

theorem exec_unary16_ok {f : Word → Word} (hi : exec i s = runCommand (unary16 f d) s) (hd : s.reads16 d = true) :
    ∃ a s1 t, readLoc16 d s = .ok a s1 ∧ writeLoc16 d (f a) s1 = .ok () t ∧ exec i s = .next (t.complete s) := by
  obtain ⟨a, s1, t, h1, h2, hrun⟩ := unary16_ok hd (reads16_writes16 hd)
  exact ⟨a, s1, t, h1, h2, hi.trans (runCommand_ok hrun)⟩

/-! ## An instruction that runs a phase shape: errors (60_exceptions.md R305) -/

theorem binary16_unwritten {f : Word → Word → Effect16} (h1 : readLoc16 d s = .ok a s1)
    (h2 : readVal16 v s1 = .ok b s2) (h3 : writeLoc16 d (f a b).result s2 = .ok () s3) (hF : s3.written8 .f = false)
    (hdec : Declares s3.cfg (f a b).z80 (f a b).gb) : binary16 f d v s = .error (.unwritten (.reg8 .f)) s3 :=
  (M.bind_ok h1).trans ((M.bind_ok h2).trans ((M.bind_ok h3).trans (writeFlags_unwritten hF hdec)))

/-- The carry is read before anything is computed, so the errors are the same for every effect. -/
theorem binary16c_aborts (hi : ∀ s, ∃ f, exec i s = runCommand (binary16c f d v) s) : i.abortsBinary16c d v := by
  intro s s1 s2 a b e
  obtain ⟨f, hf⟩ := hi s
  refine ⟨fun h => ?_, fun h1 h => ?_, fun h1 h2 hF => ?_⟩
  · exact abortsWith_of_run hf (M.bind_error h)
  · exact abortsWith_of_run hf ((M.bind_ok h1).trans (M.bind_error h))
  · exact abortsWith_of_run hf ((M.bind_ok h1).trans ((M.bind_ok h2).trans (M.bind_error (readFlag_unwritten hF))))

theorem unary16_aborts {f : Word → Word} (hi : ∀ s, exec i s = runCommand (unary16 f d) s) : i.abortsModify16 d :=
  fun s _ _ h => abortsWith_of_run (hi s) (M.bind_error h)

/-! ## ADD16 (R230) -/

theorem low12_eq_mod (w : Word) : low12 w = w.toNat % 4096 := by
  rw [low12, BitVec.toNat_and]
  exact Nat.and_two_pow_sub_one_eq_mod w.toNat 12

theorem addHalfCarry16_eq (threshold a b : Word) : addHalfCarry16 threshold a b =
    decide (a.toNat % 4096 + b.toNat % 4096 ≥ threshold.toNat) := by
  rw [addHalfCarry16, low12_eq_mod, low12_eq_mod]

theorem add16_declares (cfg : Config) (threshold a b : Word) :
    Declares cfg (add16 threshold a b).z80 (add16 threshold a b).gb :=
  declares_of_h rfl rfl rfl rfl

/-- The threshold is the machine's, so the effect is fixed only once the state is. -/
theorem add16_aborts (d : Loc16) (v : Val16) : (Instr.add16 d v).abortsBinary16 d v (fun a b => a + b) := by
  intro s s1 s2 s3 a b e
  refine ⟨fun h => ?_, fun h1 h => ?_, fun h1 h2 h3 hF => ?_⟩
  · exact abortsWith_of_run rfl (M.bind_error h)
  · exact abortsWith_of_run rfl ((M.bind_ok h1).trans (M.bind_error h))
  · exact abortsWith_of_run rfl (binary16_unwritten (f := add16 s.cfg.hc16Threshold) h1 h2 h3 hF (add16_declares ..))

/-- Settles O42: ADD16 is `binary16` with the effect of R230, which is the model's own `add16`. -/
theorem add16_spec : Obligations.Add16 := by
  refine ⟨fun s d v hd hv hF => ?_, add16_aborts⟩
  simp only [← addHalfCarry16_eq]
  exact exec_binary16_ok (f := add16 s.cfg.hc16Threshold) rfl hd hv hF fun _ _ => add16_declares ..

/-! ## ADC16 and SBC16 (R231, R232) -/

/-- Settles O43: both are `binary16c` with the effects of R231 and R232; their rows are not the Game Boy's. -/
theorem addAndSubtractWithCarry16 : Obligations.AddAndSubtractWithCarry16 := by
  refine ⟨fun s d v hz hd hv hF => ⟨?_, ?_⟩, fun d v => ⟨?_, ?_⟩, fun d v => ⟨?_, ?_⟩⟩
  · obtain ⟨a, b, s1, s2, s3, t, h1, h2, h3, hflags, hrun⟩ := exec_binary16c_ok (i := .adc16 d v)
      (f := adc16 s.cfg.hc16Threshold) rfl hd hv hF fun _ _ _ => declares_of_z80 hz rfl
    exact ⟨a, b, _, _, s1, s2, s3, t, rfl, h1, h2, rfl, h3, hflags, hrun⟩
  · obtain ⟨a, b, s1, s2, s3, t, h1, h2, h3, hflags, hrun⟩ := exec_binary16c_ok (i := .sbc16 d v)
      (f := sbc16) rfl hd hv hF fun _ _ _ => declares_of_z80 hz rfl
    exact ⟨a, b, _, _, s1, s2, s3, t, rfl, h1, h2, rfl, h3, hflags, hrun⟩
  · exact binary16c_aborts fun _ => ⟨_, rfl⟩
  · exact binary16c_aborts fun _ => ⟨_, rfl⟩
  · exact illFormedIsRefusedByItsCheck .gb (.adc16 d v) .opVariant rfl
  · exact illFormedIsRefusedByItsCheck .gb (.sbc16 d v) .opVariant rfl

/-! ## INC16 and DEC16 (R233, R234) -/

/-- Settles O44: both are `unary16`, which has no flag phase. -/
theorem incrementAndDecrement16 : Obligations.IncrementAndDecrement16 := by
  refine ⟨fun s d hd => ⟨?_, ?_⟩, fun d => ⟨?_, ?_⟩⟩
  · exact exec_unary16_ok (f := fun a => a + 1) rfl hd
  · exact exec_unary16_ok (f := fun a => a - 1) rfl hd
  · exact unary16_aborts (f := fun a => a + 1) fun _ => rfl
  · exact unary16_aborts (f := fun a => a - 1) fun _ => rfl

/-! ## ADDSPE and LDHLSPE (R235, R236) -/

/-- What the two share: a byte and SP are read, `put` stores their sum, the flags are written. -/
def addSignedInto (put : State → Word → State) (v : Val8) : M Unit := do
  let e ← readVal8 v
  let sp ← readReg16 .sp
  (fun s => .ok () (put s (addSigned sp e).result) : M Unit)
  writeFlags (addSigned sp e).z80 (addSigned sp e).gb

theorem exec_addspe (v : Val8) (s : State) :
    exec (.addspe v) s = runCommand (addSignedInto (·.setReg16 .sp ·) v) s := rfl

theorem exec_ldhlspe (v : Val8) (s : State) :
    exec (.ldhlspe v) s = runCommand (addSignedInto (·.setPair .hl ·) v) s := rfl

theorem setPair_hl_written8_f (s : State) (w : Word) : (s.setPair .hl w).written8 .f = s.written8 .f := by
  simp [State.setPair, Pair.high, Pair.low]

theorem addSigned_declares {cfg : Config} (hg : cfg.variant = .gb) (sp : Word) (e : Byte) :
    Declares cfg (addSigned sp e).z80 (addSigned sp e).gb :=
  declares_of_gb hg rfl rfl rfl

/-- R148 as arithmetic. -/
theorem addHalfCarry16_8_eq (sp : Word) (e : Byte) :
    addHalfCarry16_8 sp e = decide (sp.toNat % 16 + e.toNat % 16 ≥ 16) := by
  rw [addHalfCarry16_8, lowNibble_eq_mod, BitVec.toNat_and]
  exact congrArg (fun n => decide (n + e.toNat % 16 ≥ 16)) (Nat.and_two_pow_sub_one_eq_mod sp.toNat 4)

/-- R151 as arithmetic. -/
theorem addCarry16_8_eq (sp : Word) (e : Byte) :
    addCarry16_8 sp e = decide (sp.toNat % 256 + e.toNat > 0xFF) := by
  rw [addCarry16_8, BitVec.toNat_and]
  exact congrArg (fun n => decide (n + e.toNat > 0xFF)) (Nat.and_two_pow_sub_one_eq_mod sp.toNat 8)

section AddSigned

variable {put : State → Word → State} {v : Val8} {e : Byte}

theorem addSignedInto_run (h1 : readVal8 v s = .ok e s1) (hsp : s1.written16 .sp = true) :
    addSignedInto put v s = writeFlags (addSigned (s.reg16 .sp) e).z80 (addSigned (s.reg16 .sp) e).gb
      (put s1 (s.reg16 .sp + sext16 e)) := by
  have r1 : ReadsOnly s s1 := (within_readVal8 v s).of_ok h1
  rw [← r1.reg16_eq]
  exact (M.bind_ok h1).trans ((M.bind_ok (readReg16_ok hsp)).trans (M.bind_ok rfl))

theorem exec_addSignedInto_ok (hi : exec i s = runCommand (addSignedInto put v) s)
    (hF : ∀ s w, (put s w).written8 .f = s.written8 .f) (hcfg : ∀ s w, (put s w).cfg = s.cfg)
    (hg : s.cfg.variant = .gb) (hv : s.readsVal8 v = true) (hsp : s.written16 .sp = true)
    (hwritten : s.written8 .f = true) : ∃ e s1 t, readVal8 v s = .ok e s1 ∧
      (put s1 (s.reg16 .sp + sext16 e)).FlagsSet t {} (addSigned (s.reg16 .sp) e).gb ∧
      exec i s = .next (t.complete s) := by
  obtain ⟨e, s1, h1⟩ := readVal8_ok hv
  have r1 : ReadsOnly s s1 := (within_readVal8 v s).of_ok h1
  obtain ⟨t, hphase, hflags⟩ := writeFlags_complete (s := put s1 (s.reg16 .sp + sext16 e))
    (by rw [hF, r1.written8_eq, hwritten]) (addSigned_declares (by rw [hcfg, r1.cfg, hg]) (s.reg16 .sp) e)
  have hrun := (addSignedInto_run h1 (by rw [r1.written16_eq, hsp])).trans hphase
  exact ⟨e, s1, t, h1, hflags, hi.trans (runCommand_ok hrun)⟩

theorem addSignedInto_aborts_read {err : Error} (hi : exec i s = runCommand (addSignedInto put v) s)
    (h : readVal8 v s = .error err s1) : i.abortsWith s err s1 :=
  abortsWith_of_run hi (M.bind_error h)

theorem addSignedInto_aborts_unwritten_sp (hi : exec i s = runCommand (addSignedInto put v) s)
    (h1 : readVal8 v s = .ok e s1) (hsp : s1.written16 .sp = false) :
    i.abortsWith s (.unwritten (.reg16 .sp)) s1 :=
  abortsWith_of_run hi ((M.bind_ok h1).trans (M.bind_error (readReg16_unwritten hsp)))

theorem addSignedInto_aborts_unwritten_f (hi : exec i s = runCommand (addSignedInto put v) s)
    (hF : ∀ s w, (put s w).written8 .f = s.written8 .f) (hcfg : ∀ s w, (put s w).cfg = s.cfg)
    (h1 : readVal8 v s = .ok e s1) (hsp : s1.written16 .sp = true) (hwritten : s1.written8 .f = false)
    (hg : s.cfg.variant = .gb) :
    i.abortsWith s (.unwritten (.reg8 .f)) (put s1 (s.reg16 .sp + sext16 e)) := by
  have r1 : ReadsOnly s s1 := (within_readVal8 v s).of_ok h1
  have hdec := addSigned_declares (cfg := (put s1 (s.reg16 .sp + sext16 e)).cfg) (by rw [hcfg, r1.cfg, hg])
    (s.reg16 .sp) e
  exact abortsWith_of_run hi ((addSignedInto_run h1 hsp).trans (writeFlags_unwritten (by rw [hF, hwritten]) hdec))

end AddSigned

/-- Settles O45: the two are `addSignedInto` SP and `addSignedInto` HL; their rows are not the Z80's. -/
theorem addSignedToStackPointer : Obligations.AddSignedToStackPointer := by
  refine ⟨fun s v hg hv hsp hF => ?_, fun s s1 v e err => ⟨fun h => ⟨?_, ?_⟩, fun h1 hsp => ⟨?_, ?_⟩,
    fun h1 hsp hF hg => ⟨?_, ?_⟩⟩, fun v => ⟨?_, ?_⟩⟩
  · simp only [← addHalfCarry16_8_eq, ← addCarry16_8_eq]
    exact ⟨exec_addSignedInto_ok (exec_addspe v s) (fun _ _ => rfl) (fun _ _ => rfl) hg hv hsp hF,
      exec_addSignedInto_ok (exec_ldhlspe v s) setPair_hl_written8_f (fun _ _ => rfl) hg hv hsp hF⟩
  · exact addSignedInto_aborts_read (exec_addspe v s) h
  · exact addSignedInto_aborts_read (exec_ldhlspe v s) h
  · exact addSignedInto_aborts_unwritten_sp (exec_addspe v s) h1 hsp
  · exact addSignedInto_aborts_unwritten_sp (exec_ldhlspe v s) h1 hsp
  · exact addSignedInto_aborts_unwritten_f (exec_addspe v s) (fun _ _ => rfl) (fun _ _ => rfl) h1 hsp hF hg
  · exact addSignedInto_aborts_unwritten_f (exec_ldhlspe v s) setPair_hl_written8_f (fun _ _ => rfl) h1 hsp hF hg
  · exact illFormedIsRefusedByItsCheck .z80 (.addspe v) .opVariant rfl
  · exact illFormedIsRefusedByItsCheck .z80 (.ldhlspe v) .opVariant rfl

end Sys2Proof.Machine
end

section
/-! PROOFS. Shifts, rotates and SWAP: results, flags, completion and errors (spec/44_shift_rotate.md R250 to R261). -/

namespace Sys2Proof.Machine

variable {s s1 s2 : State} {i : Instr} {d : Loc8} {x : Byte}

/-! ## The operations' flag lines -/

/-- The library's "CB flags" are the spec's, for either variant. -/
theorem cbFlags_eq (r : Byte) (co : Bool) : cbFlags r co = ⟨r, cbFlagsZ80 r co, cbFlagsGb r co⟩ := rfl

theorem aFlags_eq (r : Byte) (co : Bool) : aFlags r co = ⟨r, aFlagsZ80 co, aFlagsGb co⟩ := rfl

theorem cbFlags_declares (cfg : Config) (r : Byte) (co : Bool) : Declares cfg (cbFlags r co).z80 (cbFlags r co).gb :=
  declares_of_h rfl rfl rfl rfl

theorem aFlags_declares (cfg : Config) (r : Byte) (co : Bool) : Declares cfg (aFlags r co).z80 (aFlags r co).gb :=
  declares_of_h rfl rfl rfl rfl

/-- SWAP has the Game Boy's flag line alone. -/
theorem swap8_declares {cfg : Config} (hg : cfg.variant = .gb) (x : Byte) : Declares cfg (swap8 x).z80 (swap8 x).gb :=
  declares_of_gb hg rfl rfl rfl

/-! ## Results as numbers -/

/-- The two shifted nibbles share no bit, so their union is their sum. -/
theorem swapNibbles_eq_ofNat (x : Byte) : swapNibbles x = BitVec.ofNat 8 (x.toNat % 16 * 16 + x.toNat / 16) := by
  apply BitVec.eq_of_toNat_eq
  have hx := x.isLt
  have hhigh : x.toNat / 16 < 2 ^ 4 := by omega
  have hlow : x.toNat * 16 % 256 = 2 ^ 4 * (x.toNat % 16) := by omega
  rw [swapNibbles, BitVec.toNat_or, BitVec.toNat_shiftLeft, BitVec.toNat_ushiftRight, Nat.shiftLeft_eq,
    Nat.shiftRight_eq_div_pow, BitVec.toNat_ofNat]
  show x.toNat * 16 % 256 ||| x.toNat / 16 = (x.toNat % 16 * 16 + x.toNat / 16) % 256
  rw [hlow, ← Nat.two_pow_add_eq_or_of_lt hhigh]
  omega

/-- The carry shifted in from above is 128. -/
theorem rotateRightCarry_eq (x : Byte) (c : Bool) :
    rotateRightCarry x c = logicalShiftRight x ||| BitVec.ofNat 8 (128 * bit c) := by
  cases c <;> rfl

/-! ## An instruction that runs `unary8c`: completion and errors (40_flag_library.md R160, R162, 60_exceptions.md R305) -/

theorem exec_unary8c_ok {f : Byte → Bool → Effect8} (hi : exec i s = runCommand (unary8c f d) s)
    (hd : s.reads8 d = true) (hF : s.written8 .f = true) (hdec : ∀ a c, Declares s.cfg (f a c).z80 (f a c).gb) :
    ∃ a s1 s2 t, readLoc8 d s = .ok a s1 ∧ writeLoc8 d (f a (s.flag .c)).result s1 = .ok () s2 ∧
      s2.FlagsSet t (f a (s.flag .c)).z80 (f a (s.flag .c)).gb ∧ exec i s = .next (t.complete s) := by
  obtain ⟨a, s1, s2, t, h1, h2, hflags, hrun⟩ := unary8c_ok hd (reads8_writes8 hd) hF hdec
  exact ⟨a, s1, s2, t, h1, h2, hflags, hi.trans (runCommand_ok hrun)⟩

/-- On the implicit A the read and the write are plain. -/
theorem exec_unaryAc_ok {f : Byte → Bool → Effect8} (hi : exec i s = runCommand (unary8c f (.reg .a)) s)
    (hA : s.written8 .a = true) (hF : s.written8 .f = true) (hdec : ∀ a c, Declares s.cfg (f a c).z80 (f a c).gb) :
    ∃ t, (s.setReg8 .a (f (s.reg8 .a) (s.flag .c)).result).FlagsSet t
        (f (s.reg8 .a) (s.flag .c)).z80 (f (s.reg8 .a) (s.flag .c)).gb ∧
      exec i s = .next (t.complete s) := by
  obtain ⟨a, s1, s2, t, hread, hwrite, hflags, hrun⟩ := exec_unary8c_ok hi hA hF hdec
  obtain ⟨-, rfl, rfl⟩ := readReg8_eq_ok.1 hread
  cases hwrite
  exact ⟨t, hflags, hrun⟩

/-- The carry is read before anything is computed, so the errors are the same for every effect. -/
theorem unary8c_aborts {f : Byte → Bool → Effect8} (hi : ∀ s, exec i s = runCommand (unary8c f d) s) :
    i.abortsUnary8c d := by
  intro s s1 a e
  refine ⟨fun h => ?_, fun h1 hF => ?_⟩
  · exact abortsWith_of_run (hi s) (M.bind_error h)
  · exact abortsWith_of_run (hi s) ((M.bind_ok h1).trans (M.bind_error (readFlag_unwritten hF)))

/-! ## Shifts and rotates with no carry in (R250, R251, R254 to R256) -/

section NoCarryIn
variable {r : Byte → Byte} {co : Byte → Bool}

theorem exec_shift8_ok (hi : exec i s = runCommand (unary8 (fun x => cbFlags (r x) (co x)) d) s)
    (hd : s.reads8 d = true) (hF : s.written8 .f = true) :
    ∃ x s1 s2 t, readLoc8 d s = .ok x s1 ∧ writeLoc8 d (r x) s1 = .ok () s2 ∧
      s2.FlagsSet t (cbFlagsZ80 (r x) (co x)) (cbFlagsGb (r x) (co x)) ∧ exec i s = .next (t.complete s) := by
  simpa only [cbFlags_eq] using exec_unary8_ok hi hd hF fun _ => cbFlags_declares ..

theorem shift8_aborts (hi : ∀ s, exec i s = runCommand (unary8 (fun x => cbFlags (r x) (co x)) d) s) :
    i.abortsUnary8 d r := by
  simpa only [cbFlags_eq] using unary8_aborts hi fun _ _ => cbFlags_declares ..

theorem exec_rotateA_ok (hi : exec i s = runCommand (unary8 (fun x => aFlags (r x) (co x)) (.reg .a)) s)
    (hA : s.written8 .a = true) (hF : s.written8 .f = true) :
    ∃ t, (s.setReg8 .a (r (s.reg8 .a))).FlagsSet t (aFlagsZ80 (co (s.reg8 .a))) (aFlagsGb (co (s.reg8 .a))) ∧
      exec i s = .next (t.complete s) := by
  simpa only [aFlags_eq] using exec_unaryA_ok hi hA hF fun _ => aFlags_declares ..

theorem rotateA_aborts (hi : ∀ s, exec i s = runCommand (unary8 (fun x => aFlags (r x) (co x)) (.reg .a)) s) :
    i.abortsUnary8 (.reg .a) r := by
  simpa only [aFlags_eq] using unary8_aborts hi fun _ _ => aFlags_declares ..

end NoCarryIn

/-! ## SWAP (R257) -/

theorem exec_swap_ok (hg : s.cfg.variant = .gb) (hd : s.reads8 d = true) (hF : s.written8 .f = true) :
    ∃ x s1 s2 t, readLoc8 d s = .ok x s1 ∧ writeLoc8 d (swapNibbles x) s1 = .ok () s2 ∧
      s2.FlagsSet t {} (cbFlagsGb (swapNibbles x) false) ∧ exec (.swap d) s = .next (t.complete s) :=
  exec_unary8_ok (f := swap8) rfl hd hF (swap8_declares hg)

/-- Neither access of DST changes the variant, so the flag phase is still the Game Boy's. -/
theorem swap_aborts_unwritten_f (hg : s.cfg.variant = .gb) (h1 : readLoc8 d s = .ok x s1)
    (h2 : writeLoc8 d (swapNibbles x) s1 = .ok () s2) (hF : s2.written8 .f = false) :
    (Instr.swap d).abortsWith s (.unwritten (.reg8 .f)) s2 := by
  have hcfg : s2.cfg = s.cfg :=
    ((within_writeLoc8 d (swapNibbles x) s1).of_ok h2).cfg.trans ((within_readLoc8 d s).of_ok h1).cfg
  exact abortsWith_of_run rfl (unary8_unwritten (f := swap8) h1 h2 hF ((swap8_declares hg x).congr hcfg))

/-- Settles O46: each is `unary8` with the CB flags, but SWAP, whose row and flag line are the Game Boy's alone. -/
theorem shiftAndRotate8 : Obligations.ShiftAndRotate8 := by
  refine ⟨fun s d hd hF => ⟨?_, ?_, ?_, ?_, ?_, fun hg => ?_⟩, fun d => ⟨?_, ?_, ?_, ?_, ?_⟩, ?_, fun d => ?_⟩
  · exact exec_shift8_ok (r := rotateLeft) rfl hd hF
  · exact exec_shift8_ok (r := rotateRight) rfl hd hF
  · exact exec_shift8_ok (r := shiftLeft) rfl hd hF
  · exact exec_shift8_ok (r := arithmeticShiftRight) rfl hd hF
  · exact exec_shift8_ok (r := logicalShiftRight) rfl hd hF
  · obtain ⟨x, s1, s2, t, h1, h2, hflags, hrun⟩ := exec_swap_ok hg hd hF
    exact ⟨x, swapNibbles x, s1, s2, t, h1, swapNibbles_eq_ofNat x, h2, hflags, hrun⟩
  · exact shift8_aborts (r := rotateLeft) fun _ => rfl
  · exact shift8_aborts (r := rotateRight) fun _ => rfl
  · exact shift8_aborts (r := shiftLeft) fun _ => rfl
  · exact shift8_aborts (r := arithmeticShiftRight) fun _ => rfl
  · exact shift8_aborts (r := logicalShiftRight) fun _ => rfl
  · intro s s1 s2 d x r e hr hg
    rw [← swapNibbles_eq_ofNat] at hr
    subst hr
    exact ⟨fun h => abortsWith_of_run rfl (M.bind_error h), swap_aborts_unwritten_f hg⟩
  · exact illFormedIsRefusedByItsCheck .z80 (.swap d) .opVariant rfl

/-! ## RL and RR (R252, R253) -/

/-- Settles O47: both are `unary8c`; the old carry comes in at bit 0 or at bit 7. -/
theorem rotateThroughCarry8 : Obligations.RotateThroughCarry8 := by
  refine ⟨fun s d hd hF => ⟨?_, ?_⟩, fun d => ⟨?_, ?_⟩⟩
  · obtain ⟨x, s1, s2, t, h1, h2, hflags, hrun⟩ := exec_unary8c_ok (i := .rl d)
      (f := fun x c => cbFlags (rotateLeftCarry x c) (x.getLsbD 7)) rfl hd hF fun _ _ => cbFlags_declares ..
    exact ⟨x, rotateLeftCarry x (s.flag .c), s1, s2, t, h1, rfl, h2, hflags, hrun⟩
  · obtain ⟨x, s1, s2, t, h1, h2, hflags, hrun⟩ := exec_unary8c_ok (i := .rr d)
      (f := fun x c => cbFlags (rotateRightCarry x c) (x.getLsbD 0)) rfl hd hF fun _ _ => cbFlags_declares ..
    exact ⟨x, rotateRightCarry x (s.flag .c), s1, s2, t, h1, rotateRightCarry_eq .., h2, hflags, hrun⟩
  · exact unary8c_aborts fun _ => rfl
  · exact unary8c_aborts fun _ => rfl

/-! ## The rotates of A (R258 to R261) -/

/-- Settles O48: RLCA and RRCA are `unary8` on A and RLA and RRA `unary8c`, with the A flags. -/
theorem rotateAccumulator : Obligations.RotateAccumulator := by
  refine ⟨fun s hA hF => ⟨?_, ?_, ?_, ?_⟩, ?_, ?_, ?_, ?_⟩
  · exact exec_rotateA_ok (i := .rlca) (r := rotateLeft) (co := (·.getLsbD 7)) rfl hA hF
  · exact exec_rotateA_ok (i := .rrca) (r := rotateRight) (co := (·.getLsbD 0)) rfl hA hF
  · exact exec_unaryAc_ok (i := .rla) (f := fun x c => aFlags (rotateLeftCarry x c) (x.getLsbD 7)) rfl hA hF
      fun _ _ => aFlags_declares ..
  · rw [← rotateRightCarry_eq]
    exact exec_unaryAc_ok (i := .rra) (f := fun x c => aFlags (rotateRightCarry x c) (x.getLsbD 0)) rfl hA hF
      fun _ _ => aFlags_declares ..
  · exact rotateA_aborts (r := rotateLeft) fun _ => rfl
  · exact rotateA_aborts (r := rotateRight) fun _ => rfl
  · exact unary8c_aborts fun _ => rfl
  · exact unary8c_aborts fun _ => rfl

end Sys2Proof.Machine
end

section
/-! PROOFS. Single-bit operations: results, flags, completion and errors (spec/45_bit.md R270 to R272). -/

namespace Sys2Proof.Machine

variable {s s1 : State} {i : Instr} {b : Fin 8} {d : Loc8} {v : Val8} {x : Byte}

/-! ## BIT (R270) -/

/-- R270's "Z80 flags" line; S and PV take the free values `sgn` and `pv`. -/
def bitFlagsZ80 (sgn zero pv : Bool) : FlagUpdate :=
  { s := some sgn, z := some zero, h := some true, pv := some pv, n := some false }

/-- R270's "GB flags" line. -/
def bitFlagsGb (zero : Bool) : FlagUpdate := { z := some zero, n := some false, h := some true }

theorem bitFlags_declares (cfg : Config) (sgn zero pv : Bool) :
    Declares cfg (bitFlagsZ80 sgn zero pv) (bitFlagsGb zero) :=
  declares_of_h rfl rfl rfl rfl

/-- The draws come before F is touched: BIT's flag phase is the common one, run from a later draw counter. -/
theorem bitFlags_eq_writeFlags (zero : Bool) (s : State) : ∃ sgn pv n, s.draws ≤ n ∧
    bitFlags zero s = writeFlags (bitFlagsZ80 sgn zero pv) (bitFlagsGb zero) { s with draws := n } := by
  cases hv : s.cfg.variant with
  | z80 =>
    refine ⟨Config.drawBit s.draws, Config.drawBit (s.draws + 1), s.draws + 1 + 1, by omega, ?_⟩
    rw [bitFlags_z80 zero hv]
    simp only [writeFlags, getState_bind, hv, bitFlagsZ80]
  | gb =>
    refine ⟨false, false, s.draws, le_rfl, ?_⟩
    rw [bitFlags_gb zero hv]
    simp only [writeFlags, getState_bind, hv, bitFlagsGb]

/-- Z is set exactly when the tested bit, as a digit of SRC's value, is 0. -/
theorem not_getLsbD_eq_decide (x : Byte) (n : Nat) : (!x.getLsbD n) = decide (x.toNat / 2 ^ n % 2 = 0) := by
  rw [show x.getLsbD n = _ from flagRead_eq_decide x n, ← decide_not]
  exact decide_eq_decide.2 Nat.mod_two_ne_one

theorem exec_bit_ok (hv : s.readsVal8 v = true) (hF : s.written8 .f = true) :
    ∃ x s1 t sgn pv n, readVal8 v s = .ok x s1 ∧ s1.draws ≤ n ∧
      ({ s1 with draws := n } : State).FlagsSet t (bitFlagsZ80 sgn (!x.getLsbD b.val) pv)
        (bitFlagsGb (!x.getLsbD b.val)) ∧
      exec (.bit b v) s = .next (t.complete s) := by
  obtain ⟨x, s1, hread⟩ := readVal8_ok hv
  have hF1 : s1.written8 .f = true := ((within_readVal8 v s).of_ok hread).written8 _ hF
  obtain ⟨sgn, pv, n, hn, hphase⟩ := bitFlags_eq_writeFlags (!x.getLsbD b.val) s1
  obtain ⟨t, hwrite, hflags⟩ :=
    writeFlags_complete (s := { s1 with draws := n }) hF1 (bitFlags_declares s1.cfg sgn (!x.getLsbD b.val) pv)
  exact ⟨x, s1, t, sgn, pv, n, hread, hn, hflags,
    runCommand_ok ((M.bind_ok hread).trans (hphase.trans hwrite))⟩

theorem bit_aborts_unwritten_f (hread : readVal8 v s = .ok x s1) (hF : s1.written8 .f = false) :
    ∃ n, (Instr.bit b v).abortsWith s (.unwritten (.reg8 .f)) { s1 with draws := n } := by
  obtain ⟨sgn, pv, n, -, hphase⟩ := bitFlags_eq_writeFlags (!x.getLsbD b.val) s1
  have hwrite := writeFlags_unwritten (s := { s1 with draws := n }) hF
    (bitFlags_declares s1.cfg sgn (!x.getLsbD b.val) pv)
  exact ⟨n, abortsWith_of_run rfl ((M.bind_ok hread).trans (hphase.trans hwrite))⟩

/-- Settles O49: one read, then a flag phase that takes its draws first. -/
theorem testBit : Obligations.TestBit := by
  refine ⟨fun s b v hv hF => ?_, fun s s1 b v x e => ⟨fun h => ?_, bit_aborts_unwritten_f⟩⟩
  · simp only [← not_getLsbD_eq_decide]
    exact exec_bit_ok hv hF
  · exact abortsWith_of_run rfl (M.bind_error h)

/-! ## An instruction that reads and writes an 8-bit DST and no flags -/

section Modify8
variable {r : Byte → Byte}

theorem exec_modify8_ok (hi : exec i s = runCommand (readLoc8 d >>= fun x => writeLoc8 d (r x)) s)
    (hd : s.reads8 d = true) :
    ∃ x s1 t, readLoc8 d s = .ok x s1 ∧ writeLoc8 d (r x) s1 = .ok () t ∧ exec i s = .next (t.complete s) := by
  obtain ⟨x, s1, hread⟩ := readLoc8_ok hd
  obtain ⟨t, hwrite⟩ := writeLoc8_after ((within_readLoc8 d s).of_ok hread) (r x) (reads8_writes8 hd)
  exact ⟨x, s1, t, hread, hwrite, hi.trans (runCommand_ok ((M.bind_ok hread).trans hwrite))⟩

theorem modify8_aborts (hi : ∀ s, exec i s = runCommand (readLoc8 d >>= fun x => writeLoc8 d (r x)) s) :
    i.abortsModify8 d :=
  fun s _ _ h => abortsWith_of_run (hi s) (M.bind_error h)

end Modify8

/-! ## SET and RES (R271, R272) -/

/-- Settles O50: both read DST and write it with one bit written as a flag view writes its bit (10_state.md R30). -/
theorem setAndResetBit : Obligations.SetAndResetBit := by
  refine ⟨fun s b d hd => ⟨?_, ?_⟩, fun b d => ⟨?_, ?_⟩⟩
  · exact exec_modify8_ok (r := (flagWrite · b.val true)) rfl hd
  · exact exec_modify8_ok (r := (flagWrite · b.val false)) rfl hd
  · exact modify8_aborts (r := (flagWrite · b.val true)) fun _ => rfl
  · exact modify8_aborts (r := (flagWrite · b.val false)) fun _ => rfl

end Sys2Proof.Machine
end

section
/-! PROOFS. Control transfer: results, completion and errors (spec/46_control.md R281 to R286). -/

namespace Sys2Proof.Machine

variable {s s1 t : State} {i : Instr} {k : Cond} {e : Error} {v : Val8} {x : Byte}

/-! ## A transfer under a condition (R281) -/

/-- What JP, JR, CALL and RET share: `m` runs when the condition holds, and nothing else does. -/
def whenHolds (k : Cond) (m : M Unit) : M Unit := do
  let taken ← evalCond k
  if taken then m else pure ()

section WhenHolds

variable {m : M Unit}

theorem whenHolds_taken (hk : s.condReads k = true) (h : s.holds k = true) : whenHolds k m s = m s := by
  rw [whenHolds, M.bind_ok (evalCond_ok hk), h]; rfl

theorem whenHolds_not_taken (hk : s.condReads k = true) (h : s.holds k = false) : whenHolds k m s = .ok () s := by
  rw [whenHolds, M.bind_ok (evalCond_ok hk), h]; rfl

theorem exec_not_taken (hi : exec i s = runCommand (whenHolds k m) s) (hk : s.condReads k = true)
    (h : s.holds k = false) : exec i s = .next (s.complete s) :=
  hi.trans (runCommand_ok (whenHolds_not_taken hk h))

theorem exec_taken (hi : exec i s = runCommand (whenHolds k m) s) (hk : s.condReads k = true)
    (h : s.holds k = true) (hm : m s = .ok () t) : exec i s = .next (t.complete s) :=
  hi.trans (runCommand_ok ((whenHolds_taken hk h).trans hm))

theorem taken_aborts (hi : exec i s = runCommand (whenHolds k m) s) (hk : s.condReads k = true)
    (h : s.holds k = true) (hm : m s = .error e t) : i.abortsWith s e t :=
  abortsWith_of_run hi ((whenHolds_taken hk h).trans hm)

theorem cond_aborts_unwritten_f (hi : exec i s = runCommand (whenHolds k m) s) (hk : s.condReads k = false) :
    i.abortsWith s (.unwritten (.reg8 .f)) s :=
  abortsWith_of_run hi (M.bind_error (evalCond_unwritten hk))

end WhenHolds

/-! ## The target of a relative jump (R283, R286) -/

/-- What JR and DJNZ share: SRC and PC are read, and `f` goes on with their sum. -/
def withTarget (v : Val8) (f : Word → M Unit) : M Unit := do
  let e ← readVal8 v
  let pc ← readReg16 .pc
  f (branchTarget pc e)

theorem branchTarget_eq_ofInt (pc : Word) (x : Byte) : branchTarget pc x = pc + BitVec.ofInt 16 x.toInt := rfl

section WithTarget

variable {f : Word → M Unit}

/-- Reading SRC leaves PC as it was, so the target is the one of the state before. -/
theorem withTarget_ok (hv : s.readsVal8 v = true) (hpc : s.written16 .pc = true) :
    ∃ e s1, readVal8 v s = .ok e s1 ∧ withTarget v f s = f (s.reg16 .pc + BitVec.ofInt 16 e.toInt) s1 := by
  obtain ⟨e, s1, h1⟩ := readVal8_ok hv
  have r1 : ReadsOnly s s1 := (within_readVal8 v s).of_ok h1
  refine ⟨e, s1, h1, ?_⟩
  rw [withTarget, M.bind_ok h1, M.bind_ok (readReg16_ok (by rw [r1.written16_eq, hpc])), r1.reg16_eq,
    branchTarget_eq_ofInt]

theorem withTarget_error (h : readVal8 v s = .error e t) : withTarget v f s = .error e t := M.bind_error h

theorem withTarget_unwritten_pc (h : readVal8 v s = .ok x t) (hpc : t.written16 .pc = false) :
    withTarget v f s = .error (.unwritten (.reg16 .pc)) t :=
  (M.bind_ok h).trans (M.bind_error (readReg16_unwritten hpc))

end WithTarget

/-! ## JP and JR (R282, R283) -/

/-- JP, taken: PC is set to SRC. -/
def jumpTo (v : Val16) : M Unit := do
  let a ← readVal16 v
  writeReg16 .pc a

theorem exec_jp (k : Cond) (v : Val16) (s : State) : exec (.jp k v) s = runCommand (whenHolds k (jumpTo v)) s := rfl

theorem exec_jr (k : Cond) (v : Val8) (s : State) :
    exec (.jr k v) s = runCommand (whenHolds k (withTarget v (writeReg16 .pc))) s := rfl

theorem exec_jp_taken {v : Val16} (hk : s.condReads k = true) (h : s.holds k = true) (hv : s.readsVal16 v = true) :
    ∃ a s1, readVal16 v s = .ok a s1 ∧ exec (.jp k v) s = .next ((s1.setReg16 .pc a).complete s) := by
  obtain ⟨a, s1, h1⟩ := readVal16_ok hv
  exact ⟨a, s1, h1, exec_taken (exec_jp k v s) hk h (M.bind_ok h1)⟩

theorem exec_jr_taken (hk : s.condReads k = true) (h : s.holds k = true) (hv : s.readsVal8 v = true)
    (hpc : s.written16 .pc = true) : ∃ e s1, readVal8 v s = .ok e s1 ∧
      exec (.jr k v) s = .next ((s1.setReg16 .pc (s.reg16 .pc + BitVec.ofInt 16 e.toInt)).complete s) := by
  obtain ⟨e, s1, h1, hrun⟩ := withTarget_ok (f := writeReg16 .pc) hv hpc
  exact ⟨e, s1, h1, exec_taken (exec_jr k v s) hk h hrun⟩

/-- JR takes none of the four conditions on PV and S (30_encoding.md R107). -/
theorem illFormed_jr {y : Variant} (hk : k ∈ [Cond.po, .pe, .p, .m]) :
    (Instr.jr k v).illFormed y = some .auxLegal := by
  have hshort : k.short = false := by revert hk; cases k <;> decide
  simp [Instr.illFormed, Instr.variantOk, Instr.auxOk, hshort]

/-- Settles O51: both run under `whenHolds`; the four long conditions fail JR's own check. -/
theorem jumps : Obligations.Jumps := by
  refine ⟨fun s => rfl, fun s k v hk => ⟨exec_not_taken (exec_jp k v s) hk, exec_jp_taken hk⟩,
    fun s k v hk => ⟨exec_not_taken (exec_jr k v s) hk, exec_jr_taken hk⟩,
    fun s t k v w x e => ⟨fun hk => ⟨?_, ?_⟩, fun hk h hread => ?_, fun hk h hread => ?_,
      fun hk h hread hpc => ?_⟩,
    fun y k w hk => illFormedIsRefusedByItsCheck y (.jr k w) .auxLegal (illFormed_jr hk)⟩
  · exact cond_aborts_unwritten_f (exec_jp k v s) hk
  · exact cond_aborts_unwritten_f (exec_jr k w s) hk
  · exact taken_aborts (exec_jp k v s) hk h (M.bind_error hread)
  · exact taken_aborts (exec_jr k w s) hk h (withTarget_error hread)
  · exact taken_aborts (exec_jr k w s) hk h (withTarget_unwritten_pc hread hpc)

/-! ## CALL and RET (R284, R285) -/

section CallAndReturn

variable {v : Val16} {a : Word}

/-- CALL, taken: SRC is read, PC is pushed, PC is set. -/
def callTo (v : Val16) : M Unit := do
  let a ← readVal16 v
  let back ← readReg16 .pc
  push16 back
  writeReg16 .pc a

/-- RET, taken: the word at the top of the stack goes to PC. -/
def returnToCaller : M Unit := do
  let a ← pop16
  writeReg16 .pc a

theorem exec_call (k : Cond) (v : Val16) (s : State) :
    exec (.call k v) s = runCommand (whenHolds k (callTo v)) s := rfl

theorem exec_ret (k : Cond) (s : State) : exec (.ret k) s = runCommand (whenHolds k returnToCaller) s := rfl

/-- Past its reads CALL is one stack write, at the SP and with the PC of the state before, then the jump. -/
theorem callTo_run (h1 : readVal16 v s = .ok a s1) (hpc : s1.written16 .pc = true) (hsp : s1.written16 .sp = true) :
    callTo v s = (memWrite16 (s.reg16 .sp - 2) (s.reg16 .pc) >>= fun _ => writeReg16 .pc a)
      (s1.setReg16 .sp (s.reg16 .sp - 2)) := by
  have r1 : ReadsOnly s s1 := (within_readVal16 v s).of_ok h1
  rw [callTo, M.bind_ok h1, M.bind_ok (readReg16_ok hpc), M.bind_run, push16_run _ hsp, r1.reg16_eq, r1.reg16_eq,
    M.bind_run]

theorem exec_call_taken (hk : s.condReads k = true) (h : s.holds k = true) (hv : s.readsVal16 v = true)
    (hpc : s.written16 .pc = true) (hsp : s.written16 .sp = true) (hw : s.busWrites16 (s.reg16 .sp - 2) = true) :
    ∃ a s1 t, readVal16 v s = .ok a s1 ∧
      memWrite16 (s.reg16 .sp - 2) (s.reg16 .pc) (s1.setReg16 .sp (s.reg16 .sp - 2)) = .ok () t ∧
      exec (.call k v) s = .next ((t.setReg16 .pc a).complete s) := by
  obtain ⟨a, s1, h1⟩ := readVal16_ok hv
  have r1 : ReadsOnly s s1 := (within_readVal16 v s).of_ok h1
  have hw1 : (s1.setReg16 .sp (s.reg16 .sp - 2)).busWrites16 (s.reg16 .sp - 2) = true :=
    (busWrites16_congr (t := s1.setReg16 .sp (s.reg16 .sp - 2)) r1.cfg _).trans hw
  obtain ⟨t, h2⟩ := memWrite16_ok (s.reg16 .pc) hw1
  have hrun := callTo_run h1 (by rw [r1.written16_eq, hpc]) (by rw [r1.written16_eq, hsp])
  exact ⟨a, s1, t, h1, h2, exec_taken (exec_call k v s) hk h (hrun.trans (M.bind_ok h2))⟩

theorem exec_ret_taken (hk : s.condReads k = true) (h : s.holds k = true) (hsp : s.written16 .sp = true)
    (hr : s.busReads16 (s.reg16 .sp) = true) : ∃ a s1, memRead16 (s.reg16 .sp) s = .ok a s1 ∧
      exec (.ret k) s = .next (((s1.setReg16 .sp (s.reg16 .sp + 2)).setReg16 .pc a).complete s) := by
  obtain ⟨a, s1, h1⟩ := memRead16_ok hr
  exact ⟨a, s1, h1, exec_taken (exec_ret k s) hk h (M.bind_ok (pop16_ok hsp h1))⟩

/-- CALL's failed stack write leaves SP decremented and PC unchanged: the bus changes no register. -/
theorem exec_call_stack_error (hk : s.condReads k = true) (h : s.holds k = true) (h1 : readVal16 v s = .ok a s1)
    (hpc : s1.written16 .pc = true) (hsp : s1.written16 .sp = true)
    (h2 : memWrite16 (s.reg16 .sp - 2) (s.reg16 .pc) (s1.setReg16 .sp (s.reg16 .sp - 2)) = .error e t) :
    (Instr.call k v).abortsWith s e t ∧ t.reg16 .sp = s.reg16 .sp - 2 ∧ t.reg16 .pc = s.reg16 .pc := by
  have r1 : ReadsOnly s s1 := (within_readVal16 v s).of_ok h1
  refine ⟨taken_aborts (exec_call k v s) hk h ((callTo_run h1 hpc hsp).trans (M.bind_error h2)), ?_, ?_⟩
  · rw [← M.final_error h2, memWrite16_reg16, State.setReg16_reg16_self]
  · rw [← M.final_error h2, memWrite16_reg16, State.setReg16_reg16_ne _ _ (by decide), r1.reg16_eq]

/-- RET's failed stack read leaves SP and PC unchanged. -/
theorem exec_ret_stack_error (hk : s.condReads k = true) (h : s.holds k = true) (hsp : s.written16 .sp = true)
    (h1 : memRead16 (s.reg16 .sp) s = .error e t) :
    (Instr.ret k).abortsWith s e t ∧ t.reg16 .sp = s.reg16 .sp ∧ t.reg16 .pc = s.reg16 .pc := by
  have r1 : ReadsOnly s t := (within_memRead16 _ s).of_error h1
  exact ⟨taken_aborts (exec_ret k s) hk h (M.bind_error (pop16_error hsp h1)), r1.reg16_eq .sp, r1.reg16_eq .pc⟩

end CallAndReturn

/-- Settles O52: both run under `whenHolds`; the accesses in order, and what a failed stack access leaves. -/
theorem callAndReturn : Obligations.CallAndReturn := by
  refine ⟨fun s k v hk => ⟨exec_not_taken (exec_call k v s) hk, exec_call_taken hk⟩,
    fun s k hk => ⟨exec_not_taken (exec_ret k s) hk, exec_ret_taken hk⟩,
    fun s s1 t k v a e => ⟨fun hk => ⟨?_, ?_⟩, fun hk h => ⟨fun hread => ?_, fun h1 hpc => ?_,
      fun h1 hpc hsp => ?_, exec_call_stack_error hk h, fun hsp => ?_, exec_ret_stack_error hk h⟩⟩⟩
  · exact cond_aborts_unwritten_f (exec_call k v s) hk
  · exact cond_aborts_unwritten_f (exec_ret k s) hk
  · exact taken_aborts (exec_call k v s) hk h (M.bind_error hread)
  · exact taken_aborts (exec_call k v s) hk h ((M.bind_ok h1).trans (M.bind_error (readReg16_unwritten hpc)))
  · exact taken_aborts (exec_call k v s) hk h
      ((M.bind_ok h1).trans ((M.bind_ok (readReg16_ok hpc)).trans (M.bind_error (push16_unwritten hsp))))
  · exact taken_aborts (exec_ret k s) hk h (M.bind_error (pop16_unwritten hsp))

/-! ## DJNZ (R286) -/

/-- The writes of a DJNZ that jumps: B, then PC. -/
def countAndJump (n : Byte) (target : Word) : M Unit := do
  writeReg8 .b n
  writeReg16 .pc target

/-- DJNZ once B is read: the loop ends at 1, or the jump's reads come before B and PC are written
(40_flag_library.md R161). -/
def countDown (v : Val8) (b : Byte) : M Unit :=
  if b - 1 = 0 then writeReg8 .b (b - 1) else withTarget v (countAndJump (b - 1))

theorem exec_djnz (v : Val8) (s : State) : exec (.djnz v) s = runCommand (readReg8 .b >>= countDown v) s := rfl

theorem countDown_one (v : Val8) : countDown v 1 = writeReg8 .b 0 := rfl

theorem countDown_of_ne {b : Byte} (hb : b ≠ 1) : countDown v b = withTarget v (countAndJump (b - 1)) :=
  if_neg (mt sub_eq_zero.1 hb)

theorem exec_djnz_last (hw : s.written8 .b = true) (hb : s.reg8 .b = 1) :
    exec (.djnz v) s = .next ((s.setReg8 .b 0).complete s) := by
  have hrun : (readReg8 .b >>= countDown v) s = countDown v 1 s := by rw [M.bind_ok (readReg8_ok hw), hb]
  exact runCommand_ok (hrun.trans (congrFun (countDown_one v) s))

theorem exec_djnz_jumps (hw : s.written8 .b = true) (hb : s.reg8 .b ≠ 1) (hv : s.readsVal8 v = true)
    (hpc : s.written16 .pc = true) : ∃ e s1, readVal8 v s = .ok e s1 ∧
      exec (.djnz v) s = .next (((s1.setReg8 .b (s.reg8 .b - 1)).setReg16 .pc
        (s.reg16 .pc + BitVec.ofInt 16 e.toInt)).complete s) := by
  obtain ⟨e, s1, h1, hrun⟩ := withTarget_ok hv hpc
  exact ⟨e, s1, h1, runCommand_ok ((M.bind_ok (readReg8_ok hw)).trans
    ((congrFun (countDown_of_ne hb) s).trans hrun))⟩

/-- An error past DJNZ's read of B is one of the jump's reads, for it writes B and PC after them. -/
theorem djnz_aborts (hw : s.written8 .b = true) (hb : s.reg8 .b ≠ 1) (h : ∀ f, withTarget v f s = .error e t) :
    (Instr.djnz v).abortsWith s e t :=
  abortsWith_of_run (exec_djnz v s) ((M.bind_ok (readReg8_ok hw)).trans
    ((congrFun (countDown_of_ne hb) s).trans (h _)))

/-- Settles O53: one read of B, then `countDown`, whose reads leave B unchanged; its row is not the Game Boy's. -/
theorem decrementAndJump : Obligations.DecrementAndJump := by
  refine ⟨fun s v hw => ⟨exec_djnz_last hw, exec_djnz_jumps hw⟩,
    fun s t v x e => ⟨fun hw => ?_, fun hw hb h => ⟨?_, ?_⟩, fun hw hb h hpc => ⟨?_, ?_⟩⟩,
    fun v => illFormedIsRefusedByItsCheck .gb (.djnz v) .opVariant rfl⟩
  · exact abortsWith_of_run (exec_djnz v s) (M.bind_error (readReg8_unwritten hw))
  · exact djnz_aborts hw hb fun _ => withTarget_error h
  · exact ReadsOnly.reg8_eq ((within_readVal8 v s).of_error h) .b
  · exact djnz_aborts hw hb fun _ => withTarget_unwritten_pc h hpc
  · exact ReadsOnly.reg8_eq ((within_readVal8 v s).of_ok h) .b

end Sys2Proof.Machine
end

section
/-! PROOFS. Every command and every host access of a register the variant has answers a next state (spec/60_exceptions.md
R300, R315; 70_reset_and_hazards.md R336). -/

namespace Sys2Proof.Machine

variable {s : State} {r : Refusal} {o : Host.Outcome State Fault Refusal}

/-- A next state is no refusal. -/
theorem ne_refused_of_next (h : ∃ t, o = .next t) : o ≠ .refused r := by
  obtain ⟨t, rfl⟩ := h
  exact nofun

/-- Every instruction is a run of parts, and a run of parts completes or takes an error (R305). -/
theorem exec_next (i : Instr) (s : State) : ∃ t, exec i s = .next t := by
  obtain ⟨m, hm, -⟩ := exec_within i s
  rw [hm]
  obtain h | ⟨e, h⟩ := runCommand_final m s
  · exact ⟨_, h⟩
  · exact ⟨_, h⟩

/-- A command that does not decode takes its error, one that decodes is executed (R112). -/
theorem issueCommand_next (bits : Command) (s : State) : ∃ t, issueCommand exec bits s = .next t := by
  cases hdec : decode s.cfg.variant bits with
  | error c => exact ⟨_, issueCommand_error hdec⟩
  | ok i => rw [issueCommand_ok hdec]; exact exec_next i _

theorem hostAnswer_next {α : Type} (answer : α → Output) (m : M α) (s : State) :
    ∃ t, hostAnswer answer m s = .next t := by
  unfold hostAnswer
  cases m s with
  | ok v t => exact ⟨_, rfl⟩
  | error e t => exact ⟨_, rfl⟩

theorem hostWrite_next (m : M Unit) (s : State) : ∃ t, hostWrite m s = .next t := by
  unfold hostWrite
  cases m s with
  | ok v t => exact ⟨_, rfl⟩
  | error e t => exact ⟨_, rfl⟩

/-- An access that answers whenever it is made is refused exactly where its register is absent (log 9). -/
theorem ifPresent_eq_refused_iff {p : Bool} (h : ∃ t, o = .next t) :
    ifPresent p o = .refused r ↔ r = .hostRegisterAbsent ∧ p = false := by
  cases p with
  | true => simpa [ifPresent] using ne_refused_of_next h
  | false => simp [ifPresent, eq_comm]

/-- The host access `x` is to a register the variant `v` does not have (10_state.md R21, R23). -/
@[simp] def Input.registerAbsent (v : Variant) : Input → Bool
  | .readReg8 q | .writeReg8 q _ => !q.inVariant v
  | .readReg16 q | .writeReg16 q _ => !q.inVariant v
  | .command _ | .viewRead8 _ _ | .viewRead16 _ _ | .viewWrite8 _ _ _ | .viewWrite16 _ _ _ => false

/-- An input is refused exactly where it is a host access to an absent register: everything else answers. -/
theorem runInput_eq_refused_iff (x : Input) (s : State) :
    runInput exec x s = .refused r ↔ r = .hostRegisterAbsent ∧ x.registerAbsent s.cfg.variant = true := by
  cases x with
  | command bits => simpa [runInput] using ne_refused_of_next (issueCommand_next bits s)
  | readReg8 q => simpa [runInput] using ifPresent_eq_refused_iff (hostAnswer_next ..)
  | writeReg8 q v => simpa [runInput] using ifPresent_eq_refused_iff (hostWrite_next ..)
  | readReg16 q => simpa [runInput] using ifPresent_eq_refused_iff (hostAnswer_next ..)
  | writeReg16 q v => simpa [runInput] using ifPresent_eq_refused_iff (hostWrite_next ..)
  | viewRead8 | viewRead16 => simpa [runInput] using ne_refused_of_next (hostAnswer_next ..)
  | viewWrite8 | viewWrite16 => simpa [runInput] using ne_refused_of_next (hostWrite_next ..)

/-- A step is refused exactly where the input it takes is a host access to an absent register. -/
theorem step_eq_refused_iff : step s = .refused r ↔
    r = .hostRegisterAbsent ∧ ∃ x rest, s.inputs = x :: rest ∧ x.registerAbsent s.cfg.variant = true := by
  unfold step takeInput
  cases s.inputs with
  | nil => simp
  | cons x rest => simpa using runInput_eq_refused_iff x { s with inputs := rest }

/-- Settles O6: commands answer, `Fault` is empty, and `step_eq_refused_iff` with the four register accesses named. -/
theorem everyCommandAnswersNext : Obligations.EveryCommandAnswersNext := by
  refine ⟨exec_next, fun _ => nofun, fun s r => step_eq_refused_iff.trans (and_congr_right fun _ => ⟨?_, ?_⟩)⟩
  · rintro ⟨x, rest, hin, habs⟩
    cases x with
    | readReg8 q => exact .inl ⟨q, rest, hin, by simpa using habs⟩
    | writeReg8 q v => exact .inr (.inl ⟨q, v, rest, hin, by simpa using habs⟩)
    | readReg16 q => exact .inr (.inr (.inl ⟨q, rest, hin, by simpa using habs⟩))
    | writeReg16 q v => exact .inr (.inr (.inr ⟨q, v, rest, hin, by simpa using habs⟩))
    | command | viewRead8 | viewRead16 | viewWrite8 | viewWrite16 => exact nomatch habs
  · rintro (⟨q, rest, hin, habs⟩ | ⟨q, v, rest, hin, habs⟩ | ⟨q, rest, hin, habs⟩ | ⟨q, v, rest, hin, habs⟩) <;>
      exact ⟨_, rest, hin, by simp [habs]⟩

end Sys2Proof.Machine
end

section
/-! PROOFS. What touches no bus: register accesses, the flag phase, and every instruction without a bus operand or an
implicit stack access (spec/60_exceptions.md R304). -/

namespace Sys2Proof.Machine

variable {α β : Type} {s t : State}

/-- From every state, `m` makes no bus access, changes no flat memory and raises no bus error. -/
structure OffBus (m : M α) : Prop where
  busLog : ∀ s, (M.final m s).busLog = s.busLog
  mem : ∀ s, (M.final m s).mem = s.mem
  error : ∀ s e t, m s = .error e t → e.isBus = false

/-! ## Sequences and single accesses -/

theorem OffBus.bind {m : M α} {f : α → M β} (hm : OffBus m) (hf : ∀ a, OffBus (f a)) : OffBus (m >>= f) where
  busLog s := M.final_bind (R := fun s t => t.busLog = s.busLog) (fun h g => g.trans h) (hm.busLog s)
    fun a t _ => (hf a).busLog t
  mem s := M.final_bind (R := fun s t => t.mem = s.mem) (fun h g => g.trans h) (hm.mem s) fun a t _ => (hf a).mem t
  error s e t h := by
    obtain h | ⟨a, u, -, h⟩ := M.bind_eq_error.1 h
    · exact hm.error s e t h
    · exact (hf a).error u e t h

/-- A part that raises nothing is off the bus when the state it leaves has the same log and flat memory. -/
theorem OffBus.of_ok {m : M α} {a : State → α} {next : State → State} (h : ∀ s, m s = .ok (a s) (next s))
    (hlog : ∀ s, (next s).busLog = s.busLog) (hmem : ∀ s, (next s).mem = s.mem) : OffBus m where
  busLog s := by rw [M.final_ok (h s), hlog]
  mem s := by rw [M.final_ok (h s), hmem]
  error s e t he := by rw [h s] at he; exact nomatch he

theorem offBus_pure (a : α) : OffBus (pure a : M α) := .of_ok (fun _ => rfl) (fun _ => rfl) fun _ => rfl

theorem offBus_getState : OffBus getState := .of_ok (fun _ => rfl) (fun _ => rfl) fun _ => rfl

theorem offBus_drawBit : OffBus drawBit := .of_ok (fun _ => rfl) (fun _ => rfl) fun _ => rfl

theorem offBus_writeReg8 (x : Reg8) (v : Byte) : OffBus (writeReg8 x v) :=
  .of_ok (fun _ => rfl) (fun _ => rfl) fun _ => rfl

theorem offBus_writeReg16 (x : Reg16) (v : Word) : OffBus (writeReg16 x v) :=
  .of_ok (fun _ => rfl) (fun _ => rfl) fun _ => rfl

theorem offBus_writePair (p : Pair) (w : Word) : OffBus (writePair p w) :=
  .of_ok (fun _ => rfl) (fun _ => rfl) fun _ => rfl

/-- A part that stays where it is and raises `Unwritten` at most (10_state.md R44). -/
theorem OffBus.of_unwritten {m : M α} (h : ∀ s, (∃ a, m s = .ok a s) ∨ ∃ c, m s = .error (.unwritten c) s) :
    OffBus m := by
  have stays : ∀ s, M.final m s = s := fun s => by
    obtain ⟨a, h⟩ | ⟨c, h⟩ := h s
    · exact M.final_ok h
    · exact M.final_error h
  refine ⟨fun s => by rw [stays], fun s => by rw [stays], fun s e t he => ?_⟩
  obtain ⟨a, h⟩ | ⟨c, h⟩ := h s <;> rw [h] at he <;> cases he
  rfl

theorem offBus_readReg8 (x : Reg8) : OffBus (readReg8 x) := .of_unwritten fun s => by
  cases hw : s.written8 x with
  | true => exact .inl ⟨_, readReg8_ok hw⟩
  | false => exact .inr ⟨_, readReg8_unwritten hw⟩

theorem offBus_readReg16 (x : Reg16) : OffBus (readReg16 x) := .of_unwritten fun s => by
  cases hw : s.written16 x with
  | true => exact .inl ⟨_, readReg16_ok hw⟩
  | false => exact .inr ⟨_, readReg16_unwritten hw⟩

theorem offBus_readPair (p : Pair) : OffBus (readPair p) :=
  (offBus_readReg8 _).bind fun _ => (offBus_readReg8 _).bind fun _ => offBus_pure _

/-! ## Operands of a kind that is not on the bus (20_memory.md R81, R88) -/

theorem offBus_readLoc8 {d : Loc8} (h : d.onBus = false) : OffBus (readLoc8 d) := by
  cases d with
  | reg x => exact offBus_readReg8 x
  | ptr | pptr | mem => exact nomatch h

theorem offBus_writeLoc8 {d : Loc8} (h : d.onBus = false) (v : Byte) : OffBus (writeLoc8 d v) := by
  cases d with
  | reg x => exact offBus_writeReg8 x v
  | ptr | pptr | mem => exact nomatch h

theorem offBus_readVal8 {v : Val8} (h : v.onBus = false) : OffBus (readVal8 v) := by
  cases v with
  | loc d => exact offBus_readLoc8 h
  | imm b => exact offBus_pure b

theorem offBus_readLoc16 {d : Loc16} (h : d.onBus = false) : OffBus (readLoc16 d) := by
  cases d with
  | reg x => exact offBus_readReg16 x
  | pair p => exact offBus_readPair p
  | pptr | mem => exact nomatch h

theorem offBus_writeLoc16 {d : Loc16} (h : d.onBus = false) (v : Word) : OffBus (writeLoc16 d v) := by
  cases d with
  | reg x => exact offBus_writeReg16 x v
  | pair p => exact offBus_writePair p v
  | pptr | mem => exact nomatch h

theorem offBus_readVal16 {v : Val16} (h : v.onBus = false) : OffBus (readVal16 v) := by
  cases v with
  | loc d => exact offBus_readLoc16 h
  | imm w => exact offBus_pure w

/-! ## Flags and conditions (40_flag_library.md R164, 46_control.md R281) -/

theorem offBus_readFlag (f : Flag) : OffBus (readFlag f) :=
  (offBus_readReg8 .f).bind fun _ => offBus_getState.bind fun _ => offBus_pure _

theorem offBus_settleXY (byte : Byte) : OffBus (settleXY byte) := offBus_getState.bind fun s => by
  cases s.cfg.variant with
  | gb => exact offBus_pure _
  | z80 =>
    cases s.cfg.xyPolicy with
    | draw => exact offBus_drawBit.bind fun _ => offBus_drawBit.bind fun _ => offBus_pure _
    | preserve => exact offBus_pure _

theorem offBus_writeFlagSet (u : FlagUpdate) : OffBus (writeFlagSet u) := by
  unfold writeFlagSet
  split
  · exact offBus_pure _
  · exact (offBus_readReg8 .f).bind fun _ => offBus_getState.bind fun _ => (offBus_settleXY _).bind fun _ =>
      offBus_writeReg8 ..

theorem offBus_writeFlags (z80 gb : FlagUpdate) : OffBus (writeFlags z80 gb) := offBus_getState.bind fun s => by
  cases s.cfg.variant <;> exact offBus_writeFlagSet _

theorem offBus_bitFlags (z : Bool) : OffBus (bitFlags z) := offBus_getState.bind fun s => by
  cases s.cfg.variant with
  | z80 => exact offBus_drawBit.bind fun _ => offBus_drawBit.bind fun _ => offBus_writeFlagSet _
  | gb => exact offBus_writeFlagSet _

theorem offBus_evalCond (k : Cond) : OffBus (evalCond k) := by
  cases k with
  | always => exact offBus_pure _
  | z | c | pe | m => exact offBus_readFlag _
  | nz | nc | po | p => exact (offBus_readFlag _).bind fun _ => offBus_pure _

/-! ## The phase shapes -/

section Shapes

variable {d : Loc8} {v : Val8} {d16 : Loc16} {v16 : Val16}

theorem offBus_binary8 {f : Byte → Byte → Effect8} (h : (d.onBus || v.onBus) = false) : OffBus (binary8 f d v) := by
  obtain ⟨hd, hv⟩ := Bool.or_eq_false_iff.1 h
  exact (offBus_readLoc8 hd).bind fun _ => (offBus_readVal8 hv).bind fun _ => (offBus_writeLoc8 hd _).bind fun _ =>
    offBus_writeFlags ..

theorem offBus_binary8c {f : Byte → Byte → Bool → Effect8} (h : (d.onBus || v.onBus) = false) :
    OffBus (binary8c f d v) := by
  obtain ⟨hd, hv⟩ := Bool.or_eq_false_iff.1 h
  exact (offBus_readLoc8 hd).bind fun _ => (offBus_readVal8 hv).bind fun _ => (offBus_readFlag .c).bind fun _ =>
    (offBus_writeLoc8 hd _).bind fun _ => offBus_writeFlags ..

theorem offBus_unary8 {f : Byte → Effect8} (h : d.onBus = false) : OffBus (unary8 f d) :=
  (offBus_readLoc8 h).bind fun _ => (offBus_writeLoc8 h _).bind fun _ => offBus_writeFlags ..

theorem offBus_unary8c {f : Byte → Bool → Effect8} (h : d.onBus = false) : OffBus (unary8c f d) :=
  (offBus_readLoc8 h).bind fun _ => (offBus_readFlag .c).bind fun _ => (offBus_writeLoc8 h _).bind fun _ =>
    offBus_writeFlags ..

theorem offBus_binary16 {f : Word → Word → Effect16} (h : (d16.onBus || v16.onBus) = false) :
    OffBus (binary16 f d16 v16) := by
  obtain ⟨hd, hv⟩ := Bool.or_eq_false_iff.1 h
  exact (offBus_readLoc16 hd).bind fun _ => (offBus_readVal16 hv).bind fun _ => (offBus_writeLoc16 hd _).bind fun _ =>
    offBus_writeFlags ..

theorem offBus_binary16c {f : Word → Word → Bool → Effect16} (h : (d16.onBus || v16.onBus) = false) :
    OffBus (binary16c f d16 v16) := by
  obtain ⟨hd, hv⟩ := Bool.or_eq_false_iff.1 h
  exact (offBus_readLoc16 hd).bind fun _ => (offBus_readVal16 hv).bind fun _ => (offBus_readFlag .c).bind fun _ =>
    (offBus_writeLoc16 hd _).bind fun _ => offBus_writeFlags ..

theorem offBus_unary16 {f : Word → Word} (h : d16.onBus = false) : OffBus (unary16 f d16) :=
  (offBus_readLoc16 h).bind fun _ => offBus_writeLoc16 h _

theorem offBus_addSignedInto {put : State → Word → State} (h : v.onBus = false)
    (hlog : ∀ s w, (put s w).busLog = s.busLog) (hmem : ∀ s w, (put s w).mem = s.mem) :
    OffBus (addSignedInto put v) :=
  (offBus_readVal8 h).bind fun _ => (offBus_readReg16 .sp).bind fun _ =>
    (OffBus.of_ok (fun _ => rfl) (fun s => hlog s _) fun s => hmem s _).bind fun _ => offBus_writeFlags ..

theorem offBus_readPairs (p q : Pair) : OffBus (readPairs p q) :=
  (offBus_readPair p).bind fun _ => (offBus_readPair q).bind fun _ => offBus_pure _

theorem offBus_exchangePairs (p q : Pair) (w : Word × Word) : OffBus (exchangePairs p q w) :=
  (offBus_writePair p _).bind fun _ => offBus_writePair q _

theorem offBus_whenHolds (k : Cond) {m : M Unit} (hm : OffBus m) : OffBus (whenHolds k m) :=
  (offBus_evalCond k).bind fun taken => by
    cases taken with
    | true => exact hm
    | false => exact offBus_pure _

theorem offBus_withTarget {f : Word → M Unit} (h : v.onBus = false) (hf : ∀ w, OffBus (f w)) :
    OffBus (withTarget v f) :=
  (offBus_readVal8 h).bind fun _ => (offBus_readReg16 .pc).bind fun _ => hf _

theorem offBus_countDown (h : v.onBus = false) (b : Byte) : OffBus (countDown v b) := by
  unfold countDown
  split
  · exact offBus_writeReg8 ..
  · exact offBus_withTarget h fun _ => (offBus_writeReg8 ..).bind fun _ => offBus_writeReg16 ..

end Shapes

/-! ## Every instruction (R304) -/

/-- An instruction with no operand on the bus and no implicit stack access is a run of parts that are off the bus. -/
theorem exec_offBus {i : Instr} (h : i.usesBus = false) (s : State) : ∃ m, exec i s = runCommand m s ∧ OffBus m := by
  cases i with
  | push | pop | call | ret => exact nomatch h
  | nop => exact ⟨_, rfl, offBus_pure ()⟩
  | ld8 d v =>
    obtain ⟨hd, hv⟩ := Bool.or_eq_false_iff.1 h
    exact ⟨_, rfl, (offBus_readVal8 hv).bind fun _ => offBus_writeLoc8 hd _⟩
  | ld16 d v =>
    obtain ⟨hd, hv⟩ := Bool.or_eq_false_iff.1 h
    exact ⟨_, rfl, (offBus_readVal16 hv).bind fun _ => offBus_writeLoc16 hd _⟩
  | ex16 d e =>
    obtain ⟨hd, he⟩ := Bool.or_eq_false_iff.1 h
    exact ⟨_, rfl, (offBus_readLoc16 hd).bind fun _ => (offBus_readLoc16 he).bind fun _ =>
      (offBus_writeLoc16 hd _).bind fun _ => offBus_writeLoc16 he _⟩
  | exx =>
    exact ⟨_, rfl, (offBus_readPairs ..).bind fun _ => (offBus_readPairs ..).bind fun _ =>
      (offBus_readPairs ..).bind fun _ => (offBus_exchangePairs ..).bind fun _ =>
        (offBus_exchangePairs ..).bind fun _ => offBus_exchangePairs ..⟩
  | add8 | sub8 | and8 | xor8 | or8 => exact ⟨_, rfl, offBus_binary8 h⟩
  | adc8 | sbc8 => exact ⟨_, rfl, offBus_binary8c h⟩
  | cp8 a b =>
    obtain ⟨ha, hb⟩ := Bool.or_eq_false_iff.1 h
    exact ⟨_, rfl, (offBus_readVal8 ha).bind fun _ => (offBus_readVal8 hb).bind fun _ => offBus_writeFlags ..⟩
  | inc8 | dec8 | rlc | rrc | sla | sra | srl | swap => exact ⟨_, rfl, offBus_unary8 h⟩
  | rl | rr => exact ⟨_, rfl, offBus_unary8c h⟩
  | neg | cpl | rlca | rrca => exact ⟨_, rfl, offBus_unary8 rfl⟩
  | rla | rra => exact ⟨_, rfl, offBus_unary8c rfl⟩
  | daa =>
    exact ⟨_, rfl, (offBus_readReg8 .a).bind fun _ => (offBus_readFlag .n).bind fun _ =>
      (offBus_readFlag .h).bind fun _ => (offBus_readFlag .c).bind fun _ => (offBus_writeReg8 .a _).bind fun _ =>
        offBus_writeFlags ..⟩
  | scf => exact ⟨_, rfl, offBus_writeFlags ..⟩
  | ccf => exact ⟨_, rfl, (offBus_readFlag .c).bind fun _ => offBus_writeFlags ..⟩
  | add16 => exact ⟨_, rfl, offBus_binary16 h⟩
  | adc16 | sbc16 => exact ⟨_, rfl, offBus_binary16c h⟩
  | inc16 | dec16 => exact ⟨_, rfl, offBus_unary16 h⟩
  | addspe v => exact ⟨_, exec_addspe v s, offBus_addSignedInto h (fun _ _ => rfl) fun _ _ => rfl⟩
  | ldhlspe v => exact ⟨_, exec_ldhlspe v s, offBus_addSignedInto h (fun _ _ => rfl) fun _ _ => rfl⟩
  | bit b v => exact ⟨_, rfl, (offBus_readVal8 h).bind fun _ => offBus_bitFlags _⟩
  | set | res => exact ⟨_, rfl, (offBus_readLoc8 h).bind fun _ => offBus_writeLoc8 h _⟩
  | jp k v =>
    exact ⟨_, exec_jp k v s, offBus_whenHolds k ((offBus_readVal16 h).bind fun _ => offBus_writeReg16 ..)⟩
  | jr k v => exact ⟨_, exec_jr k v s, offBus_whenHolds k (offBus_withTarget h fun _ => offBus_writeReg16 ..)⟩
  | djnz v => exact ⟨_, exec_djnz v s, (offBus_readReg8 .b).bind (offBus_countDown h)⟩

/-- A command whose parts are off the bus hands out no bus error: it hands out its cycles, or the error a part raised
(R305). -/
theorem OffBus.output_not_bus {m : M Unit} {e : Error} {os : List Output} (hm : OffBus m)
    (h : runCommand m s = .next t) (hout : t.outputs = .error e :: os) : e.isBus = false := by
  obtain ⟨u, -, hrun⟩ | ⟨e', u, herr, hrun⟩ := runCommand_cases m s <;> cases hrun.symm.trans h
  · exact nomatch hout
  · cases hout
    exact hm.error s e u herr

/-- Settles O60: the parts of such a command are off the bus, and its end changes neither the log nor flat memory. -/
theorem registerOperationsUseNoBus : Obligations.RegisterOperationsUseNoBus := by
  intro i s t hi h
  obtain ⟨m, hm, hoff⟩ := exec_offBus hi s
  rw [hm] at h
  obtain ⟨o, r, rfl, -⟩ := runCommand_next h
  exact ⟨hoff.busLog s, hoff.mem s, fun e => hoff.output_not_bus h⟩

end Sys2Proof.Machine
end

section
/-! PROOFS. Construction and reset: `RESET_STATE` is loaded entry by entry, so a cell holds what its entries give it and every
other cell is as the blank machine has it (spec/70_reset_and_hazards.md R330, R331). -/

namespace Sys2Proof.Machine

variable {s t : State} {w8 v8 : Reg8 → Bool} {w16 v16 : Reg16 → Bool} {ks js : Nat → Prop}

/-! ## Loading a list of entries -/

/-- `Within.mono` read forwards: what the tighter account lists, the looser one lists. -/
theorem Within.widen (h : Within w8 w16 ks s t) (h8 : ∀ x, w8 x = true → v8 x = true)
    (h16 : ∀ x, w16 x = true → v16 x = true) (hk : ∀ k, ks k → js k) : Within v8 v16 js s t :=
  h.mono (fun x hx => Bool.eq_false_iff.2 fun hw => Bool.eq_false_iff.1 hx (h8 x hw))
    (fun x hx => Bool.eq_false_iff.2 fun hw => Bool.eq_false_iff.1 hx (h16 x hw)) hk

/-- A list loaded entry by entry stays within what each entry stays within; the parameters are fixed meanwhile. -/
theorem Within.foldl {α : Type} {load : State → α → State} {es : List α}
    (h : ∀ t, t.cfg = s.cfg → ∀ e ∈ es, Within w8 w16 ks t (load t e)) : Within w8 w16 ks s (es.foldl load s) :=
  List.foldlRecOn es load (Within.refl ..) fun t ht e he => ht.trans (h t ht.cfg e he)

/-- What the entry `(x, v)` establishes under the parameters, and entries of other keys keep, holds after a list that gives
`x` the value `v` only. -/
theorem foldl_of_mem {κ β : Type} {load : State → κ × β → State} {P : State → Prop} {x : κ} {v : β} {es : List (κ × β)}
    (hcfg : ∀ t e, (load t e).cfg = t.cfg) (hset : ∀ t, t.cfg = s.cfg → P (load t (x, v)))
    (hkeep : ∀ t e, e.1 ≠ x → P t → P (load t e)) (hmem : (x, v) ∈ es) (huniq : ∀ w, (x, w) ∈ es → w = v) :
    P (es.foldl load s) := by
  induction es using List.reverseRecOn with
  | nil => exact nomatch hmem
  | append_singleton es e ih =>
    obtain ⟨y, w⟩ := e
    rw [List.foldl_append, List.foldl_cons, List.foldl_nil]
    by_cases hy : y = x
    · subst hy
      obtain rfl : w = v := huniq w (by simp)
      exact hset _ (List.foldlRecOn (motive := fun t => t.cfg = s.cfg) es load rfl fun t ht e _ => (hcfg t e).trans ht)
    · have hmem : (x, v) ∈ es := by simpa [Ne.symm hy] using hmem
      exact hkeep _ _ hy (ih hmem fun w hw => huniq w (List.mem_append_left _ hw))

/-- A list of entries has one for the key `x`. -/
def lists {κ β : Type} [DecidableEq κ] (es : List (κ × β)) (x : κ) : Bool := decide (x ∈ es.map Prod.fst)

theorem lists_of_mem {κ β : Type} [DecidableEq κ] {es : List (κ × β)} {e : κ × β} (h : e ∈ es) : lists es e.1 = true :=
  decide_eq_true (List.mem_map_of_mem h)

theorem lists_eq_false {κ β : Type} [DecidableEq κ] {es : List (κ × β)} {x : κ} (h : ∀ v, (x, v) ∉ es) :
    lists es x = false := by
  simpa [lists] using h

/-! ## One entry of `RESET_STATE` -/

section Entries

variable {e8 : Reg8 × Byte} {e16 : Reg16 × Word}

theorem load8_of_inVariant (h : e8.1.inVariant s.cfg.variant = true) : s.load8 e8 = s.setReg8 e8.1 e8.2 := if_pos h

theorem load16_of_inVariant (h : e16.1.inVariant s.cfg.variant = true) : s.load16 e16 = s.setReg16 e16.1 e16.2 := if_pos h

/-- An entry changes its Register8, and nothing where the variant lacks that (log 15). -/
theorem within_load8 (h : e8.1.inVariant s.cfg.variant = true → w8 e8.1 = true) : Within w8 w16 ks s (s.load8 e8) := by
  by_cases hv : e8.1.inVariant s.cfg.variant = true
  · rw [load8_of_inVariant hv]
    exact (within_setReg8 s e8.1 e8.2).widen (fun x hx => beq_iff_eq.1 hx ▸ h hv) (fun _ h => nomatch h) fun _ h => h.elim
  · rw [State.load8, if_neg hv]
    exact Within.refl ..

theorem within_load16 (h : e16.1.inVariant s.cfg.variant = true → w16 e16.1 = true) :
    Within w8 w16 ks s (s.load16 e16) := by
  by_cases hv : e16.1.inVariant s.cfg.variant = true
  · rw [load16_of_inVariant hv]
    exact (within_setReg16 s e16.1 e16.2).widen (fun _ h => nomatch h) (fun x hx => beq_iff_eq.1 hx ▸ h hv) fun _ h => h.elim
  · rw [State.load16, if_neg hv]
    exact Within.refl ..

/-- An entry changes its flat byte, as a flat block's write does. -/
theorem within_loadByte (s : State) (e : Host.Cell) :
    Within (fun _ => false) (fun _ => false) (fun k => k = e.1) s (s.loadByte e) where
  cfg := rfl
  regs8 _ _ := rfl
  regs16 _ _ := rfl
  written8 _ h := h
  written16 _ h := h
  mem _ hk := Memory.read_write_ne _ _ (Ne.symm hk)
  memEq hk := absurd rfl (hk e.1)
  listed _ hk := Memory.read_write_isSome _ _ _ _ hk
  wf h := Memory.write_wf _ _ _ h
  faultRecord := rfl
  outputs := rfl
  inputs := rfl
  command := rfl
  busLog := List.suffix_refl _
  draws := Nat.le_refl _
  routed h := h
  masked h := h

end Entries

/-! ## The blank machine -/

theorem Regs8.get_blank (x : Reg8) : Regs8.blank.get x = ⟨0, false⟩ := by cases x <;> rfl

theorem Regs16.get_blank (x : Reg16) : Regs16.blank.get x = ⟨0, false⟩ := by cases x <;> rfl

theorem written8_blank (cfg : Config) (x : Reg8) : (State.blank cfg).written8 x = false :=
  congrArg Cell8.written (Regs8.get_blank x)

theorem written16_blank (cfg : Config) (x : Reg16) : (State.blank cfg).written16 x = false :=
  congrArg Cell16.written (Regs16.get_blank x)

theorem inv_blank (cfg : Config) : (State.blank cfg).Inv where
  memory := rfl
  absent := ⟨fun x _ => written8_blank cfg x, fun x _ => written16_blank cfg x⟩
  masked _ _ hw := by simp [written8_blank] at hw
  routed _ h := nomatch h
  record := rfl

/-! ## The three lists of `RESET_STATE` -/

/-- The registers of a variant to which `RESET_STATE` gives a value. -/
def ResetState.gives8 (rs : ResetState) (v : Variant) (x : Reg8) : Bool := x.inVariant v && lists rs.regs8 x

/-- The same of the Register16 cells. -/
def ResetState.gives16 (rs : ResetState) (v : Variant) (x : Reg16) : Bool := x.inVariant v && lists rs.regs16 x

theorem within_loads8 (s : State) (rs : ResetState) :
    Within (rs.gives8 s.cfg.variant) w16 ks s (rs.regs8.foldl State.load8 s) :=
  Within.foldl fun t ht e he => within_load8 fun hv => by
    rw [ResetState.gives8, lists_of_mem he, ← ht, hv]; rfl

theorem within_loads16 (s : State) (rs : ResetState) :
    Within w8 (rs.gives16 s.cfg.variant) ks s (rs.regs16.foldl State.load16 s) :=
  Within.foldl fun t ht e he => within_load16 fun hv => by
    rw [ResetState.gives16, lists_of_mem he, ← ht, hv]; rfl

theorem within_loadBytes (s : State) (rs : ResetState) :
    Within w8 w16 (fun k => lists rs.bytes k = true) s (rs.bytes.foldl State.loadByte s) :=
  Within.foldl fun t _ e he => (within_loadByte t e).widen (fun _ h => nomatch h) (fun _ h => nomatch h)
    fun _ hk => hk ▸ lists_of_mem he

section Construct

variable {cfg : Config} {rs : ResetState}

/-- After its list a Register8 to which the list gives one value is written and holds it, F through its mask (R34). -/
theorem get_loads8 {x : Reg8} {v : Byte} (hx : x.inVariant s.cfg.variant = true) (hmem : (x, v) ∈ rs.regs8)
    (huniq : ∀ w, (x, w) ∈ rs.regs8 → w = v) :
    (rs.regs8.foldl State.load8 s).regs8.get x = ⟨stored8 s.cfg x v, true⟩ := by
  have hload (t : State) (e : Reg8 × Byte) : Within (fun y => e.1 == y) (fun _ => false) (fun _ => False) t (t.load8 e) :=
    within_load8 fun _ => beq_self_eq_true _
  refine foldl_of_mem (P := fun t => t.regs8.get x = _) (fun t e => (hload t e).cfg) (fun t ht => ?_)
    (fun t e he hP => ((hload t e).regs8 x (beq_false_of_ne he)).trans hP) hmem huniq
  rw [load8_of_inVariant (ht.symm ▸ hx), ← ht]
  simp

theorem get_loads16 {x : Reg16} {v : Word} (hx : x.inVariant s.cfg.variant = true) (hmem : (x, v) ∈ rs.regs16)
    (huniq : ∀ w, (x, w) ∈ rs.regs16 → w = v) : (rs.regs16.foldl State.load16 s).regs16.get x = ⟨v, true⟩ := by
  have hload (t : State) (e : Reg16 × Word) : Within (fun _ => false) (fun y => e.1 == y) (fun _ => False) t (t.load16 e) :=
    within_load16 fun _ => beq_self_eq_true _
  refine foldl_of_mem (P := fun t => t.regs16.get x = _) (fun t e => (hload t e).cfg) (fun t ht => ?_)
    (fun t e he hP => ((hload t e).regs16 x (beq_false_of_ne he)).trans hP) hmem huniq
  rw [load16_of_inVariant (ht.symm ▸ hx)]
  simp

theorem read_loadBytes {k : Nat} {v : Byte} (hmem : (k, v) ∈ rs.bytes) (huniq : ∀ w, (k, w) ∈ rs.bytes → w = v) :
    Memory.read (rs.bytes.foldl State.loadByte s).mem k = some v :=
  foldl_of_mem (P := fun t => Memory.read t.mem k = some v) (fun _ _ => rfl) (fun _ _ => Memory.read_write_self ..)
    (fun _ _ he hP => (Memory.read_write_ne _ _ he).trans hP) hmem huniq

/-- Construction writes what `RESET_STATE` lists, over the blank machine. -/
theorem within_construct (cfg : Config) (rs : ResetState) :
    Within (rs.gives8 cfg.variant) (rs.gives16 cfg.variant) (fun k => lists rs.bytes k = true) (State.blank cfg)
      (State.construct cfg rs) := by
  have h8 : Within (rs.gives8 cfg.variant) (rs.gives16 cfg.variant) (fun k => lists rs.bytes k = true) (State.blank cfg)
      (rs.regs8.foldl State.load8 (State.blank cfg)) := within_loads8 (State.blank cfg) rs
  have h16 := within_loads16 (w8 := rs.gives8 cfg.variant) (ks := fun k => lists rs.bytes k = true)
    (rs.regs8.foldl State.load8 (State.blank cfg)) rs
  rw [h8.cfg] at h16
  exact (h8.trans h16).trans (within_loadBytes _ rs)

/-- The later lists leave the Register8 cells as the first left them. -/
theorem construct_get8 (x : Reg8) : (State.construct cfg rs).regs8.get x =
    (rs.regs8.foldl State.load8 (State.blank cfg)).regs8.get x := by
  have h16 := within_loads16 (w8 := fun _ => false) (ks := fun _ => False) (rs.regs8.foldl State.load8 (State.blank cfg)) rs
  exact ((within_loadBytes (w8 := fun _ => false) (w16 := fun _ => false) _ rs).regs8 x rfl).trans (h16.regs8 x rfl)

/-- The list of flat bytes leaves the Register16 cells. -/
theorem construct_get16 (x : Reg16) : (State.construct cfg rs).regs16.get x =
    (rs.regs16.foldl State.load16 (rs.regs8.foldl State.load8 (State.blank cfg))).regs16.get x :=
  (within_loadBytes (w8 := fun _ => false) (w16 := fun _ => false) _ rs).regs16 x rfl

theorem inv_construct (cfg : Config) (rs : ResetState) : (State.construct cfg rs).Inv :=
  (within_construct cfg rs).inv (fun _ hx => (Bool.and_eq_true_iff.1 hx).1) (fun _ hx => (Bool.and_eq_true_iff.1 hx).1)
    (inv_blank cfg)

/-- Settles O2: what no list gives a value is blank, and what one gives a value its list leaves so. -/
theorem constructionGivesResetState : Obligations.ConstructionGivesResetState := by
  intro cfg rs
  have hw := within_construct cfg rs
  refine ⟨hw.cfg, hw.faultRecord, fun x hx => ?_, fun x v hx hmem huniq => ?_, fun x hx => ?_,
    fun x v hx hmem huniq => ?_, fun k hk => ?_, fun k v => read_loadBytes, inv_construct cfg rs⟩
  · rw [State.written8, hw.regs8 x (by rw [ResetState.gives8, lists_eq_false hx, Bool.and_false])]
    exact written8_blank cfg x
  · rw [State.written8, State.reg8, construct_get8, get_loads8 hx hmem huniq]
    exact ⟨rfl, rfl⟩
  · rw [State.written16, hw.regs16 x (by rw [ResetState.gives16, lists_eq_false hx, Bool.and_false])]
    exact written16_blank cfg x
  · have hcfg : (rs.regs8.foldl State.load8 (State.blank cfg)).cfg = cfg :=
      (within_loads8 (w16 := fun _ => false) (ks := fun _ => False) (State.blank cfg) rs).cfg
    rw [State.written16, State.reg16, construct_get16, get_loads16 (by rwa [hcfg]) hmem huniq]
    exact ⟨rfl, rfl⟩
  · exact hw.mem k (Bool.eq_false_iff.1 (lists_eq_false hk))

end Construct

/-! ## The reset state -/

theorem Regs8.get_reset (x : Reg8) : Regs8.reset.get x = ⟨if x = .a ∨ x = .f then 0xFF else 0x00, true⟩ := by
  cases x <;> rfl

theorem Regs16.get_reset (x : Reg16) : Regs16.reset.get x = ⟨if x = .sp then 0xFFFF else 0x0000, true⟩ := by
  cases x <;> rfl

/-- Settles O1: each field is what the log chose for it, the registers by their two tables. -/
theorem resetValues : Obligations.ResetValues := by
  refine ⟨rfl, fun x => congrArg Cell8.written (Regs8.get_reset x), fun x => congrArg Cell16.written (Regs16.get_reset x),
    rfl, rfl, fun x ha hf => ?_, rfl, rfl, rfl, rfl, rfl, rfl, rfl, rfl, rfl⟩
  have hx : State.reset.reg8 x = _ := congrArg Cell8.value (Regs8.get_reset x)
  rw [hx, if_neg (by simp [ha, hf])]

/-- The reset state is the machine constructed with the `RESET_STATE` of log 1. -/
theorem construct_named : State.construct Config.default ResetState.named = State.reset := by decide

/-- Settles O3: every constructed machine has the invariant. -/
theorem resetHasInvariant : Obligations.ResetHasInvariant := by
  have h := inv_construct Config.default ResetState.named
  rwa [construct_named] at h

end Sys2Proof.Machine
end

section
/-! PROOFS. What every step leaves alone or only adds to (spec/70_reset_and_hazards.md R330, 60_exceptions.md R306,
10_state.md R44). -/

namespace Sys2Proof.Machine

variable {u t : State}

/-- However a step ends, the outputs and the fault record are all that may differ, and both are only added to. -/
theorem EndsIn.only_outputs_and_record (h : EndsIn u t) : ∃ os r, t = { u with outputs := os, faultRecord := r } ∧
    u.outputs <:+ os ∧ (u.faultRecord.isSome = true → r.isSome = true) := by
  obtain rfl | ⟨o, -, rfl⟩ | ⟨e, k, rfl⟩ := h
  · exact ⟨_, _, rfl, List.suffix_refl _, id⟩
  · exact ⟨_, _, rfl, List.suffix_cons .., id⟩
  · exact ⟨_, _, rfl, List.suffix_cons .., fun _ => rfl⟩

/-- Settles O5: the accesses of a step only add, by `Within`, and so does its end. -/
theorem stepOnlyAdds : Obligations.StepOnlyAdds := by
  intro s t h
  obtain ⟨hin, rfl⟩ | ⟨x, rest, w8, w16, u, k, hin, hw, hend, -⟩ := step_cases h
  · exact ⟨rfl, by rw [hin]; rfl, id, List.suffix_refl _, List.suffix_refl _, Nat.le_refl _, fun _ => id, fun _ => id,
      fun _ => id⟩
  · obtain ⟨os, r, rfl, hos, hr⟩ := hend.only_outputs_and_record
    rw [hw.outputs] at hos
    rw [hw.faultRecord] at hr
    exact ⟨hw.cfg, by rw [hin]; exact hw.inputs, hr, hos, hw.busLog, hw.draws, hw.written8, hw.written16, hw.listed⟩

end Sys2Proof.Machine
end

section
/-! PROOFS. Host accesses between commands: what each answers, and that none is observable as a command
(spec/70_reset_and_hazards.md R336, 20_memory.md R71). -/

namespace Sys2Proof.Machine

variable {α : Type} {s t u : State} {w8 : Reg8 → Bool} {w16 : Reg16 → Bool} {ks : Nat → Prop}

/-! ## What a host access answers -/

/-- The step takes the first input of the queue. -/
theorem step_input {x : Input} {rest : List Input} (h : s.inputs = x :: rest) :
    step s = runInput exec x { s with inputs := rest } := by
  rw [step, takeInput, h]

theorem ifPresent_true {p : Bool} {o : Host.Outcome State Fault Refusal} (h : p = true) : ifPresent p o = o := if_pos h

theorem hostAnswer_ok {answer : α → Output} {m : M α} {a : α} (h : m s = .ok a t) :
    hostAnswer answer m s = .next (t.emit (answer a)) := by
  rw [hostAnswer, h]

theorem hostAnswer_error {answer : α → Output} {m : M α} {e : Error} (h : m s = .error e t) :
    hostAnswer answer m s = .next (t.emit (.hostError e)) := by
  rw [hostAnswer, h]

theorem hostWrite_ok {m : M Unit} (h : m s = .ok () t) : hostWrite m s = .next t := by
  rw [hostWrite, h]

theorem hostWrite_error {m : M Unit} {e : Error} (h : m s = .error e t) :
    hostWrite m s = .next (t.emit (.hostError e)) := by
  rw [hostWrite, h]

/-! ## A host access is observable as no command -/

/-- What commands are observed by is as before, and at most one thing is handed to the host (R336, log 8). -/
def State.NoCommandSeen (u t : State) : Prop :=
  t.faultRecord = u.faultRecord ∧ t.command = u.command ∧
    (t.outputs = u.outputs ∨ ∃ o : Output, o.forHost = true ∧ t.outputs = o :: u.outputs)

theorem Within.noCommandSeen (h : Within w8 w16 ks u t) : u.NoCommandSeen t := ⟨h.faultRecord, h.command, .inl h.outputs⟩

theorem Within.noCommandSeen_emit {o : Output} (h : Within w8 w16 ks u t) (ho : o.forHost = true) :
    u.NoCommandSeen (t.emit o) :=
  ⟨h.faultRecord, h.command, .inr ⟨o, ho, congrArg _ h.outputs⟩⟩

theorem hostAnswer_noCommandSeen {answer : α → Output} {m : M α} (ha : ∀ v, (answer v).forHost = true)
    (hw : Within w8 w16 ks u (M.final m u)) (h : hostAnswer answer m u = .next t) : u.NoCommandSeen t := by
  obtain ⟨o, ho, rfl⟩ := hostAnswer_final ha h
  exact hw.noCommandSeen_emit ho

theorem hostWrite_noCommandSeen {m : M Unit} (hw : Within w8 w16 ks u (M.final m u)) (h : hostWrite m u = .next t) :
    u.NoCommandSeen t := by
  obtain rfl | ⟨o, ho, rfl⟩ := hostWrite_final h
  · exact hw.noCommandSeen
  · exact hw.noCommandSeen_emit ho

theorem runInput_noCommandSeen {run : Instr → State → Host.Outcome State Fault Refusal} {x : Input}
    (hx : ∀ bits, x ≠ .command bits) (h : runInput run x u = .next t) : u.NoCommandSeen t := by
  cases x with
  | command bits => exact absurd rfl (hx bits)
  | readReg8 q => exact hostAnswer_noCommandSeen (fun _ => rfl) (within_readReg8 q u) (ifPresent_next h).2
  | writeReg8 q v => exact hostWrite_noCommandSeen (within_writeReg8 q v u) (ifPresent_next h).2
  | readReg16 q => exact hostAnswer_noCommandSeen (fun _ => rfl) (within_readReg16 q u) (ifPresent_next h).2
  | writeReg16 q v => exact hostWrite_noCommandSeen (within_writeReg16 q v u) (ifPresent_next h).2
  | viewRead8 g a => exact hostAnswer_noCommandSeen (fun _ => rfl) (within_viewByteRead g a u) h
  | viewRead16 g a => exact hostAnswer_noCommandSeen (fun _ => rfl) (within_viewWordRead g a u) h
  | viewWrite8 g a v => exact hostWrite_noCommandSeen (within_viewByteWrite g a v u) h
  | viewWrite16 g a v => exact hostWrite_noCommandSeen (within_viewWordWrite g a v u) h

/-! ## The end of a window -/

theorem inWindow_last {fb : FlatBlock} (h : fb.first ≤ fb.last) : fb.inWindow fb.last = true :=
  (inWindow_iff fb fb.last).2 ⟨h, Nat.le_refl _⟩

/-- The address after a window's last one is outside it, unless the window is the whole address space (log 20). -/
theorem not_inWindow_last_add_one {fb : FlatBlock} (hwhole : fb.last = 0xFFFF → fb.first ≠ 0x0000) :
    ¬ fb.inWindow (fb.last + 1) = true := by
  rw [inWindow_iff]
  bv_omega

/-- Settles O15: each access is the view's own, answered to the host; a word of a block is its two byte accesses. -/
theorem hostAccessBetweenCommands : Obligations.HostAccessBetweenCommands := by
  rintro s u rest rfl
  refine ⟨fun h => ?_, ?_, ?_, ?_, ?_, ?_, ?_, ?_, ?_, ?_, ?_, ?_, ?_, ?_⟩
  · rw [step, takeInput, h]
  · intro x v hin hx
    exact (step_input hin).trans (ifPresent_true hx)
  · intro x v hin hx
    exact (step_input hin).trans (ifPresent_true hx)
  · intro x hin hx
    have hstep := (step_input hin).trans (ifPresent_true hx)
    exact ⟨fun hw => hstep.trans (hostAnswer_ok (readReg8_ok hw)),
      fun hw => hstep.trans (hostAnswer_error (readReg8_unwritten hw))⟩
  · intro x hin hx
    have hstep := (step_input hin).trans (ifPresent_true hx)
    exact ⟨fun hw => hstep.trans (hostAnswer_ok (readReg16_ok hw)),
      fun hw => hstep.trans (hostAnswer_error (readReg16_unwritten hw))⟩
  · intro base b t e hin
    rw [step_input hin]
    exact ⟨hostAnswer_ok, hostAnswer_error⟩
  · intro base w t e hin
    rw [step_input hin]
    exact ⟨hostAnswer_ok, hostAnswer_error⟩
  · intro base b t e hin
    rw [step_input hin]
    exact ⟨hostWrite_ok, hostWrite_error⟩
  · intro base w t e hin
    rw [step_input hin]
    exact ⟨hostWrite_ok, hostWrite_error⟩
  · intro fb base b e hin
    rw [step_input hin]
    exact ⟨hostAnswer_ok, hostAnswer_error⟩
  · intro fb base lo hi e hin
    rw [ofNat_append]
    exact ⟨fun hlo hhi => (step_input hin).trans (hostAnswer_ok ((M.bind_ok hlo).trans (M.bind_ok hhi))),
      fun hlo => (step_input hin).trans (hostAnswer_error (M.bind_error hlo)),
      fun hlo hhi => (step_input hin).trans (hostAnswer_error ((M.bind_ok hlo).trans (M.bind_error hhi)))⟩
  · intro fb base b t e hin
    rw [step_input hin]
    exact ⟨hostWrite_ok, hostWrite_error⟩
  · intro fb base w t v e hin
    rw [ofNat_low, ofNat_high]
    have hstep := step_input hin
    refine ⟨fun hlo => ⟨fun hhi => hstep.trans (hostWrite_ok ((M.bind_ok hlo).trans hhi)),
        fun hhi => hstep.trans (hostWrite_error ((M.bind_ok hlo).trans hhi))⟩,
      fun hlo => hstep.trans (hostWrite_error (M.bind_error hlo)), ?_⟩
    rintro rfl hfirst hwhole
    exact hstep.trans (hostWrite_error ((M.bind_ok (flatWrite_ok _ (inWindow_last hfirst))).trans
      (flatWrite_outOfRange _ (not_inWindow_last_add_one hwhole))))
  · intro x t hin hx h
    rw [step_input hin] at h
    exact runInput_noCommandSeen (u := { s with inputs := rest }) hx h

end Sys2Proof.Machine
end
